-- ==== Sys2Proof/Word.lean ====
section
/-! DEFINITION. The two sizes of data the engine knows (spec 00_scope.md rules R8, R11): unsigned 32-bit words and bytes,
and the 32-byte digest of the hash collaborator. -/

namespace Sys2Proof

/-- `u32`, an unsigned 32-bit word, bit 0 least significant (R11, R13). -/
abbrev Word := BitVec 32

/-- `u8`, one byte (R11, R60). -/
abbrev Byte := BitVec 8

/-- `DIGEST_BYTES` = 32 bytes (R8, R9). -/
abbrev Digest := Vector Byte 32

end Sys2Proof
end

