-- ==== Sys2Proof/Machine/Types.lean ====
section
/-! DEFINITION. The closed sets of names the machine's state is made of: phases, sequencer positions, error kinds, buffers,
registers, the host's accesses and the events that drive one step (spec 10_state.md R24, R44; 20_memory.md R60 to R63;
60_exceptions.md R240). -/

namespace Sys2Proof.Machine

/-- `PHASE` (R44). `STATUS.BUSY = 1` exactly when it is `run` (R33). -/
inductive Phase where
  | idle
  | run
  deriving DecidableEq, Repr, Inhabited

/-- `SUB`, the control position inside a running command (R44, R220). -/
inductive Position where
  | sCheck
  | sKs
  | sLoad
  | sRound
  | sStore
  | sUnpad
  | sCopy
  | sEnd
  deriving DecidableEq, Repr, Inhabited

/-- The internal sequencer registers other than `PHASE` (R44). None is visible to the host. -/
structure Sequencer where
  /-- `SUB`, meaningful only while `PHASE = RUN`. -/
  sub : Position
  /-- `CTR`, the key scheduler's 32-bit counter. -/
  ctr : Word
  /-- `NW`, the number of round-key words collected so far. -/
  nw : Nat
  /-- `BLK`, the index of the block being processed. -/
  blk : Nat
  /-- `RND`, the number of rounds already applied to the current block. -/
  rnd : Nat
  /-- `DIG`, the digest most recently returned by the hash. -/
  dig : Digest
  deriving DecidableEq, Repr, Inhabited

/-- The error kinds of R240, codes 1 to 8 in this order. -/
inductive ErrorKind where
  | emptyKey
  | invalidRounds
  | invalidBlockLength
  | invalidCiphertextLength
  | invalidPaddingInputLength
  | invalidPaddingLength
  | invalidPaddingBytes
  | illegalCommand
  deriving DecidableEq, Repr

/-- The three byte buffers KEY, IN, OUT (R23, R60). -/
inductive Buffer where
  | key
  | inp
  | out
  deriving DecidableEq, Repr, Inhabited

/-- The fourteen registers of the REG space (R24), in offset order. `rkData` is a window and has no storage (R43). -/
inductive Reg where
  | cmd
  | status
  | errCode
  | ctrl
  | rounds
  | keyLen
  | inLen
  | outLen
  | rkLen
  | rkIdx
  | rkData
  | mixA
  | mixK
  | mixY
  deriving DecidableEq, Repr

/-- One host access (R61 to R63): the only ones the interface has are 32-bit REG accesses and byte accesses to the
buffers (R62, R63, R71, U11). `off` is a byte offset inside REG, `addr` a byte address inside the buffer. -/
inductive Access where
  /-- `HostRead(REG, off)`. -/
  | readReg (off : Nat)
  /-- `HostWrite(REG, off, v)`. -/
  | writeReg (off : Nat) (v : Word)
  /-- `HostRead(S, addr)`. -/
  | readBuf (b : Buffer) (addr : Nat)
  /-- `HostWrite(S, addr, v)`. -/
  | writeBuf (b : Buffer) (addr : Nat) (v : Byte)
  deriving DecidableEq, Repr

/-- What moves next (R7, R77): the host makes one access, the engine takes one micro-step of the canonical sequence
(R220), the engine carries the running command to its completion in one go (the atomic view, R205), or the platform
applies reset (R280). The order in which they come is the outside world's and stands in `State.inputs`. -/
inductive Event where
  | access (a : Access)
  | engineStep
  | engineRun
  | reset
  deriving DecidableEq, Repr

/-- The value a host read delivers: a register's 32 bits or a buffer's byte (R61, R63). -/
inductive BusData where
  | word (v : Word)
  | byte (v : Byte)
  deriving DecidableEq, Repr

end Sys2Proof.Machine
end

