-- ==== Sys2Proof/Config.lean ====
section
/-! DEFINITION. The implementation parameters (spec 00_scope.md rules R9, R10) and the free values (R17,
93_implementation_defined.md U2 to U7). The parameters are constants with no body, so that a proof holds for every
binding the spec allows; the ranges of R9 and R10 hold by construction. A free value is an uninterpreted constant
applied to what it is a fresh draw for (notes/assumptions 1, 2, 3). -/

namespace Sys2Proof

/-- The three parameters the cipher's functions take (R9): the hash `H`, the constant `C_XOR`, and bits [31:1] of the
odd constant `C_MUL`. The functions take it as an argument, so that they can be evaluated under a test instantiation. -/
structure Params where
  hash : List Byte → Digest
  cXor : Word
  cMulHigh : BitVec 31

/-- `C_MUL`, odd by construction: `C_MUL[0] = 1` (R9). -/
def Params.cMul (p : Params) : Word := p.cMulHigh ++ 1#1

namespace Config

/-- `H` (R9): total, deterministic, 32-byte output; nothing else is known of it (U8). -/
opaque hash : List Byte → Digest

/-- `C_XOR` (R9, U9). -/
opaque cXor : Word

/-- Bits [31:1] of `C_MUL` (R9, U9). -/
opaque cMulHigh : BitVec 31

/-- The parameters of this engine, bound when it is built (R285). -/
def params : Params := ⟨hash, cXor, cMulHigh⟩

/-- `CAP_KEY - 1`, below 2^32 - 1. -/
opaque capKeyOffset : Fin 4294967295

/-- `CAP_IN - 8`, below 2^32 - 16. -/
opaque capInOffset : Fin 4294967280

/-- `CAP_RK - 8`, below 2^32 - 8. -/
opaque capRkOffset : Fin 4294967288

/-- `CAP_KEY`, 1 to 2^32 - 1 bytes (R10). -/
def capKey : Nat := capKeyOffset.val + 1

/-- `CAP_IN`, 8 to 2^32 - 9 bytes (R10). -/
def capIn : Nat := capInOffset.val + 8

/-- `CAP_OUT = CAP_IN + 8` bytes (R10). -/
def capOut : Nat := capIn + 8

/-- `CAP_RK`, 8 to 2^32 - 1 entries (R10). -/
def capRk : Nat := capRkOffset.val + 8

/-- `n ≤ cap`, written so that it evaluates on a number that is at most the capacity's lower bound `low`
(`Config.atMost_iff` says that it is `n ≤ cap`). -/
def atMost (low cap n : Nat) : Bool := decide (n ≤ low) || decide (n ≤ cap)

/-- `a < cap`, in the same manner (`Config.under_iff`). -/
def under (low cap a : Nat) : Bool := decide (a < low) || decide (a < cap)

/-- Does a key of `n` bytes fit KEY (R67)? -/
def fitsKey (n : Nat) : Bool := atMost 1 capKey n

/-- Does an operand of `n` bytes fit IN (R67)? -/
def fitsIn (n : Nat) : Bool := atMost 8 capIn n

/-- Do `n` round keys fit RK (R67)? -/
def fitsRk (n : Nat) : Bool := atMost 8 capRk n

/-- Is `a` an address of the buffer (R60, R63)? -/
def hasAddress : Machine.Buffer → Nat → Bool
  | .key, a => under 1 capKey a
  | .inp, a => under 8 capIn a
  | .out, a => under 16 capOut a

/-- Is `i` an index of the round-key store (R22, R43)? -/
def hasEntry (i : Nat) : Bool := under 8 capRk i

/-- The byte at address `a` of a buffer whose content there is unspecified, for the draw numbered `gen` of that buffer
(U3, U5, U14): the same on every read until it is written or drawn again. -/
opaque freeByte : Machine.Buffer → (gen : Nat) → (a : Nat) → Byte

/-- The round-key entry at index `i` whose content is unspecified, for the draw numbered `gen` of the store (U4, U6). -/
opaque freeEntry : (gen : Nat) → (i : Nat) → Word

/-- The value of the `n`-th draw for a host read of a register whose value is unspecified (U2, R65). -/
opaque freeReadWord : (n : Nat) → Word

/-- The value of the `n`-th draw for a host read of an OUT byte while BUSY = 1 (U2, R65). -/
opaque freeReadByte : (n : Nat) → Byte

/-- What the working pair `L`, `R` holds after the completion that makes the `n`-th draw (R21, U7). -/
opaque freePair : (n : Nat) → Word × Word

/-- What the sequencer registers hold after the completion that makes the `n`-th draw (R44, U7). -/
opaque freeSequencer : (n : Nat) → Machine.Sequencer

end Config

end Sys2Proof
end

