-- ==== Sys2Proof/Syntax.lean ====
section
/-! DEFINITION. The command set (spec 00_scope.md rule R3, 30_encoding.md rule R92): one constructor per row of
spec/opcode_table.json. A command word carries no operand (R91, R93), so no constructor has an argument. -/

namespace Sys2Proof

/-- The eight commands of "FCE command set, revision 1" (R3). -/
inductive Instr where
  /-- ENCRYPT, opcode 0x1 (44_engine.md R207). -/
  | encrypt
  /-- DECRYPT, opcode 0x2 (44_engine.md R211). -/
  | decrypt
  /-- DERIVE, opcode 0x3 (40_key_schedule.md R128). -/
  | derive
  /-- ENCBLK, opcode 0x4 (42_feistel_core.md R163). -/
  | encblk
  /-- DECBLK, opcode 0x5 (42_feistel_core.md R164). -/
  | decblk
  /-- PAD, opcode 0x6 (43_padding.md R184). -/
  | pad
  /-- UNPAD, opcode 0x7 (43_padding.md R187). -/
  | unpad
  /-- MIX, opcode 0x8 (41_round_function.md R145). -/
  | mix
  deriving DecidableEq, Repr

end Sys2Proof
end

