-- ==== Sys2Proof/WellFormed.lean ====
section
/-! DEFINITION. Which terms are instructions and host accesses of this hardware (spec 30_encoding.md R93;
20_memory.md R63, 93_implementation_defined.md U11). -/

namespace Sys2Proof

/-- A command carries no register number, no immediate and no mode (R91, R93): there is nothing to check, so every
term of `Instr` is well formed. -/
def Instr.wellFormed : Instr → Bool
  | .encrypt => true
  | .decrypt => true
  | .derive => true
  | .encblk => true
  | .decblk => true
  | .pad => true
  | .unpad => true
  | .mix => true

/-- A host access exists when a buffer address lies below the buffer's capacity (R63). Every 32-bit REG access exists,
at a reserved or misaligned offset too (R25, R71). -/
def Machine.Access.wellFormed : Machine.Access → Bool
  | .readReg _ => true
  | .writeReg _ _ => true
  | .readBuf b a => Config.hasAddress b a
  | .writeBuf b a _ => Config.hasAddress b a

end Sys2Proof
end

