-- ==== Sys2Proof/Decode.lean ====
section
/-! DEFINITION. The decoder and the encoder of the one command format CMD32 (spec 30_encoding.md rules R90 to R96). A
command word is a number written to REG.CMD; the engine exposes no byte order there (20_memory.md R70), so both work on
words. -/

namespace Sys2Proof

/-- Why a command word is illegal (R95): a nonzero field ZERO, or a reserved OPCODE. -/
inductive DecodeReject where
  | zeroField
  | reservedOpcode
  deriving DecidableEq, Repr

/-- One row of the opcode map (R92): a word decodes to `instr` when `word AND mask = match`. -/
structure OpcodeRow where
  matchBits : Word
  maskBits : Word
  instr : Instr
  deriving DecidableEq, Repr

/-- The opcode map (R92, spec/opcode_table.json). -/
def opcodeTable : List OpcodeRow :=
  [ ⟨0x00000001#32, 0xFFFFFFFF#32, .encrypt⟩,
    ⟨0x00000002#32, 0xFFFFFFFF#32, .decrypt⟩,
    ⟨0x00000003#32, 0xFFFFFFFF#32, .derive⟩,
    ⟨0x00000004#32, 0xFFFFFFFF#32, .encblk⟩,
    ⟨0x00000005#32, 0xFFFFFFFF#32, .decblk⟩,
    ⟨0x00000006#32, 0xFFFFFFFF#32, .pad⟩,
    ⟨0x00000007#32, 0xFFFFFFFF#32, .unpad⟩,
    ⟨0x00000008#32, 0xFFFFFFFF#32, .mix⟩ ]

/-- Field OPCODE, bits [3:0] (R91). -/
def opcodeField (w : Word) : BitVec 4 := w.extractLsb' 0 4

/-- Field ZERO, bits [31:4] (R91). -/
def zeroField (w : Word) : BitVec 28 := w.extractLsb' 4 28

/-- The decoder (R92, R95, R202): total, and every other word is rejected by name. -/
def decode (w : Word) : Except DecodeReject Instr :=
  if zeroField w = 0#28 then
    match opcodeTable.find? (fun row => decide (w &&& row.maskBits = row.matchBits)) with
    | some row => .ok row.instr
    | none => .error .reservedOpcode
  else .error .zeroField

/-- The OPCODE of a command (R92). -/
def opcodeOf : Instr → BitVec 4
  | .encrypt => 0x1#4
  | .decrypt => 0x2#4
  | .derive => 0x3#4
  | .encblk => 0x4#4
  | .decblk => 0x5#4
  | .pad => 0x6#4
  | .unpad => 0x7#4
  | .mix => 0x8#4

/-- The encoder (R91): OPCODE in bits [3:0], field ZERO all zero. -/
def encode (i : Instr) : Word := 0#28 ++ opcodeOf i

/-- The instruction the decoder reads from an instruction of `nbits` bits whose value is `w`, the bits above `nbits`
being zero; `none` where the decoder refuses it, or where more bits are given than a command has (R90: one 32-bit
word, no longer form). -/
def decodeTableWord (nbits w : Nat) : Option Instr :=
  if nbits ≤ 32 then
    match decode (BitVec.ofNat 32 (w % 2 ^ nbits)) with
    | .ok i => some i
    | .error _ => none
  else none

end Sys2Proof
end

