-- ==== Sys2Proof/Machine/Bytes.lean ====
section
/-! DEFINITION. Byte sequences and the big-endian conversions (spec 00_scope.md R12; 20_memory.md R68, R69). -/

namespace Sys2Proof.Machine

/-- `be32(w)`: the four bytes of `w`, most significant first (R12). -/
def be32 (w : Word) : List Byte :=
  [w.extractLsb' 24 8, w.extractLsb' 16 8, w.extractLsb' 8 8, w.extractLsb' 0 8]

/-- `from_be32(b)`: `b[0]·2^24 + b[1]·2^16 + b[2]·2^8 + b[3]` (R12), that is the four bytes one after the other, the first
most significant (`fromBe32_toNat` says so in numbers); used on four-byte sequences only. -/
def fromBe32 (b : List Byte) : Word := b.getD 0 0 ++ b.getD 1 0 ++ b.getD 2 0 ++ b.getD 3 0

/-- `s[i..j)` (R12). -/
def slice {α : Type} (s : List α) (i j : Nat) : List α := (s.drop i).take (j - i)

end Sys2Proof.Machine
end

