-- ==== Sys2Proof/Machine/State.lean ====
section
/-! DEFINITION. The machine's state (spec 10_state.md R20 to R50), the reasons a step can stop, and the state after
reset. -/

namespace Sys2Proof.Machine

/-- An addressed store as plain data: the locations whose content the rules fix, addresses strictly rising, and the
number of the draw that fixes every other location's unspecified content (R66, D29, U3 to U6; notes/assumptions 3).
A byte buffer's `cells` is a list of `Host.Cell`. -/
structure Store (α : Type) where
  cells : List (Nat × α)
  gen : Nat
  deriving DecidableEq, Repr

/-- A byte buffer (R23, R60). -/
abbrev Memory := Store Byte

/-- Why a step stops with a fault. -/
inductive Fault where
  /-- Raised by a single micro-step (Machine/Sequencer.lean) when the sequencer registers stand where the canonical
  sequence of R221 to R228 never brings the running command, so that no rule gives a next micro-step. Safe: no run from
  a START reaches it, and the whole command (`exec`) never raises it. -/
  | offSequence
  deriving DecidableEq, Repr

/-- Why a step has no meaning. -/
inductive Refusal where
  /-- An instruction that has no meaning in the model yet; no arm of `exec` uses it. Safe. -/
  | notModelled (mnemonic : String)
  /-- A command accepted, or run, with a length operand above its capacity (R67, U1): the spec gives it no meaning and
  says that a model refuses it. Raised by the accepted CMD write, by every meaning and by a micro-step. Safe. -/
  | outsideDomain
  /-- A buffer access at or above the buffer's capacity (R63, U11): no such storage exists and the spec says that a
  model refuses it. Raised by the host's buffer accesses. Safe. -/
  | outsideInterface
  deriving DecidableEq, Repr

/-- Everything the spec gives the machine (R20), then four fields of the model's own. -/
structure State where
  /-- REG.CMD, the word of the most recently accepted command (R30). -/
  cmd : Word
  /-- PHASE, and STATUS.BUSY, which is 1 exactly when it is RUN (R33, R44). -/
  phase : Phase
  /-- STATUS.DONE (R34). -/
  done : Bool
  /-- STATUS.ERR (R35). -/
  err : Bool
  /-- REG.ERR_CODE.CODE (R36). -/
  errCode : BitVec 4
  /-- REG.CTRL.IE (R37). -/
  ie : Bool
  /-- REG.ROUNDS (R38). -/
  rounds : Word
  /-- REG.KEY_LEN (R39). -/
  keyLen : Word
  /-- REG.IN_LEN (R40). -/
  inLen : Word
  /-- REG.OUT_LEN (R41). -/
  outLen : Word
  /-- REG.RK_LEN (R42). -/
  rkLen : Word
  /-- REG.RK_IDX (R43). -/
  rkIdx : Word
  /-- REG.MIX_A (R45). -/
  mixA : Word
  /-- REG.MIX_K (R45). -/
  mixK : Word
  /-- REG.MIX_Y (R45). -/
  mixY : Word
  /-- `L` of the working pair (R21). -/
  l : Word
  /-- `R` of the working pair (R21). -/
  r : Word
  /-- RK, the round-key store (R22). -/
  rk : Store Word
  /-- The KEY buffer (R23). -/
  key : Memory
  /-- The IN buffer (R23). -/
  inp : Memory
  /-- The OUT buffer (R23). -/
  out : Memory
  /-- SUB, CTR, NW, BLK, RND, DIG (R44). -/
  seq : Sequencer
  /-- Model's own: what the host, the engine's progress and the platform do next, first to last (R7, R77). -/
  inputs : List Event
  /-- Model's own: the value the last host read delivered (R61, R63). -/
  bus : Option BusData
  /-- Model's own: the number of the next free draw (notes/assumptions 1). -/
  draws : Nat
  deriving DecidableEq, Repr

/-- An addressed store nothing of whose content is specified, in its draw `gen`. -/
def Store.unspecified {α : Type} (gen : Nat) : Store α := ⟨[], gen⟩

/-- The state after reset (R50, R280). `L`, `R` and the sequencer registers, which the spec leaves unspecified, hold zero
(S_CHECK) by notes/assumptions 5; the stores hold their draw 0. -/
def State.reset : State where
  cmd := 0
  phase := .idle
  done := false
  err := false
  errCode := 0
  ie := false
  rounds := 8
  keyLen := 0
  inLen := 0
  outLen := 0
  rkLen := 0
  rkIdx := 0
  mixA := 0
  mixK := 0
  mixY := 0
  l := 0
  r := 0
  rk := Store.unspecified 0
  key := Store.unspecified 0
  inp := Store.unspecified 0
  out := Store.unspecified 0
  seq := ⟨.sCheck, 0, 0, 0, 0, Vector.replicate 32 0⟩
  inputs := []
  bus := none
  draws := 1

end Sys2Proof.Machine
end

