-- ==== Sys2Proof/Machine/Flags.lean ====
section
/-! DEFINITION. The flags and the words they are read as (spec 10_state.md R32 to R37; 60_exceptions.md R240, R260).
No command reads a flag and the arithmetic sets none (R32, R141): a command's only flags are STATUS and ERR_CODE, which
its start and its completion write (Machine/Ops.lean). -/

namespace Sys2Proof.Machine

/-- The code of an error kind (R240); 0 stands for no error. -/
def ErrorKind.code : ErrorKind → BitVec 4
  | .emptyKey => 1
  | .invalidRounds => 2
  | .invalidBlockLength => 3
  | .invalidCiphertextLength => 4
  | .invalidPaddingInputLength => 5
  | .invalidPaddingLength => 6
  | .invalidPaddingBytes => 7
  | .illegalCommand => 8

/-- A flag as one bit. -/
def bit (b : Bool) : BitVec 1 := BitVec.ofBool b

/-- STATUS.BUSY, 1 exactly when PHASE = RUN (R33). -/
def State.busy (s : State) : Bool := decide (s.phase = .run)

/-- REG.STATUS as the host reads it: BUSY at bit 0, DONE at bit 1, ERR at bit 2, the rest zero (R24, R32). -/
def State.statusWord (s : State) : Word := 0#29 ++ bit s.err ++ bit s.done ++ bit s.busy

/-- REG.ERR_CODE as the host reads it: CODE in bits [3:0], the rest zero (R24, R36). -/
def State.errCodeWord (s : State) : Word := 0#28 ++ s.errCode

/-- REG.CTRL as the host reads it: IE at bit 0, the rest zero (R24, R37). -/
def State.ctrlWord (s : State) : Word := 0#31 ++ bit s.ie

/-- The interrupt output, `irq = CTRL.IE AND STATUS.DONE`, a level (R37, R260). -/
def State.irq (s : State) : Bool := s.ie && s.done

end Sys2Proof.Machine
end

