-- ==== Sys2Proof/Machine/Ops.lean ====
section
/-! DEFINITION. The named operations over the stores and the registers: reads and writes of the buffers and of the
round-key store, the start of a command, its completion with success, its completion with an error (the machine's way
of taking an exception) and the acknowledgement (spec 00_scope.md R14; 20_memory.md R63, R66; 44_engine.md R201, R204;
60_exceptions.md R250, R255). -/

namespace Sys2Proof.Machine

/-- The value listed at address `a`, if the rules fix one. -/
def Cells.lookup {α : Type} : List (Nat × α) → Nat → Option α
  | [], _ => none
  | (b, v) :: rest, a => if a = b then some v else Cells.lookup rest a

/-- Write `v` at `a`, keeping the addresses strictly rising. -/
def Cells.write {α : Type} : List (Nat × α) → Nat → α → List (Nat × α)
  | [], a, v => [(a, v)]
  | (b, w) :: rest, a, v =>
    if a < b then (a, v) :: (b, w) :: rest
    else if a = b then (a, v) :: rest
    else (b, w) :: Cells.write rest a v

/-- `MemWrite(S, a, n, v)`: write a sequence, its first item at address `a` (R14). -/
def Cells.writeSeq {α : Type} : List (Nat × α) → Nat → List α → List (Nat × α)
  | cells, _, [] => cells
  | cells, a, v :: rest => Cells.writeSeq (Cells.write cells a v) (a + 1) rest

/-- The cells at addresses below `n`: what stays specified when everything from `n` up becomes unspecified. -/
def Cells.keepBelow {α : Type} (cells : List (Nat × α)) (n : Nat) : List (Nat × α) :=
  cells.filter (fun c => decide (c.1 < n))

/-- The canonical form: addresses strictly rising. -/
def Cells.wf {α : Type} (cells : List (Nat × α)) : Bool :=
  decide ((cells.map Prod.fst).Pairwise (· < ·))

/-- The canonical form of a store: its cells' addresses rise strictly. An unlisted location has no value the rules fix,
so no listed cell is equal to what it reads as, and stores with the same specified content have the same cells. -/
def Store.wf {α : Type} (m : Store α) : Bool := Cells.wf m.cells

/-- The canonical form of a byte buffer. -/
abbrev Memory.wf (m : Memory) : Bool := Store.wf m

/-- The content of a location: the specified one where it is listed, else the free value of the store's draw. -/
def Store.read {α : Type} (free : Nat → Nat → α) (m : Store α) (a : Nat) : α :=
  (Cells.lookup m.cells a).getD (free m.gen a)

/-- Store `v` at `a`. -/
def Store.write {α : Type} (m : Store α) (a : Nat) (v : α) : Store α :=
  { m with cells := Cells.write m.cells a v }

/-- Store a sequence from `a` up. -/
def Store.writeSeq {α : Type} (m : Store α) (a : Nat) (vs : List α) : Store α :=
  { m with cells := Cells.writeSeq m.cells a vs }

/-- Every location from `n` up becomes unspecified, its content drawn afresh under the number `gen` (R66, U5, U6). -/
def Store.forgetFrom {α : Type} (m : Store α) (n gen : Nat) : Store α :=
  { cells := Cells.keepBelow m.cells n, gen := gen }

/-- The byte at address `a` of KEY. -/
def State.readKey (s : State) (a : Nat) : Byte := s.key.read (Config.freeByte .key) a

/-- The byte at address `a` of IN. -/
def State.readIn (s : State) (a : Nat) : Byte := s.inp.read (Config.freeByte .inp) a

/-- The byte at address `a` of OUT. -/
def State.readOut (s : State) (a : Nat) : Byte := s.out.read (Config.freeByte .out) a

/-- The byte at address `a` of a buffer. -/
def State.readByte (s : State) : Buffer → Nat → Byte
  | .key, a => s.readKey a
  | .inp, a => s.readIn a
  | .out, a => s.readOut a

/-- Entry `i` of the round-key store (R22). -/
def State.readRk (s : State) (i : Nat) : Word := s.rk.read Config.freeEntry i

/-- `MemRead(KEY, a, n)` (R14). -/
def State.memReadKey (s : State) (a n : Nat) : List Byte := (List.range n).map (fun j => s.readKey (a + j))

/-- `MemRead(IN, a, n)` (R14). -/
def State.memReadIn (s : State) (a n : Nat) : List Byte := (List.range n).map (fun j => s.readIn (a + j))

/-- `MemRead(OUT, a, n)` (R14). -/
def State.memReadOut (s : State) (a n : Nat) : List Byte := (List.range n).map (fun j => s.readOut (a + j))

/-- `MemWrite(OUT, a, len(v), v)` (R14): only the engine writes OUT (R23). -/
def State.memWriteOut (s : State) (a : Nat) (v : List Byte) : State := { s with out := s.out.writeSeq a v }

/-- `RK[i] <- v[0]`, `RK[i+1] <- v[1]`, ... -/
def State.writeRk (s : State) (i : Nat) (v : List Word) : State := { s with rk := s.rk.writeSeq i v }

/-- `REG.OUT_LEN <- n` (R41). -/
def State.setOutLen (s : State) (n : Nat) : State := { s with outLen := BitVec.ofNat 32 n }

/-- A command's result in OUT: `MemWrite(OUT, 0, len(v), v)`; `REG.OUT_LEN <- len(v)` (R41, R72). -/
def State.putResult (s : State) (v : List Byte) : State := (s.memWriteOut 0 v).setOutLen v.length

/-- A deriving command's round keys: `RK[i] <- K[i]`; `REG.RK_LEN <- REG.ROUNDS` (R42, R208). -/
def State.putRoundKeys (s : State) (k : List Word) : State := { s.writeRk 0 k with rkLen := s.rounds }

/-- The start of the accepted command word `v` (R201). -/
def State.start (s : State) (v : Word) : State :=
  { s with
    cmd := v
    phase := .run
    done := false
    err := false
    errCode := 0
    seq := { s.seq with sub := .sCheck } }

/-- The successful completion (R204): STATUS, ERR_CODE and PHASE; OUT bytes at and above OUT_LEN become unspecified
(R66); after a deriving command so do the RK entries at and above RK_LEN (R72); the sequencer registers, and the working
pair unless the command is MIX (R145), are left unspecified (R21, R44; notes/assumptions 4). -/
def State.endCommand (s : State) (deriving_ keepsPair : Bool) : State :=
  { s with
    phase := .idle
    done := true
    err := false
    errCode := 0
    out := s.out.forgetFrom s.outLen.toNat s.draws
    rk := if deriving_ then s.rk.forgetFrom s.rkLen.toNat s.draws else s.rk
    l := if keepsPair then s.l else (Config.freePair s.draws).1
    r := if keepsPair then s.r else (Config.freePair s.draws).2
    seq := Config.freeSequencer s.draws
    draws := s.draws + 1 }

/-- The completion with error kind `k` (R250), the one way an error is taken: ERR_CODE and ERR record the kind, OUT_LEN
is 0 and every OUT byte unspecified, a deriving command also leaves RK_LEN = 0 and every RK entry unspecified, BUSY
falls and DONE rises; nothing else of the state changes but the internal registers, left unspecified. -/
def State.failCommand (s : State) (deriving_ : Bool) (k : ErrorKind) : State :=
  { s with
    phase := .idle
    done := true
    err := true
    errCode := k.code
    outLen := 0
    out := s.out.forgetFrom 0 s.draws
    rkLen := if deriving_ then 0 else s.rkLen
    rk := if deriving_ then s.rk.forgetFrom 0 s.draws else s.rk
    l := (Config.freePair s.draws).1
    r := (Config.freePair s.draws).2
    seq := Config.freeSequencer s.draws
    draws := s.draws + 1 }

/-- The acknowledgement of a completion: the W1C write to STATUS clears DONE and nothing else (R34, R255). There is no
return from an error: ERR and ERR_CODE stand until the next start clears them. -/
def State.acknowledge (s : State) : State := { s with done := false }

/-- The reset the platform applies (R280 to R282): the values of R50; the content of the stores and of the internal
registers is unspecified, drawn afresh (U7, U14). What is still to come from outside comes after it. -/
def State.applyReset (s : State) : State :=
  { State.reset with
    l := (Config.freePair s.draws).1
    r := (Config.freePair s.draws).2
    seq := Config.freeSequencer s.draws
    rk := Store.unspecified s.draws
    key := Store.unspecified s.draws
    inp := Store.unspecified s.draws
    out := Store.unspecified s.draws
    inputs := s.inputs
    draws := s.draws + 1 }

end Sys2Proof.Machine
end

