-- ==== Sys2Proof/Machine/Operands.lean ====
section
/-! DEFINITION. Where each command finds its operands, the specified domain, and the frame every command shares (spec
30_encoding.md R93; 20_memory.md R67, R72; 44_engine.md R202 to R205). -/

namespace Sys2Proof.Machine

/-- `IN[0 .. REG.IN_LEN)`: plaintext, ciphertext, block or data (R93). -/
def State.inOperand (s : State) : List Byte := s.memReadIn 0 s.inLen.toNat

/-- `KEY[0 .. REG.KEY_LEN)`: the MasterKey (R93). -/
def State.keyOperand (s : State) : List Byte := s.memReadKey 0 s.keyLen.toNat

/-- `RK[0 .. REG.RK_LEN)`: the round keys of ENCBLK and DECBLK, and DERIVE's result (R93). -/
def State.rkOperand (s : State) : List Word := (List.range s.rkLen.toNat).map s.readRk

/-- `OUT[0 .. REG.OUT_LEN)`: the result (R93). -/
def State.outOperand (s : State) : List Byte := s.memReadOut 0 s.outLen.toNat

/-- Does the command derive round keys? It then reads KEY, KEY_LEN and ROUNDS, and writes RK and RK_LEN (R72). -/
def derivesKeys : Instr → Bool
  | .encrypt => true
  | .decrypt => true
  | .derive => true
  | .encblk => false
  | .decblk => false
  | .pad => false
  | .unpad => false
  | .mix => false

/-- Does the command read IN (R67, R72)? -/
def readsIn : Instr → Bool
  | .encrypt => true
  | .decrypt => true
  | .derive => false
  | .encblk => true
  | .decblk => true
  | .pad => true
  | .unpad => true
  | .mix => false

/-- Does the command read the round-key store as given (R67, R72)? -/
def readsStore : Instr → Bool
  | .encrypt => false
  | .decrypt => false
  | .derive => false
  | .encblk => true
  | .decblk => true
  | .pad => false
  | .unpad => false
  | .mix => false

/-- Does the command leave `L` and `R` as they are? R145 says so of MIX alone; R21 leaves them unspecified after the
others (notes/assumptions 4). -/
def keepsPair : Instr → Bool
  | .encrypt => false
  | .decrypt => false
  | .derive => false
  | .encblk => false
  | .decblk => false
  | .pad => false
  | .unpad => false
  | .mix => true

/-- The specified domain (R67): every length the command uses fits its storage. -/
def inDomain (i : Instr) (s : State) : Bool :=
  (!derivesKeys i || (Config.fitsKey s.keyLen.toNat && Config.fitsRk s.rounds.toNat)) &&
  (!readsIn i || Config.fitsIn s.inLen.toNat) &&
  (!readsStore i || Config.fitsRk s.rkLen.toNat)

/-- The frame every command shares (R202, R204, R250): outside the specified domain it is refused (U1); inside, the
command's function either gives the state with its results written, which then completes with success, or raises a
kind, with which the command completes as failed on the state it started from. -/
def runCommand (i : Instr) (s : State) (result : Except ErrorKind State) : Host.Outcome State Fault Refusal :=
  if inDomain i s then
    match result with
    | .ok t => .next (t.endCommand (derivesKeys i) (keepsPair i))
    | .error k => .next (s.failCommand (derivesKeys i) k)
  else .refused .outsideDomain

end Sys2Proof.Machine
end

