-- ==== Sys2Proof/Machine/RoundFunction.lean ====
section
/-! DEFINITION. The round-function datapath and the MIX command (spec 41_round_function.md). -/

namespace Sys2Proof.Machine

/-- `add32(a, b)` (R141). -/
def add32 (a b : Word) : Word := a + b

/-- `xor32(a, b)` (R141). -/
def xor32 (a b : Word) : Word := a ^^^ b

/-- `and32(a, b)` (R141). -/
def and32 (a b : Word) : Word := a &&& b

/-- `rotl32(a, s) = ((a · 2^s) mod 2^32) + (a div 2^(32 - s))`, 0 ≤ s ≤ 31 (R141). -/
def rotl32 (a : Word) (s : Nat) : Word := (a <<< s) + (a >>> (32 - s))

/-- `mul32(a, b)` (R141). -/
def mul32 (a b : Word) : Word := a * b

/-- `swap16(a)`: exchange `a[31:16]` and `a[15:0]` (R141). -/
def swap16 (a : Word) : Word := a.extractLsb' 0 16 ++ a.extractLsb' 16 16

/-- `Mix(half, k)` (R142). -/
def mix (p : Params) (half k : Word) : Word :=
  let t1 := add32 half k
  let t2 := xor32 t1 p.cXor
  let s := (and32 (xor32 k t2) 31).toNat
  let t3 := rotl32 t2 s
  let t4 := mul32 t3 p.cMul
  xor32 t4 (swap16 k)

/-- `REG.MIX_Y <- Mix(REG.MIX_A, REG.MIX_K)`; `REG.OUT_LEN <- 0` (R145). -/
def State.putMix (s : State) : State := { s with mixY := mix Config.params s.mixA s.mixK, outLen := 0 }

/-- MIX (R145): always inside the domain, cannot fail. -/
def execMix (s : State) : Host.Outcome State Fault Refusal :=
  runCommand .mix s (.ok s.putMix)

end Sys2Proof.Machine
end

