-- ==== Sys2Proof/Machine/KeySchedule.lean ====
section
/-! DEFINITION. The key-schedule hash expander and the DERIVE command (spec 40_key_schedule.md). -/

namespace Sys2Proof.Machine

/-- `Words(d)`: the digest's eight big-endian words, in order (R123, R99). -/
def digestWords (d : Digest) : List Word :=
  (List.range 8).map (fun j => fromBe32 (slice d.toList (4 * j) (4 * j + 4)))

/-- The hash message `key ‖ be32(c)` (R98, R122). -/
def hashMessage (key : List Byte) (c : Word) : List Byte := key ++ be32 c

/-- The loop of R124: while fewer than `rounds` words are collected, append the next digest's words and count up. Each
pass appends eight words, so `rounds` passes of fuel are enough. -/
def expandKey (h : List Byte → Digest) (key : List Byte) (rounds : Nat) : (fuel : Nat) → Word → List Word → List Word
  | 0, _, out => out
  | fuel + 1, c, out =>
    if out.length < rounds then
      expandKey h key rounds fuel (add32 c 1) (out ++ digestWords (h (hashMessage key c)))
    else out

/-- The words of the loop, truncated to exactly `rounds` (R124). -/
def roundKeyWords (p : Params) (key : List Byte) (rounds : Nat) : List Word :=
  (expandKey p.hash key rounds rounds 0 []).take rounds

/-- `DeriveRoundKeys(key, rounds)` (R121, R124). -/
def deriveRoundKeys (p : Params) (key : List Byte) (rounds : Nat) : Except ErrorKind (List Word) :=
  if key.length = 0 then .error .emptyKey
  else if rounds < 1 then .error .invalidRounds
  else .ok (roundKeyWords p key rounds)

/-- DERIVE (R128). -/
def execDerive (s : State) : Host.Outcome State Fault Refusal :=
  runCommand .derive s
    (match deriveRoundKeys Config.params s.keyOperand s.rounds.toNat with
     | .ok k => .ok ((s.putRoundKeys k).setOutLen 0)
     | .error e => .error e)

end Sys2Proof.Machine
end

