-- ==== Sys2Proof/Machine/FeistelCore.lean ====
section
/-! DEFINITION. The Feistel core and the ENCBLK and DECBLK commands (spec 42_feistel_core.md). The transitions take the
mixing function as an argument: R165 holds for every function in the place of `Mix`. -/

namespace Sys2Proof.Machine

/-- `Unpack(b)`: the halves (L, R) of an 8-byte block (R97, R156). -/
def unpack (b : List Byte) : Word × Word := (fromBe32 (slice b 0 4), fromBe32 (slice b 4 8))

/-- `Pack(L, R) = be32(L) ‖ be32(R)` (R156). -/
def pack (lr : Word × Word) : List Byte := be32 lr.1 ++ be32 lr.2

/-- ROUND with round key `k`: `(L, R) <- (R, L XOR f(R, k))` (R158). -/
def roundStep (f : Word → Word → Word) (lr : Word × Word) (k : Word) : Word × Word :=
  (lr.2, xor32 lr.1 (f lr.2 k))

/-- INV-ROUND with round key `k`: `(L, R) <- (R XOR f(L, k), L)` (R160). -/
def invRoundStep (f : Word → Word → Word) (lr : Word × Word) (k : Word) : Word × Word :=
  (xor32 lr.2 (f lr.1 k), lr.1)

/-- `EncryptBlock` over the mixing function `f` (R159). -/
def encryptBlockWith (f : Word → Word → Word) (block : List Byte) (k : List Word) (rounds : Nat) :
    Except ErrorKind (List Byte) :=
  if block.length ≠ 8 then .error .invalidBlockLength
  else if k.length ≠ rounds then .error .invalidBlockLength
  else .ok (pack (k.foldl (roundStep f) (unpack block)))

/-- `DecryptBlock` over the mixing function `f`: the same round keys, taken in reverse order (R161). -/
def decryptBlockWith (f : Word → Word → Word) (block : List Byte) (k : List Word) (rounds : Nat) :
    Except ErrorKind (List Byte) :=
  if block.length ≠ 8 then .error .invalidBlockLength
  else if k.length ≠ rounds then .error .invalidBlockLength
  else .ok (pack (k.reverse.foldl (invRoundStep f) (unpack block)))

/-- `EncryptBlock(block, K, rounds)` (R159). -/
def encryptBlock (p : Params) (block : List Byte) (k : List Word) (rounds : Nat) : Except ErrorKind (List Byte) :=
  encryptBlockWith (mix p) block k rounds

/-- `DecryptBlock(block, K, rounds)` (R161). -/
def decryptBlock (p : Params) (block : List Byte) (k : List Word) (rounds : Nat) : Except ErrorKind (List Byte) :=
  decryptBlockWith (mix p) block k rounds

/-- ENCBLK (R163). -/
def execEncblk (s : State) : Host.Outcome State Fault Refusal :=
  runCommand .encblk s
    (match encryptBlock Config.params s.inOperand s.rkOperand s.rounds.toNat with
     | .ok b => .ok (s.putResult b)
     | .error e => .error e)

/-- DECBLK (R164). -/
def execDecblk (s : State) : Host.Outcome State Fault Refusal :=
  runCommand .decblk s
    (match decryptBlock Config.params s.inOperand s.rkOperand s.rounds.toNat with
     | .ok b => .ok (s.putResult b)
     | .error e => .error e)

end Sys2Proof.Machine
end

