-- ==== Sys2Proof/Machine/Padding.lean ====
section
/-! DEFINITION. The block padding and unpadding controller and the PAD and UNPAD commands (spec 43_padding.md);
`block_size` is always 8 (30_encoding.md R94). -/

namespace Sys2Proof.Machine

/-- `n = 8 − (len mod 8)`, 1 to 8 (R181). -/
def padCount (len : Nat) : Nat := 8 - len % 8

/-- `Pad(data) = data ‖ rep(n, n)` (R181). -/
def pad (data : List Byte) : List Byte :=
  data ++ List.replicate (padCount data.length) (BitVec.ofNat 8 (padCount data.length))

/-- The last byte of a sequence as a number, `pad_len` (R185). -/
def lastByte (data : List Byte) : Nat := (data.getD (data.length - 1) 0).toNat

/-- The second and the third check of `Unpad`, giving `pad_len` when both pass (R185). -/
def checkPadding (data : List Byte) : Except ErrorKind Nat :=
  let n := lastByte data
  if n = 0 ∨ n > 8 then .error .invalidPaddingLength
  else if (data.drop (data.length - n)).any (fun b => decide (b.toNat ≠ n)) then .error .invalidPaddingBytes
  else .ok n

/-- `Unpad(data)` (R185). -/
def unpad (data : List Byte) : Except ErrorKind (List Byte) :=
  if data.length = 0 ∨ data.length % 8 ≠ 0 then .error .invalidPaddingInputLength
  else
    match checkPadding data with
    | .ok n => .ok (data.take (data.length - n))
    | .error e => .error e

/-- PAD (R184): cannot fail. -/
def execPad (s : State) : Host.Outcome State Fault Refusal :=
  runCommand .pad s (.ok (s.putResult (pad s.inOperand)))

/-- UNPAD (R187). -/
def execUnpad (s : State) : Host.Outcome State Fault Refusal :=
  runCommand .unpad s
    (match unpad s.inOperand with
     | .ok m => .ok (s.putResult m)
     | .error e => .error e)

end Sys2Proof.Machine
end

