-- ==== Sys2Proof/Machine/Engine.lean ====
section
/-! DEFINITION. The multi-block orchestrator and the ENCRYPT and DECRYPT commands (spec 44_engine.md R200 to R216). -/

namespace Sys2Proof.Machine

/-- Apply a block function to `nb` consecutive 8-byte blocks, each independently, and concatenate the results; the first
block that raises decides the kind (R206, R210). -/
def mapBlocks (f : List Byte → Except ErrorKind (List Byte)) : (nb : Nat) → List Byte → Except ErrorKind (List Byte)
  | 0, _ => .ok []
  | nb + 1, data =>
    match f (data.take 8) with
    | .error e => .error e
    | .ok b =>
      match mapBlocks f nb (data.drop 8) with
      | .error e => .error e
      | .ok rest => .ok (b ++ rest)

/-- `Encrypt(plaintext, key, rounds)` (R206). -/
def encrypt (p : Params) (plaintext key : List Byte) (rounds : Nat) : Except ErrorKind (List Byte) :=
  if rounds < 1 then .error .invalidRounds
  else
    match deriveRoundKeys p key rounds with
    | .error e => .error e
    | .ok k => mapBlocks (fun b => encryptBlock p b k rounds) ((pad plaintext).length / 8) (pad plaintext)

/-- `Decrypt(ciphertext, key, rounds)` (R210). -/
def decrypt (p : Params) (ciphertext key : List Byte) (rounds : Nat) : Except ErrorKind (List Byte) :=
  if rounds < 1 then .error .invalidRounds
  else if ciphertext.length = 0 ∨ ciphertext.length % 8 ≠ 0 then .error .invalidCiphertextLength
  else
    match deriveRoundKeys p key rounds with
    | .error e => .error e
    | .ok k =>
      match mapBlocks (fun b => decryptBlock p b k rounds) (ciphertext.length / 8) ciphertext with
      | .error e => .error e
      | .ok data => unpad data

/-- What ENCRYPT and DECRYPT write on success (R208, R212): the derived round keys, then the result `v`. -/
def State.putCipherResult (s : State) (v : List Byte) : State :=
  (s.putRoundKeys (roundKeyWords Config.params s.keyOperand s.rounds.toNat)).putResult v

/-- ENCRYPT (R207, R208). -/
def execEncrypt (s : State) : Host.Outcome State Fault Refusal :=
  runCommand .encrypt s
    (match encrypt Config.params s.inOperand s.keyOperand s.rounds.toNat with
     | .ok c => .ok (s.putCipherResult c)
     | .error e => .error e)

/-- DECRYPT (R211, R212). -/
def execDecrypt (s : State) : Host.Outcome State Fault Refusal :=
  runCommand .decrypt s
    (match decrypt Config.params s.inOperand s.keyOperand s.rounds.toNat with
     | .ok m => .ok (s.putCipherResult m)
     | .error e => .error e)

end Sys2Proof.Machine
end

