-- ==== Sys2Proof/Machine/Dispatch.lean ====
section
/-! DEFINITION. The meaning of every command: one arm per constructor (spec 44_engine.md R202, R205). -/

namespace Sys2Proof.Machine

/-- `Exec(state, v) -> state'` of R205 for a legal command word: the whole command, from its operands to its completion. -/
def exec (i : Instr) (s : State) : Host.Outcome State Fault Refusal :=
  match i with
  | .encrypt => Sys2Proof.Machine.execEncrypt s
  | .decrypt => Sys2Proof.Machine.execDecrypt s
  | .derive => Sys2Proof.Machine.execDerive s
  | .encblk => Sys2Proof.Machine.execEncblk s
  | .decblk => Sys2Proof.Machine.execDecblk s
  | .pad => Sys2Proof.Machine.execPad s
  | .unpad => Sys2Proof.Machine.execUnpad s
  | .mix => Sys2Proof.Machine.execMix s

end Sys2Proof.Machine
end

