-- ==== Sys2Proof/Machine/HostInterface.lean ====
section
/-! DEFINITION. The host's accesses to the registers and the buffers (spec 10_state.md R24 to R45; 20_memory.md R60 to
R66, R70, R71, R74), and the notation for host programs (30_encoding.md R104, R105). -/

namespace Sys2Proof.Machine

/-- The byte offset of a register inside REG (R24). -/
def Reg.offset : Reg → Nat
  | .cmd => 0x00
  | .status => 0x04
  | .errCode => 0x08
  | .ctrl => 0x0C
  | .rounds => 0x10
  | .keyLen => 0x14
  | .inLen => 0x18
  | .outLen => 0x1C
  | .rkLen => 0x20
  | .rkIdx => 0x24
  | .rkData => 0x28
  | .mixA => 0x2C
  | .mixK => 0x30
  | .mixY => 0x34

/-- The fourteen registers (R24). -/
def allRegs : List Reg :=
  [.cmd, .status, .errCode, .ctrl, .rounds, .keyLen, .inLen, .outLen, .rkLen, .rkIdx, .rkData, .mixA, .mixK, .mixY]

/-- The register at an offset; every other offset, misaligned ones among them, is reserved (R25, R71). -/
def regAt (off : Nat) : Option Reg := allRegs.find? (fun r => decide (r.offset = off))

/-- `REG.RK_DATA` as a read gives it: `RK[RK_IDX]` if `RK_IDX < CAP_RK` and 0 otherwise (R43). -/
def State.windowRead (s : State) : Word :=
  if Config.hasEntry s.rkIdx.toNat then s.readRk s.rkIdx.toNat else 0

/-- The value of each register (R24 to R45). -/
def State.regValue (s : State) : Reg → Word
  | .cmd => s.cmd
  | .status => s.statusWord
  | .errCode => s.errCodeWord
  | .ctrl => s.ctrlWord
  | .rounds => s.rounds
  | .keyLen => s.keyLen
  | .inLen => s.inLen
  | .outLen => s.outLen
  | .rkLen => s.rkLen
  | .rkIdx => s.rkIdx
  | .rkData => s.windowRead
  | .mixA => s.mixA
  | .mixK => s.mixK
  | .mixY => s.mixY

/-- The registers whose reads are unspecified while BUSY = 1 (R65, U2). -/
def Reg.hiddenWhileBusy : Reg → Bool
  | .outLen => true
  | .rkLen => true
  | .rkData => true
  | .mixY => true
  | .cmd => false
  | .status => false
  | .errCode => false
  | .ctrl => false
  | .rounds => false
  | .keyLen => false
  | .inLen => false
  | .rkIdx => false
  | .mixA => false
  | .mixK => false

/-- The buffers whose reads are unspecified while BUSY = 1 (R65, U2). -/
def Buffer.hiddenWhileBusy : Buffer → Bool
  | .out => true
  | .key => false
  | .inp => false

/-- A read delivers a value and has no other effect (R61). -/
def State.deliver (s : State) (d : BusData) : State := { s with bus := some d }

/-- A read of an unspecified value delivers a fresh draw, independent for each read (U2). -/
def State.deliverFree (s : State) (d : BusData) : State := { s with bus := some d, draws := s.draws + 1 }

/-- `HostRead(REG, off)` (R61, R65). -/
def hostReadReg (off : Nat) (s : State) : State :=
  match regAt off with
  | none => s.deliver (.word 0)
  | some r =>
    if s.busy && r.hiddenWhileBusy then s.deliverFree (.word (Config.freeReadWord s.draws))
    else s.deliver (.word (s.regValue r))

/-- `HostRead(S, a)` (R63, R65), `a` inside the buffer. -/
def hostReadBuf (b : Buffer) (a : Nat) (s : State) : State :=
  if s.busy && b.hiddenWhileBusy then s.deliverFree (.byte (Config.freeReadByte s.draws))
  else s.deliver (.byte (s.readByte b a))

/-- The write of a value to the RK window (R43). -/
def State.windowWrite (s : State) (v : Word) : State :=
  if Config.hasEntry s.rkIdx.toNat then { s with rk := s.rk.write s.rkIdx.toNat v } else s

/-- An accepted write to CMD starts a command (R31, R201); one outside the specified domain has no transition from the
accepted write (R67, U1). An illegal word starts too (R95). -/
def acceptCommand (v : Word) (s : State) : Host.Outcome State Fault Refusal :=
  match decode v with
  | .ok i => if inDomain i s then .next (s.start v) else .refused .outsideDomain
  | .error _ => .next (s.start v)

/-- The effect of a write to each register while BUSY = 0 (R62). -/
def writeRegIdle (r : Reg) (v : Word) (s : State) : Host.Outcome State Fault Refusal :=
  match r with
  | .cmd => acceptCommand v s
  | .status => .next (if v.getLsbD 1 then s.acknowledge else s)
  | .errCode => .next s
  | .ctrl => .next { s with ie := v.getLsbD 0 }
  | .rounds => .next { s with rounds := v }
  | .keyLen => .next { s with keyLen := v }
  | .inLen => .next { s with inLen := v }
  | .outLen => .next s
  | .rkLen => .next { s with rkLen := v }
  | .rkIdx => .next { s with rkIdx := v }
  | .rkData => .next (s.windowWrite v)
  | .mixA => .next { s with mixA := v }
  | .mixK => .next { s with mixK := v }
  | .mixY => .next s

/-- `HostWrite(REG, off, v)`: ignored while BUSY = 1 (R64) and at a reserved offset (R25). -/
def hostWriteReg (off : Nat) (v : Word) (s : State) : Host.Outcome State Fault Refusal :=
  if s.busy then .next s
  else
    match regAt off with
    | none => .next s
    | some r => writeRegIdle r v s

/-- `HostWrite(S, a, v)`, `a` inside the buffer: ignored while BUSY = 1 (R64); the host never writes OUT (R23, R63). -/
def hostWriteBuf (b : Buffer) (a : Nat) (v : Byte) (s : State) : State :=
  if s.busy then s
  else
    match b with
    | .key => { s with key := s.key.write a v }
    | .inp => { s with inp := s.inp.write a v }
    | .out => s

/-- One host access (R61 to R66); one that the interface does not have is refused (U11). -/
def hostAccess (x : Access) (s : State) : Host.Outcome State Fault Refusal :=
  if x.wellFormed then
    match x with
    | .readReg off => .next (hostReadReg off s)
    | .writeReg off v => hostWriteReg off v s
    | .readBuf b a => .next (hostReadBuf b a s)
    | .writeBuf b a v => .next (hostWriteBuf b a v s)
  else .refused .outsideInterface

/-! ## Host programs (R104, R105): each line and each pseudo-instruction as the events it stands for. -/

/-- `WR reg, value` (R104). -/
def wr (r : Reg) (v : Word) : List Event := [.access (.writeReg r.offset v)]

/-- `RD reg` (R104). -/
def rd (r : Reg) : List Event := [.access (.readReg r.offset)]

/-- `WRB buf, addr, bytes`: one byte write per byte, at increasing addresses (R104). -/
def wrb (b : Buffer) : (addr : Nat) → List Byte → List Event
  | _, [] => []
  | a, v :: rest => .access (.writeBuf b a v) :: wrb b (a + 1) rest

/-- `RDB buf, addr, n` (R104). -/
def rdb (b : Buffer) (addr n : Nat) : List Event := (List.range n).map (fun j => .access (.readBuf b (addr + j)))

/-- `START mnemonic` (R104). -/
def startOf (i : Instr) : List Event := wr .cmd (encode i)

/-- `WAIT` (R104, R291), as the schedule in which the engine completes before the STATUS read that ends the wait
(notes/assumptions 6). -/
def wait : List Event := .engineRun :: rd .status

/-- `CLR` (R104). -/
def clr : List Event := wr .status 0x00000002

/-- `SETKEY <key>` (R105). -/
def setKey (key : List Byte) : List Event := wrb .key 0 key ++ wr .keyLen (BitVec.ofNat 32 key.length)

/-- `SETIN <data>` (R105). -/
def setIn (data : List Byte) : List Event := wrb .inp 0 data ++ wr .inLen (BitVec.ofNat 32 data.length)

/-- The entry writes of `SETRK`, from index `i` up. -/
def setRkFrom : (i : Nat) → List Word → List Event
  | _, [] => []
  | i, k :: rest => wr .rkIdx (BitVec.ofNat 32 i) ++ wr .rkData k ++ setRkFrom (i + 1) rest

/-- `SETRK <k0, ..., k(m-1)>` (R105). -/
def setRk (k : List Word) : List Event := setRkFrom 0 k ++ wr .rkLen (BitVec.ofNat 32 k.length)

/-- `encrypt(<pt>, <key>, <rounds>)` (R105); the default argument is `rounds = 8`. -/
def callEncrypt (pt key : List Byte) (rounds : Word := 8) : List Event :=
  setKey key ++ setIn pt ++ wr .rounds rounds ++ startOf .encrypt ++ wait

/-- `decrypt(<ct>, <key>, <rounds>)` (R105); the default argument is `rounds = 8`. -/
def callDecrypt (ct key : List Byte) (rounds : Word := 8) : List Event :=
  setKey key ++ setIn ct ++ wr .rounds rounds ++ startOf .decrypt ++ wait

/-- `derive_round_keys(<key>, <rounds>)` (R105). -/
def callDerive (key : List Byte) (rounds : Word) : List Event :=
  setKey key ++ wr .rounds rounds ++ startOf .derive ++ wait

/-- `encrypt_block(<block>, <K>)` (R105). -/
def callEncblk (block : List Byte) (k : List Word) : List Event :=
  setRk k ++ wr .rounds (BitVec.ofNat 32 k.length) ++ setIn block ++ startOf .encblk ++ wait

/-- `decrypt_block(<block>, <K>)` (R105). -/
def callDecblk (block : List Byte) (k : List Word) : List Event :=
  setRk k ++ wr .rounds (BitVec.ofNat 32 k.length) ++ setIn block ++ startOf .decblk ++ wait

/-- `pad(<data>)` (R105). -/
def callPad (data : List Byte) : List Event := setIn data ++ startOf .pad ++ wait

/-- `unpad(<data>)` (R105). -/
def callUnpad (data : List Byte) : List Event := setIn data ++ startOf .unpad ++ wait

/-- `mix(<half>, <round_key>)` (R105). -/
def callMix (half k : Word) : List Event :=
  wr .mixA half ++ wr .mixK k ++ startOf .mix ++ wait ++ rd .mixY

end Sys2Proof.Machine
end

