-- ==== Sys2Proof/Machine/Sequencer.lean ====
section
/-! DEFINITION. The canonical micro-step sequence (spec 44_engine.md R220 to R230; 40_key_schedule.md R126;
42_feistel_core.md R157, R158, R160, R162): one micro-step of the running command per call. -/

namespace Sys2Proof.Machine

/-- The checks a command makes at S_CHECK, in order: the first that fails gives the kind (R221, R253). -/
def startCheck (i : Instr) (s : State) : Option ErrorKind :=
  match i with
  | .encrypt =>
    if s.rounds = 0 then some .invalidRounds
    else if s.keyLen = 0 then some .emptyKey
    else none
  | .decrypt =>
    if s.rounds = 0 then some .invalidRounds
    else if s.inLen.toNat = 0 ∨ s.inLen.toNat % 8 ≠ 0 then some .invalidCiphertextLength
    else if s.keyLen = 0 then some .emptyKey
    else none
  | .derive =>
    if s.keyLen = 0 then some .emptyKey
    else if s.rounds = 0 then some .invalidRounds
    else none
  | .encblk =>
    if s.inLen ≠ 8 then some .invalidBlockLength
    else if s.rkLen ≠ s.rounds then some .invalidBlockLength
    else none
  | .decblk =>
    if s.inLen ≠ 8 then some .invalidBlockLength
    else if s.rkLen ≠ s.rounds then some .invalidBlockLength
    else none
  | .pad => none
  | .unpad =>
    match unpad s.inOperand with
    | .ok _ => none
    | .error e => some e
  | .mix => none

/-- `SUB <- p`. -/
def State.goto (s : State) (p : Position) : State := { s with seq := { s.seq with sub := p } }

/-- `CTR <- 0`; `NW <- 0`; `SUB <- S_KS` (R221). -/
def State.enterKs (s : State) : State := { s with seq := { s.seq with ctr := 0, nw := 0, sub := .sKs } }

/-- `BLK <- 0`; `SUB <- S_LOAD` (R221, R222). -/
def State.enterBlocks (s : State) : State := { s with seq := { s.seq with blk := 0, sub := .sLoad } }

/-- Where a command goes from S_CHECK when no check fails (R221). -/
def afterCheck (i : Instr) (s : State) : State :=
  match i with
  | .encrypt => s.enterKs
  | .decrypt => s.enterKs
  | .derive => s.enterKs
  | .encblk => s.enterBlocks
  | .decblk => s.enterBlocks
  | .pad => s.goto .sCopy
  | .unpad => s.goto .sCopy
  | .mix => s.putMix.goto .sEnd

/-- Position S_CHECK (R221). -/
def stepCheck (i : Instr) (s : State) : Host.Outcome State Fault Refusal :=
  match startCheck i s with
  | some k => .next (s.failCommand (derivesKeys i) k)
  | none => .next (afterCheck i s)

/-- KS-STEP (R126): the next digest, its words into RK (those past `rounds` dropped), NW and CTR counted up. -/
def State.ksStep (s : State) : State :=
  let d := Config.params.hash (hashMessage s.keyOperand s.seq.ctr)
  let t := s.writeRk s.seq.nw ((digestWords d).take (s.rounds.toNat - s.seq.nw))
  { t with seq := { s.seq with dig := d, nw := s.seq.nw + 8, ctr := add32 s.seq.ctr 1 } }

/-- Position S_KS, DERIVE, ENCRYPT and DECRYPT only (R222). -/
def stepKs (i : Instr) (s : State) : Host.Outcome State Fault Refusal :=
  if derivesKeys i then
    if s.seq.nw < s.rounds.toNat then .next s.ksStep
    else if i = .derive then .next ((State.setOutLen { s with rkLen := s.rounds } 0).goto .sEnd)
    else .next (State.enterBlocks { s with rkLen := s.rounds })
  else .fault .offSequence

/-- `NB`, the number of blocks (R220); `none` for a command that has no block phase. -/
def blockCount (i : Instr) (s : State) : Option Nat :=
  match i with
  | .encrypt => some (s.inLen.toNat / 8 + 1)
  | .decrypt => some (s.inLen.toNat / 8)
  | .encblk => some 1
  | .decblk => some 1
  | .derive => none
  | .pad => none
  | .unpad => none
  | .mix => none

/-- `Src(b)`, the bytes of input block `b` (R220). For ENCRYPT the padding is produced on the fly. -/
def sourceBlock (i : Instr) (s : State) (b : Nat) : List Byte :=
  match i with
  | .encrypt => slice (pad s.inOperand) (8 * b) (8 * b + 8)
  | .decrypt => s.memReadIn (8 * b) 8
  | .encblk => s.memReadIn (8 * b) 8
  | .decblk => s.memReadIn (8 * b) 8
  | .derive => []
  | .pad => []
  | .unpad => []
  | .mix => []

/-- The direction and the number `n` of round keys (R220): `true` for ROUND, `false` for INV-ROUND. -/
def roundPlan (i : Instr) (s : State) : Option (Bool × Nat) :=
  match i with
  | .encrypt => some (true, s.rounds.toNat)
  | .decrypt => some (false, s.rounds.toNat)
  | .encblk => some (true, s.rkLen.toNat)
  | .decblk => some (false, s.rkLen.toNat)
  | .derive => none
  | .pad => none
  | .unpad => none
  | .mix => none

/-- BLK-LOAD (R157, R223): both halves overwritten, `RND <- 0`. -/
def State.loadBlock (s : State) (b : List Byte) : State :=
  { s with l := (unpack b).1, r := (unpack b).2, seq := { s.seq with rnd := 0, sub := .sRound } }

/-- Position S_LOAD (R223). -/
def stepLoad (i : Instr) (s : State) : Host.Outcome State Fault Refusal :=
  match blockCount i s with
  | none => .fault .offSequence
  | some nb =>
    if s.seq.blk < nb then .next (s.loadBlock (sourceBlock i s s.seq.blk))
    else if s.seq.blk = nb then
      if i = .decrypt then .next (s.goto .sUnpad)
      else .next ((s.setOutLen (8 * nb)).goto .sEnd)
    else .fault .offSequence

/-- ROUND or INV-ROUND on the working pair, then `RND <- RND + 1` (R158, R160). -/
def State.applyRound (s : State) (forward : Bool) (k : Word) : State :=
  let f := mix Config.params
  let lr := if forward then roundStep f (s.l, s.r) k else invRoundStep f (s.l, s.r) k
  { s with l := lr.1, r := lr.2, seq := { s.seq with rnd := s.seq.rnd + 1 } }

/-- Position S_ROUND (R224). -/
def stepRound (i : Instr) (s : State) : Host.Outcome State Fault Refusal :=
  match roundPlan i s with
  | none => .fault .offSequence
  | some (forward, n) =>
    if s.seq.rnd < n then
      .next (s.applyRound forward (s.readRk (if forward then s.seq.rnd else n - 1 - s.seq.rnd)))
    else if s.seq.rnd = n then .next (s.goto .sStore)
    else .fault .offSequence

/-- BLK-STORE (R162, R225): the pair as it stands into OUT at `8 · BLK`, `BLK <- BLK + 1`. -/
def State.storeBlock (s : State) : State :=
  let t := s.memWriteOut (8 * s.seq.blk) (pack (s.l, s.r))
  { t with seq := { s.seq with blk := s.seq.blk + 1, sub := .sLoad } }

/-- Position S_STORE (R225). -/
def stepStore (i : Instr) (s : State) : Host.Outcome State Fault Refusal :=
  match blockCount i s with
  | none => .fault .offSequence
  | some nb => if s.seq.blk < nb then .next s.storeBlock else .fault .offSequence

/-- Position S_UNPAD, DECRYPT only (R226). -/
def stepUnpad (i : Instr) (s : State) : Host.Outcome State Fault Refusal :=
  if i = .decrypt then
    match checkPadding (s.memReadOut 0 s.inLen.toNat) with
    | .ok n => .next ((s.setOutLen (s.inLen.toNat - n)).goto .sEnd)
    | .error k => .next (s.failCommand true k)
  else .fault .offSequence

/-- Position S_COPY, PAD and UNPAD only (R227). -/
def stepCopy (i : Instr) (s : State) : Host.Outcome State Fault Refusal :=
  match i with
  | .pad => .next ((s.putResult (pad s.inOperand)).goto .sEnd)
  | .unpad =>
    .next ((s.putResult (s.inOperand.take (s.inLen.toNat - lastByte s.inOperand))).goto .sEnd)
  | .encrypt => .fault .offSequence
  | .decrypt => .fault .offSequence
  | .derive => .fault .offSequence
  | .encblk => .fault .offSequence
  | .decblk => .fault .offSequence
  | .mix => .fault .offSequence

/-- One micro-step of the running command `i` at its control position (R220 to R228). -/
def microStepOf (i : Instr) (s : State) : Host.Outcome State Fault Refusal :=
  if inDomain i s then
    match s.seq.sub with
    | .sCheck => stepCheck i s
    | .sKs => stepKs i s
    | .sLoad => stepLoad i s
    | .sRound => stepRound i s
    | .sStore => stepStore i s
    | .sUnpad => stepUnpad i s
    | .sCopy => stepCopy i s
    | .sEnd => .next (s.endCommand (derivesKeys i) (keepsPair i))
  else .refused .outsideDomain

/-- One micro-step of the running engine: an illegal word ends at S_CHECK with IllegalCommand (R202, R221, R248). -/
def microStep (s : State) : Host.Outcome State Fault Refusal :=
  match decode s.cmd with
  | .ok i => microStepOf i s
  | .error _ =>
    match s.seq.sub with
    | .sCheck => .next (s.failCommand false .illegalCommand)
    | .sKs => .fault .offSequence
    | .sLoad => .fault .offSequence
    | .sRound => .fault .offSequence
    | .sStore => .fault .offSequence
    | .sUnpad => .fault .offSequence
    | .sCopy => .fault .offSequence
    | .sEnd => .fault .offSequence

end Sys2Proof.Machine
end

