-- ==== Sys2Proof/Machine/Cycle.lean ====
section
/-! DEFINITION. What one step does (spec 00_scope.md R7; 20_memory.md R77; 44_engine.md R202, R205, R230;
70_reset_and_hazards.md R280): the next event of the outside world is taken, and when none is waiting the engine goes on. -/

namespace Sys2Proof.Machine

/-- The engine carries the running command to its completion (R202, R205). An illegal word completes with
IllegalCommand (R95, R248). While PHASE = IDLE the engine has no enabled step and makes no access (R77, R230). -/
def engineRun (s : State) : Host.Outcome State Fault Refusal :=
  match s.phase with
  | .idle => .next s
  | .run =>
    match decode s.cmd with
    | .ok i => exec i s
    | .error _ => .next (s.failCommand false .illegalCommand)

/-- The engine takes one micro-step of the canonical sequence (R220). While PHASE = IDLE it has none (R230). -/
def engineStep (s : State) : Host.Outcome State Fault Refusal :=
  match s.phase with
  | .idle => .next s
  | .run => microStep s

/-- The effect of one event. -/
def handle (e : Event) (s : State) : Host.Outcome State Fault Refusal :=
  match e with
  | .access x => hostAccess x s
  | .engineStep => engineStep s
  | .engineRun => engineRun s
  | .reset => .next s.applyReset

/-- One step: the first waiting event; with none waiting, the running command goes on to its completion. -/
def cycle (s : State) : Host.Outcome State Fault Refusal :=
  match s.inputs with
  | [] => engineRun s
  | e :: rest => handle e { s with inputs := rest }

/-- The state in which the very next step runs the command word of `nbits` bits whose value is `w`: the word is
accepted and started (R201), and the engine moves next. -/
def placeCommand (s : State) (nbits w : Nat) : State :=
  { s.start (BitVec.ofNat 32 (w % 2 ^ nbits)) with inputs := .engineRun :: s.inputs }

/-- `k` micro-steps of the engine, stopping at the first stop; the idle engine stays as it is. -/
def microSteps : (k : Nat) → State → Host.Outcome State Fault Refusal
  | 0, s => .next s
  | k + 1, s =>
    match engineStep s with
    | .next t => microSteps k t
    | .fault e => .fault e
    | .refused e => .refused e

end Sys2Proof.Machine
end

