-- ==== Sys2Proof/Machine/Step.lean ====
section
/-! DEFINITION. The step of the machine, and placing a command where it runs next. -/

namespace Sys2Proof.Machine

/-- One step of the machine (Machine/Cycle.lean says what it does). -/
def step (s : State) : Host.Outcome State Fault Refusal := cycle s

/-- `s` with a command word placed so that the very next step runs it (notes/assumptions 7): the engine fetches
nothing, so the word goes where the accepted CMD write puts it. -/
def State.withFetchWord (s : State) (nbits w : Nat) : State := placeCommand s nbits w

end Sys2Proof.Machine
end

