-- ==== Sys2Proof/Safety.lean ====
section
/-! DEFINITION. The terms the claims are stated in: the outcomes of a command (spec 00_scope.md R17; 10_state.md R32 to
R36), what every command leaves alone (20_memory.md R72), the invariant every step keeps (10_state.md R32, R36, R41;
20_memory.md R60, R67; 60_exceptions.md R240, R250), and the positions a running command stands in (10_state.md R44;
44_engine.md R221 to R228). -/

namespace Sys2Proof.Machine

/-- Completed with success: (BUSY, DONE, ERR) = (0, 1, 0) and ERR_CODE = 0 (R32, R204). -/
structure State.Succeeded (t : State) : Prop where
  phase : t.phase = .idle
  done : t.done = true
  err : t.err = false
  errCode : t.errCode = 0

/-- Completed with the error kind `k`: (BUSY, DONE, ERR) = (0, 1, 1), the kind's code in ERR_CODE, OUT_LEN = 0 and no
OUT byte specified (R32, R250). -/
structure State.FailedWith (k : ErrorKind) (t : State) : Prop where
  phase : t.phase = .idle
  done : t.done = true
  err : t.err = true
  errCode : t.errCode = k.code
  outLen : t.outLen = 0
  out : ∀ a, Cells.lookup t.out.cells a = none

/-- What no command changes: CMD, CTRL, ROUNDS, KEY_LEN, IN_LEN, RK_IDX, MIX_A, MIX_K, and every byte of KEY and IN
(R72). -/
structure HostStateKept (s t : State) : Prop where
  cmd : t.cmd = s.cmd
  ie : t.ie = s.ie
  rounds : t.rounds = s.rounds
  keyLen : t.keyLen = s.keyLen
  inLen : t.inLen = s.inLen
  rkIdx : t.rkIdx = s.rkIdx
  mixA : t.mixA = s.mixA
  mixK : t.mixK = s.mixK
  key : ∀ a, t.readKey a = s.readKey a
  inp : ∀ a, t.readIn a = s.readIn a

/-- RK_LEN and every round-key entry are unchanged (R72). -/
structure RoundKeysKept (s t : State) : Prop where
  rkLen : t.rkLen = s.rkLen
  rk : ∀ i, t.readRk i = s.readRk i

/-- The operands command `i` reads are the same in both states (R72, R93). -/
structure SameOperands (i : Instr) (s t : State) : Prop where
  keyLen : derivesKeys i = true → t.keyLen = s.keyLen
  key : derivesKeys i = true → t.keyOperand = s.keyOperand
  rounds : derivesKeys i = true ∨ readsStore i = true → t.rounds = s.rounds
  inLen : readsIn i = true → t.inLen = s.inLen
  inp : readsIn i = true → t.inOperand = s.inOperand
  rkLen : readsStore i = true → t.rkLen = s.rkLen
  rk : readsStore i = true → t.rkOperand = s.rkOperand
  mixA : i = .mix → t.mixA = s.mixA
  mixK : i = .mix → t.mixK = s.mixK

/-- Command `i`'s function raises the kind `k` on the operands as they stand (R15, R16, R202). PAD's and MIX's raise
nothing. -/
def Raises (i : Instr) (k : ErrorKind) (s : State) : Prop :=
  match i with
  | .encrypt => encrypt Config.params s.inOperand s.keyOperand s.rounds.toNat = .error k
  | .decrypt => decrypt Config.params s.inOperand s.keyOperand s.rounds.toNat = .error k
  | .derive => deriveRoundKeys Config.params s.keyOperand s.rounds.toNat = .error k
  | .encblk => encryptBlock Config.params s.inOperand s.rkOperand s.rounds.toNat = .error k
  | .decblk => decryptBlock Config.params s.inOperand s.rkOperand s.rounds.toNat = .error k
  | .pad => False
  | .unpad => unpad s.inOperand = .error k
  | .mix => False

/-- The number of micro-steps R230 bounds a command by: `1 + (ceil(rounds / 8) + 1) + NB · (n + 3) + 3`, with `NB = 0` and
`n = 0` for a command that has no block phase. -/
def stepBound (i : Instr) (s : State) : Nat :=
  1 + ((s.rounds.toNat + 7) / 8 + 1) +
    (blockCount i s).getD 0 * ((((roundPlan i s).map Prod.snd).getD 0) + 3) + 3

/-- The positions of the canonical sequence in which command `i` can stand, with the bounds R44 gives for the sequencer
registers there (R221 to R228). -/
def AtPosition (i : Instr) (s : State) : Prop :=
  match s.seq.sub with
  | .sCheck => True
  | .sKs => derivesKeys i = true ∧ s.seq.nw ≤ s.rounds.toNat + 7
  | .sLoad => ∃ nb, blockCount i s = some nb ∧ s.seq.blk ≤ nb
  | .sRound => ∃ nb dir n, blockCount i s = some nb ∧ s.seq.blk < nb ∧ roundPlan i s = some (dir, n) ∧ s.seq.rnd ≤ n
  | .sStore => ∃ nb, blockCount i s = some nb ∧ s.seq.blk < nb
  | .sUnpad => i = .decrypt
  | .sCopy => i = .pad ∨ i = .unpad
  | .sEnd => True

/-- A running command stands where the canonical sequence brings it; an illegal word stands at S_CHECK, where it ends
(R221). -/
def State.OnSequence (s : State) : Prop :=
  s.phase = .run →
    match decode s.cmd with
    | .ok i => AtPosition i s
    | .error _ => s.seq.sub = .sCheck

/-- The invariant every step keeps. -/
structure State.Inv (s : State) : Prop where
  /-- KEY is canonical and inside its capacity (R60). -/
  keyWf : Memory.wf s.key = true
  keyIn : ∀ c ∈ s.key.cells, c.1 < Config.capKey
  /-- IN is canonical and inside its capacity (R60). -/
  inpWf : Memory.wf s.inp = true
  inpIn : ∀ c ∈ s.inp.cells, c.1 < Config.capIn
  /-- OUT is canonical and inside its capacity (R60). -/
  outWf : Memory.wf s.out = true
  outIn : ∀ c ∈ s.out.cells, c.1 < Config.capOut
  /-- RK is canonical and inside its capacity (R22). -/
  rkWf : Store.wf s.rk = true
  rkIn : ∀ c ∈ s.rk.cells, c.1 < Config.capRk
  /-- The legal combinations of (BUSY, DONE, ERR) (R32): while running, DONE and ERR are 0. -/
  running : s.phase = .run → s.done = false ∧ s.err = false
  /-- `STATUS.ERR = 1` exactly when `ERR_CODE.CODE ≠ 0` (R36). -/
  errCode : s.err = true ↔ s.errCode ≠ 0
  /-- The codes 9 to 15 are never produced (R240). -/
  errKind : s.errCode.toNat ≤ 8
  /-- After an error there is no result (R252). -/
  errLen : s.err = true → s.outLen = 0
  /-- The largest value of OUT_LEN is CAP_OUT (R41). -/
  outLen : s.outLen.toNat ≤ Config.capOut
  /-- A running command is inside the specified domain (R67). -/
  domain : s.phase = .run → ∀ i, decode s.cmd = .ok i → inDomain i s = true
  /-- Every draw that stands in a store was made before the next one. -/
  fresh : s.key.gen < s.draws ∧ s.inp.gen < s.draws ∧ s.out.gen < s.draws ∧ s.rk.gen < s.draws

/-- A safe step is one that gives a next state: no refusal (outside the specified domain or interface) and no fault. -/
def State.StepsSafely (s : State) : Prop := ∃ t, step s = .next t

end Sys2Proof.Machine
end

