-- ==== Sys2Proof/Certificates/Slice0/Obligations.lean ====
section
/-! DEFINITION. The statements for the provers, from the spec's numbered rules. -/

open Sys2Proof Sys2Proof.Machine

/-! ## Reset -/

/-- The values R50 gives, as the host reads them, and that nothing is specified of the stores' content. -/
def Obligations.ResetGivesStatedValues : Prop :=
  State.reset.phase = .idle ∧ State.reset.statusWord = 0 ∧ State.reset.errCodeWord = 0 ∧
  State.reset.ctrlWord = 0 ∧ State.reset.cmd = 0 ∧ State.reset.rounds = 8 ∧ State.reset.keyLen = 0 ∧
  State.reset.inLen = 0 ∧ State.reset.outLen = 0 ∧ State.reset.rkLen = 0 ∧ State.reset.rkIdx = 0 ∧
  State.reset.mixA = 0 ∧ State.reset.mixK = 0 ∧ State.reset.mixY = 0 ∧ State.reset.irq = false ∧
  (∀ a, Cells.lookup State.reset.key.cells a = none ∧ Cells.lookup State.reset.inp.cells a = none ∧
    Cells.lookup State.reset.out.cells a = none ∧ Cells.lookup State.reset.rk.cells a = none)

/-- R281, R280, R50: a reset, during a command too, leaves the values of R50 and no completion. That what is still to
come from outside (`inputs`, the model's own field) stays is the model's choice (notes/assumptions/6, 14). -/
def Obligations.ResetAbandonsRunningCommand : Prop :=
  ∀ (s : State) (rest : List Event), ∃ t,
    step { s with inputs := .reset :: rest } = .next t ∧ t.inputs = rest ∧
    t.phase = .idle ∧ t.done = false ∧ t.err = false ∧ t.errCode = 0 ∧ t.ie = false ∧ t.irq = false ∧
    t.cmd = 0 ∧ t.rounds = 8 ∧ t.keyLen = 0 ∧ t.inLen = 0 ∧ t.outLen = 0 ∧ t.rkLen = 0 ∧ t.rkIdx = 0 ∧
    t.mixA = 0 ∧ t.mixK = 0 ∧ t.mixY = 0 ∧
    (∀ a, Cells.lookup t.key.cells a = none ∧ Cells.lookup t.inp.cells a = none ∧
      Cells.lookup t.out.cells a = none ∧ Cells.lookup t.rk.cells a = none)

/-- R286, last paragraph: what each command does straight after reset, with nothing written. PAD gives eight bytes 08,
MIX gives `Mix(0, 0)`, every other command its error. -/
def Obligations.EachCommandStraightAfterReset : Prop :=
  (∃ t, step (State.reset.withFetchWord 32 1) = .next t ∧ t.FailedWith .emptyKey) ∧
  (∃ t, step (State.reset.withFetchWord 32 2) = .next t ∧ t.FailedWith .invalidCiphertextLength) ∧
  (∃ t, step (State.reset.withFetchWord 32 3) = .next t ∧ t.FailedWith .emptyKey) ∧
  (∃ t, step (State.reset.withFetchWord 32 4) = .next t ∧ t.FailedWith .invalidBlockLength) ∧
  (∃ t, step (State.reset.withFetchWord 32 5) = .next t ∧ t.FailedWith .invalidBlockLength) ∧
  (∃ t, step (State.reset.withFetchWord 32 6) = .next t ∧ t.Succeeded ∧ t.outOperand = List.replicate 8 8) ∧
  (∃ t, step (State.reset.withFetchWord 32 7) = .next t ∧ t.FailedWith .invalidPaddingInputLength) ∧
  (∃ t, step (State.reset.withFetchWord 32 8) = .next t ∧ t.Succeeded ∧ t.mixY = mix Config.params 0 0)

/-! ## The invariant -/

/-- The state after reset meets `State.Inv`; its clause on draws is the model's own (notes/assumptions/1). No command
runs, so it is on the canonical sequence. -/
def Obligations.ResetMeetsStateConditions : Prop := State.reset.Inv ∧ State.reset.OnSequence

/-- Every step keeps `State.Inv`: the stores stay canonical and inside their capacities, the flags stay in the legal
combinations of R32, ERR and ERR_CODE agree (R36), only the codes 0 to 8 occur (R240), an error leaves OUT_LEN = 0
(R252), OUT_LEN stays within CAP_OUT (R41), a running command is inside the specified domain (R67), and every draw is
fresh (the model's own clause, notes/assumptions/1). -/
def Obligations.EveryStepKeepsStateConditions : Prop :=
  ∀ s t : State, s.Inv → step s = .next t → t.Inv

/-- Every step keeps a running command on the canonical sequence, the sequencer registers within the bounds of R44
(R221 to R228). -/
def Obligations.EveryStepKeepsSequence : Prop :=
  ∀ s t : State, s.OnSequence → step s = .next t → t.OnSequence

/-! ## Decoding and the step -/

/-- R92, R95: a word decodes to a command exactly when it is that command's word, and every other word is illegal. The
two names under which the decoder rejects illegal words, and that a nonzero field ZERO is named before a reserved
OPCODE, are the model's choice (notes/assumptions/7): the spec has one kind of illegal word. -/
def Obligations.DecodeAndEncodeAgree : Prop :=
  ∀ w : Word,
    (∀ i, decode w = .ok i ↔ w = encode i) ∧
    (decode w = .error .zeroField ↔ zeroField w ≠ 0) ∧
    (decode w = .error .reservedOpcode ↔
      zeroField w = 0 ∧ ((opcodeField w).toNat = 0 ∨ 9 ≤ (opcodeField w).toNat))

/-- The eight words of R92's table, and four words R95 calls illegal. The names they are rejected under, and which name
0xFFFFFFFF gets, are the model's choice (notes/assumptions/7). -/
def Obligations.TableWordsDecode : Prop :=
  decode 0x00000001 = .ok .encrypt ∧ decode 0x00000002 = .ok .decrypt ∧ decode 0x00000003 = .ok .derive ∧
  decode 0x00000004 = .ok .encblk ∧ decode 0x00000005 = .ok .decblk ∧ decode 0x00000006 = .ok .pad ∧
  decode 0x00000007 = .ok .unpad ∧ decode 0x00000008 = .ok .mix ∧
  decode 0x00000000 = .error .reservedOpcode ∧ decode 0x00000009 = .error .reservedOpcode ∧
  decode 0x00000011 = .error .zeroField ∧ decode 0xFFFFFFFF = .error .zeroField

/-- A step runs the decoded command: when a command runs and the engine moves next, the step is `exec` of the decoded
command on the state with that move taken. The placed word is run by the very next step on the state its start leaves. -/
def Obligations.StepRunsDecodedCommand : Prop :=
  (∀ (s : State) (i : Instr), s.phase = .run → decode s.cmd = .ok i →
    (s.inputs = [] → step s = exec i s) ∧
    (∀ rest, s.inputs = .engineRun :: rest → step s = exec i { s with inputs := rest })) ∧
  (∀ (s : State) (i : Instr), step (s.withFetchWord 32 (encode i).toNat) = exec i (s.start (encode i)))

/-- R77 (b), R230: while PHASE = IDLE the engine has no enabled step and makes no access. -/
def Obligations.IdleEngineChangesNothing : Prop :=
  ∀ s : State, s.phase = .idle →
    (s.inputs = [] → step s = .next s) ∧
    (∀ rest, s.inputs = .engineRun :: rest ∨ s.inputs = .engineStep :: rest → step s = .next { s with inputs := rest })

/-! ## The start of a command -/

/-- R201: the accepted write to CMD, as one transition, and nothing else changes. A word whose command is outside the
specified domain (R67, U1) is refused, and that the refusal comes at this write is deduced (notes/assumptions/9). -/
def Obligations.AcceptedWriteStartsCommand : Prop :=
  ∀ (s : State) (w : Word) (rest : List Event), s.phase = .idle →
    ((∀ i, decode w = .ok i → inDomain i s = true) →
      step { s with inputs := .access (.writeReg 0x00 w) :: rest } =
        .next { s with
          inputs := rest, cmd := w, phase := .run, done := false, err := false, errCode := 0,
          seq := { s.seq with sub := .sCheck } }) ∧
    (∀ i, decode w = .ok i → inDomain i s = false →
      step { s with inputs := .access (.writeReg 0x00 w) :: rest } = .refused .outsideDomain)

/-- R95, R248: an accepted write of an illegal word starts a command that completes with IllegalCommand, RK, RK_LEN and
MIX_Y unchanged, whatever the operands are. It does so when the engine runs it to its completion, by itself or by the
event, and in the one micro-step of R221's first row. -/
def Obligations.IllegalWordCompletesWithIllegalCommand : Prop :=
  ∀ (s : State) (w : Word) (rest : List Event), s.phase = .idle →
    (zeroField w ≠ 0 ∨ (opcodeField w).toNat = 0 ∨ 9 ≤ (opcodeField w).toNat) →
    ∀ after : List Event, after = [] ∨ after = .engineRun :: rest ∨ after = .engineStep :: rest →
      ∃ u t, step { s with inputs := .access (.writeReg 0x00 w) :: after } = .next u ∧
        u.phase = .run ∧ u.cmd = w ∧ u.seq.sub = .sCheck ∧
        step u = .next t ∧ t.FailedWith .illegalCommand ∧ t.errCode = 8 ∧ t.cmd = w ∧
        RoundKeysKept s t ∧ t.mixY = s.mixY ∧ HostStateKept { s with cmd := w } t

/-! ## Host accesses -/

/-- R62: what a write to each register does while BUSY = 0 (CMD has a statement of its own). -/
def Obligations.RegisterWritesWhileIdle : Prop :=
  ∀ (s : State) (v : Word) (rest : List Event), s.phase = .idle →
    let s' := { s with inputs := rest }
    let write := fun off : Nat => step { s with inputs := .access (.writeReg off v) :: rest }
    write 0x04 = .next { s' with done := s.done && !v.getLsbD 1 } ∧
    write 0x08 = .next s' ∧
    write 0x0C = .next { s' with ie := v.getLsbD 0 } ∧
    write 0x10 = .next { s' with rounds := v } ∧
    write 0x14 = .next { s' with keyLen := v } ∧
    write 0x18 = .next { s' with inLen := v } ∧
    write 0x1C = .next s' ∧
    write 0x20 = .next { s' with rkLen := v } ∧
    write 0x24 = .next { s' with rkIdx := v } ∧
    (s.rkIdx.toNat < Config.capRk → write 0x28 = .next { s' with rk := s.rk.write s.rkIdx.toNat v }) ∧
    (Config.capRk ≤ s.rkIdx.toNat → write 0x28 = .next s') ∧
    write 0x2C = .next { s' with mixA := v } ∧
    write 0x30 = .next { s' with mixK := v } ∧
    write 0x34 = .next s'

/-- R64: while BUSY = 1 every host write to any register, to the window, to KEY, IN or OUT is ignored. -/
def Obligations.WritesWhileBusyIgnored : Prop :=
  ∀ (s : State) (rest : List Event), s.phase = .run →
    (∀ off v, step { s with inputs := .access (.writeReg off v) :: rest } = .next { s with inputs := rest }) ∧
    (∀ b a v, Config.hasAddress b a = true →
      step { s with inputs := .access (.writeBuf b a v) :: rest } = .next { s with inputs := rest })

/-- R61: a host read changes no state of the machine: at most the delivered value and the model's draw counter. -/
def Obligations.HostReadsHaveNoSideEffect : Prop :=
  ∀ (s : State) (rest : List Event),
    (∀ off, ∃ d n, step { s with inputs := .access (.readReg off) :: rest } =
      .next { s with inputs := rest, bus := some (.word d), draws := n }) ∧
    (∀ b a, Config.hasAddress b a = true → ∃ d n, step { s with inputs := .access (.readBuf b a) :: rest } =
      .next { s with inputs := rest, bus := some (.byte d), draws := n })

/-- The values host reads of the registers deliver while BUSY = 0 (R24 to R45, R61). -/
def Obligations.RegisterReadsWhileIdle : Prop :=
  ∀ (s : State) (rest : List Event), s.phase = .idle →
    let reads := fun (off : Nat) (v : Word) =>
      step { s with inputs := .access (.readReg off) :: rest } = .next { s with inputs := rest, bus := some (.word v) }
    reads 0x00 s.cmd ∧
    reads 0x04 (BitVec.ofNat 32 (2 * s.done.toNat + 4 * s.err.toNat)) ∧
    reads 0x08 (BitVec.ofNat 32 s.errCode.toNat) ∧
    reads 0x0C (BitVec.ofNat 32 s.ie.toNat) ∧
    reads 0x10 s.rounds ∧ reads 0x14 s.keyLen ∧ reads 0x18 s.inLen ∧ reads 0x1C s.outLen ∧ reads 0x20 s.rkLen ∧
    reads 0x24 s.rkIdx ∧
    reads 0x28 (if s.rkIdx.toNat < Config.capRk then s.readRk s.rkIdx.toNat else 0) ∧
    reads 0x2C s.mixA ∧ reads 0x30 s.mixK ∧ reads 0x34 s.mixY

/-- R65: the host reads that return the register's or the byte's value while BUSY = 1, STATUS reading 1 and ERR_CODE 0;
every other read returns an unspecified value, in the model a draw of its own (notes/assumptions/1). -/
def Obligations.ReadsWhileBusy : Prop :=
  ∀ (s : State) (rest : List Event), s.phase = .run → s.Inv →
    let reads := fun (off : Nat) (v : Word) =>
      step { s with inputs := .access (.readReg off) :: rest } = .next { s with inputs := rest, bus := some (.word v) }
    reads 0x00 s.cmd ∧ reads 0x04 1 ∧ reads 0x08 0 ∧ reads 0x0C (BitVec.ofNat 32 s.ie.toNat) ∧
    reads 0x10 s.rounds ∧ reads 0x14 s.keyLen ∧ reads 0x18 s.inLen ∧ reads 0x24 s.rkIdx ∧
    reads 0x2C s.mixA ∧ reads 0x30 s.mixK ∧
    (∀ a, a < Config.capKey → step { s with inputs := .access (.readBuf .key a) :: rest } =
      .next { s with inputs := rest, bus := some (.byte (s.readKey a)) }) ∧
    (∀ a, a < Config.capIn → step { s with inputs := .access (.readBuf .inp a) :: rest } =
      .next { s with inputs := rest, bus := some (.byte (s.readIn a)) }) ∧
    (∀ off, off = 0x1C ∨ off = 0x20 ∨ off = 0x28 ∨ off = 0x34 →
      step { s with inputs := .access (.readReg off) :: rest } =
        .next { s with inputs := rest, bus := some (.word (Config.freeReadWord s.draws)), draws := s.draws + 1 }) ∧
    (∀ a, a < Config.capOut → step { s with inputs := .access (.readBuf .out a) :: rest } =
      .next { s with inputs := rest, bus := some (.byte (Config.freeReadByte s.draws)), draws := s.draws + 1 })

/-- R25: a reserved or misaligned offset reads 0 and ignores writes, and the fields marked zero read as 0. -/
def Obligations.ReservedOffsetsReadZero : Prop :=
  ∀ (s : State) (off : Nat) (rest : List Event),
    (0x38 ≤ off ∨ off % 4 ≠ 0 →
      step { s with inputs := .access (.readReg off) :: rest } =
        .next { s with inputs := rest, bus := some (.word 0) } ∧
      ∀ v, step { s with inputs := .access (.writeReg off v) :: rest } = .next { s with inputs := rest }) ∧
    s.statusWord.extractLsb' 3 29 = 0 ∧ s.errCodeWord.extractLsb' 4 28 = 0 ∧ s.ctrlWord.extractLsb' 1 31 = 0

/-- R43: a write through the window followed by a read through it, and what both leave alone. -/
def Obligations.RoundKeyWindow : Prop :=
  ∀ (s : State) (v : Word) (rest : List Event), s.phase = .idle →
    ∃ t, step { s with inputs := .access (.writeReg 0x28 v) :: .access (.readReg 0x28) :: rest } = .next t ∧
      t.rkIdx = s.rkIdx ∧ t.rkLen = s.rkLen ∧
      (∀ i, i ≠ s.rkIdx.toNat → t.readRk i = s.readRk i) ∧
      (s.rkIdx.toNat < Config.capRk → t.readRk s.rkIdx.toNat = v) ∧
      (Config.capRk ≤ s.rkIdx.toNat → t.rk = s.rk) ∧
      step t = .next { t with
        inputs := rest,
        bus := some (.word (if s.rkIdx.toNat < Config.capRk then v else 0)) }

/-- R63: a write to KEY or IN stores the byte there and changes nothing else of the whole state, a write to OUT is
ignored, a read delivers the byte (OUT while BUSY = 0; KEY and IN at any time), and an access at or above the capacity
is refused, whatever the engine does. -/
def Obligations.BufferAccesses : Prop :=
  ∀ (s : State) (a : Nat) (v : Byte) (rest : List Event),
    let capacity := fun b : Buffer => match b with
      | .key => Config.capKey
      | .inp => Config.capIn
      | .out => Config.capIn + 8
    let write := fun b : Buffer => step { s with inputs := .access (.writeBuf b a v) :: rest }
    let read := fun b : Buffer => step { s with inputs := .access (.readBuf b a) :: rest }
    (s.phase = .idle →
      (a < capacity .key → write .key = .next { s with inputs := rest, key := s.key.write a v }) ∧
      (a < capacity .inp → write .inp = .next { s with inputs := rest, inp := s.inp.write a v }) ∧
      (a < capacity .out → write .out = .next { s with inputs := rest })) ∧
    (∀ t : State, t = { s with key := s.key.write a v } → ∀ x, t.readKey x = if x = a then v else s.readKey x) ∧
    (∀ t : State, t = { s with inp := s.inp.write a v } → ∀ x, t.readIn x = if x = a then v else s.readIn x) ∧
    (∀ b, a < capacity b → s.phase = .idle ∨ b ≠ .out →
      read b = .next { s with inputs := rest, bus := some (.byte (s.readByte b a)) }) ∧
    (∀ b, capacity b ≤ a → write b = .refused .outsideInterface ∧ read b = .refused .outsideInterface)

/-- R34, R255: clearing DONE leaves ERR and ERR_CODE; the next start clears both. -/
def Obligations.AcknowledgeLeavesError : Prop :=
  ∀ (s : State) (i : Instr) (rest : List Event), s.phase = .idle → s.err = true → inDomain i s = true →
    ∃ t u, step { s with inputs := .access (.writeReg 0x04 0x00000002) :: .access (.writeReg 0x00 (encode i)) :: rest } =
        .next t ∧
      t.done = false ∧ t.irq = false ∧ t.err = true ∧ t.errCode = s.errCode ∧
      step t = .next u ∧ u.phase = .run ∧ u.err = false ∧ u.errCode = 0

/-- R260: `irq` is 1 exactly when IE and DONE are; at every completion, that of an illegal word too, whether the engine
runs the command in one go or takes its last micro-step, it becomes IE; the next start and the W1C write to STATUS clear
it, and a write to CTRL sets it to the new IE while DONE = 1. -/
def Obligations.InterruptFollowsCompletion : Prop :=
  ∀ s : State,
    (s.irq = true ↔ s.ie = true ∧ s.done = true) ∧
    (∀ i t, exec i s = .next t → t.irq = s.ie) ∧
    (s.phase = .run →
      (∀ t, engineRun s = .next t → t.irq = s.ie) ∧
      (∀ t, engineStep s = .next t → t.phase = .idle → t.irq = s.ie)) ∧
    (∀ w, (s.start w).irq = false) ∧
    (s.phase = .idle → ∀ (v : Word) (rest : List Event),
      (∃ t, step { s with inputs := .access (.writeReg 0x0C v) :: rest } = .next t ∧
        t.irq = (v.getLsbD 0 && s.done)) ∧
      (∃ t, step { s with inputs := .access (.writeReg 0x04 v) :: rest } = .next t ∧
        t.irq = (s.irq && !v.getLsbD 1)))

/-- R203, R230: the engine's run of a command and a reset are never stopped, and a single micro-step is not either where
the running command stands on the canonical sequence (`EveryStepKeepsSequence` says that it stays there). -/
def Obligations.EngineNeverStops : Prop :=
  ∀ s : State, s.Inv →
    (s.inputs = [] ∨ (∃ rest, s.inputs = .engineRun :: rest) ∨ (∃ rest, s.inputs = .reset :: rest) → s.StepsSafely) ∧
    (s.OnSequence → (∃ rest, s.inputs = .engineStep :: rest) → s.StepsSafely)

/-- R104, R291: START and WAIT. The read of STATUS that ends the wait shows DONE, BUSY fallen and the outcome in ERR.
WAIT's schedule is the model's (notes/assumptions/6). -/
def Obligations.WaitSeesCompletion : Prop :=
  ∀ (i : Instr) (s : State) (rest : List Event), s.phase = .idle → inDomain i s = true →
    ∃ a b c w, step { s with inputs := startOf i ++ wait ++ rest } = .next a ∧ step a = .next b ∧ step b = .next c ∧
      exec i { s.start (encode i) with inputs := rd .status ++ rest } = .next b ∧
      c.inputs = rest ∧ c.bus = some (.word w) ∧
      w.getLsbD 0 = false ∧ w.getLsbD 1 = true ∧ w.getLsbD 2 = b.err ∧ c.errCode = b.errCode

/-! ## Every command -/

/-- R67: outside the specified domain a command is refused, and only there; MIX is always inside. -/
def Obligations.RefusedExactlyOutsideDomain : Prop :=
  ∀ (i : Instr) (s : State),
    exec i s = .refused .outsideDomain ↔
      (i = .derive ∨ i = .encrypt ∨ i = .decrypt) ∧
          (Config.capKey < s.keyLen.toNat ∨ Config.capRk < s.rounds.toNat) ∨
      (i = .encblk ∨ i = .decblk ∨ i = .pad ∨ i = .unpad ∨ i = .encrypt ∨ i = .decrypt) ∧
          Config.capIn < s.inLen.toNat ∨
      (i = .encblk ∨ i = .decblk) ∧ Config.capRk < s.rkLen.toNat

/-- R203: every command inside the specified domain completes, with success or with exactly one error kind. -/
def Obligations.EveryCommandCompletes : Prop :=
  ∀ (i : Instr) (s : State), inDomain i s = true →
    ∃ t, exec i s = .next t ∧ (t.Succeeded ∨ ∃ k, t.FailedWith k)

/-- The last sentences of R72: what no command changes, what only the deriving commands change, and what only MIX
changes. R145 adds that MIX leaves `L` and `R`. -/
def Obligations.CommandsLeaveTheRestUnchanged : Prop :=
  ∀ (i : Instr) (s t : State), exec i s = .next t →
    HostStateKept s t ∧
    ((i = .mix ∨ i = .encblk ∨ i = .decblk ∨ i = .pad ∨ i = .unpad) → RoundKeysKept s t) ∧
    (i ≠ .mix → t.mixY = s.mixY) ∧
    (i = .mix → t.l = s.l ∧ t.r = s.r) ∧
    t.inputs = s.inputs ∧ t.bus = s.bus

/-- R250: when a command's function raises the kind `k`, the command completes with it: the code in ERR_CODE, ERR and
DONE 1, BUSY 0, nothing in OUT; a deriving command leaves RK_LEN = 0 and no RK entry specified, every other one leaves RK
as it is; the host's registers, KEY, IN and MIX_Y are unchanged. And no command completes with an error otherwise. -/
def Obligations.ErrorReturnsNothing : Prop :=
  ∀ (i : Instr) (s : State),
    (∀ k, inDomain i s = true → Raises i k s →
      ∃ t, exec i s = .next t ∧ t.FailedWith k ∧
        ((i = .derive ∨ i = .encrypt ∨ i = .decrypt) → t.rkLen = 0 ∧ ∀ n, Cells.lookup t.rk.cells n = none) ∧
        (¬(i = .derive ∨ i = .encrypt ∨ i = .decrypt) → RoundKeysKept s t) ∧
        t.mixY = s.mixY ∧ HostStateKept s t) ∧
    (∀ t, exec i s = .next t → t.err = true → ∃ k, Raises i k s ∧ t.FailedWith k)

/-- R253: the first failing check is the one reported, for the checks on the operand registers. -/
def Obligations.FirstFailingCheckReported : Prop :=
  ∀ (i : Instr) (s : State), inDomain i s = true →
    let fails := fun k : ErrorKind => ∃ t, exec i s = .next t ∧ t.FailedWith k
    (i = .encrypt → s.rounds = 0 → fails .invalidRounds) ∧
    (i = .encrypt → s.rounds ≠ 0 → s.keyLen = 0 → fails .emptyKey) ∧
    (i = .decrypt → s.rounds = 0 → fails .invalidRounds) ∧
    (i = .decrypt → s.rounds ≠ 0 → s.inLen = 0 ∨ s.inLen.toNat % 8 ≠ 0 → fails .invalidCiphertextLength) ∧
    (i = .decrypt → s.rounds ≠ 0 → ¬(s.inLen = 0 ∨ s.inLen.toNat % 8 ≠ 0) → s.keyLen = 0 → fails .emptyKey) ∧
    (i = .derive → s.keyLen = 0 → fails .emptyKey) ∧
    (i = .derive → s.keyLen ≠ 0 → s.rounds = 0 → fails .invalidRounds) ∧
    (i = .encblk ∨ i = .decblk → s.inLen ≠ 8 ∨ s.rkLen ≠ s.rounds → fails .invalidBlockLength)

/-- R256: the same command on the operands as the error left them gives the same error, and the engine does not start
anything by itself. -/
def Obligations.RetryGivesSameError : Prop :=
  ∀ (i : Instr) (s t : State), exec i s = .next t → t.err = true →
    (∃ u, exec i (t.start (encode i)) = .next u ∧ u.err = true ∧ u.errCode = t.errCode) ∧
    (t.inputs = [] → step t = .next t)

/-- R46, R125, R251: a command's outcome is decided by the operands it reads and by nothing else of the state. -/
def Obligations.OperandsAloneDecideOutcome : Prop :=
  ∀ (i : Instr) (s s' t : State), SameOperands i s s' → exec i s = .next t →
    ∃ t', exec i s' = .next t' ∧ t'.err = t.err ∧ t'.errCode = t.errCode ∧ t'.outLen = t.outLen ∧
      t'.outOperand = t.outOperand ∧
      ((i = .derive ∨ i = .encrypt ∨ i = .decrypt) → t'.rkLen = t.rkLen ∧ t'.rkOperand = t.rkOperand) ∧
      (i = .mix → t'.mixY = t.mixY)

/-! ## Each command's result -/

/-- MIX (R145, R142): its result for every operand and in every state, and what it leaves alone. -/
def Obligations.MixResult : Prop :=
  ∀ s : State,
    let t2 := (s.mixA + s.mixK) ^^^ Config.cXor
    let t4 := rotl32 t2 ((s.mixK ^^^ t2).toNat % 32) * Config.params.cMul
    ∃ t, exec .mix s = .next t ∧ t.Succeeded ∧
      t.mixY = t4 ^^^ BitVec.ofNat 32 (s.mixK.toNat % 2 ^ 16 * 2 ^ 16 + s.mixK.toNat / 2 ^ 16) ∧
      t.outLen = 0 ∧ (∀ a, Cells.lookup t.out.cells a = none) ∧
      RoundKeysKept s t ∧ t.l = s.l ∧ t.r = s.r ∧ HostStateKept s t

/-- DERIVE (R128): with a nonempty key and at least one round it succeeds; otherwise it fails, the key checked first. -/
def Obligations.DeriveResult : Prop :=
  ∀ s : State, s.keyLen.toNat ≤ Config.capKey → s.rounds.toNat ≤ Config.capRk →
    (1 ≤ s.keyLen.toNat → 1 ≤ s.rounds.toNat →
      ∃ t k, deriveRoundKeys Config.params s.keyOperand s.rounds.toNat = .ok k ∧
        exec .derive s = .next t ∧ t.Succeeded ∧
        t.rkLen = s.rounds ∧ t.rkOperand = k ∧ (∀ i, s.rounds.toNat ≤ i → Cells.lookup t.rk.cells i = none) ∧
        t.outLen = 0 ∧ (∀ a, Cells.lookup t.out.cells a = none) ∧ t.mixY = s.mixY ∧ HostStateKept s t) ∧
    (s.keyLen = 0 → ∃ t, exec .derive s = .next t ∧ t.FailedWith .emptyKey ∧ t.rkLen = 0 ∧
      (∀ i, Cells.lookup t.rk.cells i = none) ∧ t.mixY = s.mixY ∧ HostStateKept s t) ∧
    (s.keyLen ≠ 0 → s.rounds = 0 → ∃ t, exec .derive s = .next t ∧ t.FailedWith .invalidRounds ∧ t.rkLen = 0 ∧
      (∀ i, Cells.lookup t.rk.cells i = none) ∧ t.mixY = s.mixY ∧ HostStateKept s t)

/-- ENCBLK (R163): the block of IN encrypted under the round keys of RK as they stand; InvalidBlockLength when IN_LEN is
not 8 or RK_LEN is not ROUNDS. -/
def Obligations.EncblkResult : Prop :=
  ∀ s : State, s.inLen.toNat ≤ Config.capIn → s.rkLen.toNat ≤ Config.capRk →
    (s.inLen = 8 → s.rkLen = s.rounds →
      ∃ t b, encryptBlock Config.params (s.memReadIn 0 8) s.rkOperand s.rounds.toNat = .ok b ∧
        exec .encblk s = .next t ∧ t.Succeeded ∧
        t.outLen = 8 ∧ t.memReadOut 0 8 = b ∧ (∀ a, 8 ≤ a → Cells.lookup t.out.cells a = none) ∧
        RoundKeysKept s t ∧ t.mixY = s.mixY ∧ HostStateKept s t) ∧
    (s.inLen ≠ 8 ∨ s.rkLen ≠ s.rounds →
      ∃ t, exec .encblk s = .next t ∧ t.FailedWith .invalidBlockLength ∧
        RoundKeysKept s t ∧ t.mixY = s.mixY ∧ HostStateKept s t)

/-- DECBLK (R164): the same round keys, taken in reverse order; the errors are ENCBLK's. -/
def Obligations.DecblkResult : Prop :=
  ∀ s : State, s.inLen.toNat ≤ Config.capIn → s.rkLen.toNat ≤ Config.capRk →
    (s.inLen = 8 → s.rkLen = s.rounds →
      ∃ t b, decryptBlock Config.params (s.memReadIn 0 8) s.rkOperand s.rounds.toNat = .ok b ∧
        exec .decblk s = .next t ∧ t.Succeeded ∧
        t.outLen = 8 ∧ t.memReadOut 0 8 = b ∧ (∀ a, 8 ≤ a → Cells.lookup t.out.cells a = none) ∧
        RoundKeysKept s t ∧ t.mixY = s.mixY ∧ HostStateKept s t) ∧
    (s.inLen ≠ 8 ∨ s.rkLen ≠ s.rounds →
      ∃ t, exec .decblk s = .next t ∧ t.FailedWith .invalidBlockLength ∧
        RoundKeysKept s t ∧ t.mixY = s.mixY ∧ HostStateKept s t)

/-- R166 (a): with no round keys ENCBLK and DECBLK return the block unchanged. -/
def Obligations.ZeroRoundBlockIsIdentity : Prop :=
  ∀ (s : State) (i : Instr), i = .encblk ∨ i = .decblk → s.inLen = 8 → s.rkLen = 0 → s.rounds = 0 →
    ∃ t, exec i s = .next t ∧ t.Succeeded ∧ t.outLen = 8 ∧ ∀ a, a < 8 → t.readOut a = s.readIn a

/-- PAD (R184): the data copied, then `n` bytes of value `n`, `n = 8 - (IN_LEN mod 8)`. -/
def Obligations.PadResult : Prop :=
  ∀ s : State, s.inLen.toNat ≤ Config.capIn →
    let n := 8 - s.inLen.toNat % 8
    ∃ t, exec .pad s = .next t ∧ t.Succeeded ∧
      t.outLen.toNat = s.inLen.toNat + n ∧
      (∀ a, a < s.inLen.toNat → t.readOut a = s.readIn a) ∧
      (∀ a, s.inLen.toNat ≤ a → a < s.inLen.toNat + n → t.readOut a = BitVec.ofNat 8 n) ∧
      (∀ a, s.inLen.toNat + n ≤ a → Cells.lookup t.out.cells a = none) ∧
      RoundKeysKept s t ∧ t.mixY = s.mixY ∧ HostStateKept s t

/-- UNPAD (R187) on a correctly padded buffer (R100): all bytes except the trailing `pad_len`. -/
def Obligations.UnpadResult : Prop :=
  ∀ (s : State) (n : Nat), s.inLen.toNat ≤ Config.capIn → s.inLen ≠ 0 → s.inLen.toNat % 8 = 0 → 1 ≤ n → n ≤ 8 →
    (∀ a, s.inLen.toNat - n ≤ a → a < s.inLen.toNat → (s.readIn a).toNat = n) →
    ∃ t, exec .unpad s = .next t ∧ t.Succeeded ∧
      t.outLen.toNat = s.inLen.toNat - n ∧
      (∀ a, a < s.inLen.toNat - n → t.readOut a = s.readIn a) ∧
      (∀ a, s.inLen.toNat - n ≤ a → Cells.lookup t.out.cells a = none) ∧
      RoundKeysKept s t ∧ t.mixY = s.mixY ∧ HostStateKept s t

/-- UNPAD (R187, R253): its three errors, in order. -/
def Obligations.UnpadErrors : Prop :=
  ∀ s : State, s.inLen.toNat ≤ Config.capIn →
    let fails := fun k : ErrorKind => ∃ t, exec .unpad s = .next t ∧ t.FailedWith k ∧ RoundKeysKept s t
    let padLen := (s.readIn (s.inLen.toNat - 1)).toNat
    (s.inLen = 0 ∨ s.inLen.toNat % 8 ≠ 0 → fails .invalidPaddingInputLength) ∧
    (s.inLen ≠ 0 → s.inLen.toNat % 8 = 0 → padLen = 0 ∨ 8 < padLen → fails .invalidPaddingLength) ∧
    (s.inLen ≠ 0 → s.inLen.toNat % 8 = 0 → 1 ≤ padLen → padLen ≤ 8 →
      (∃ a, s.inLen.toNat - padLen ≤ a ∧ a < s.inLen.toNat ∧ (s.readIn a).toNat ≠ padLen) →
      fails .invalidPaddingBytes)

/-- ENCRYPT (R207, R208): inside the domain with a nonempty key and at least one round it succeeds, whatever the
plaintext is; otherwise it fails, the rounds checked first. -/
def Obligations.EncryptResult : Prop :=
  ∀ s : State, s.inLen.toNat ≤ Config.capIn → s.keyLen.toNat ≤ Config.capKey → s.rounds.toNat ≤ Config.capRk →
    (1 ≤ s.keyLen.toNat → 1 ≤ s.rounds.toNat →
      ∃ t k c, deriveRoundKeys Config.params s.keyOperand s.rounds.toNat = .ok k ∧
        encrypt Config.params s.inOperand s.keyOperand s.rounds.toNat = .ok c ∧
        exec .encrypt s = .next t ∧ t.Succeeded ∧
        t.rkLen = s.rounds ∧ t.rkOperand = k ∧ (∀ i, s.rounds.toNat ≤ i → Cells.lookup t.rk.cells i = none) ∧
        t.outLen.toNat = 8 * (s.inLen.toNat / 8 + 1) ∧ t.outOperand = c ∧
        (∀ a, t.outLen.toNat ≤ a → Cells.lookup t.out.cells a = none) ∧
        t.mixY = s.mixY ∧ HostStateKept s t) ∧
    (s.rounds = 0 → ∃ t, exec .encrypt s = .next t ∧ t.FailedWith .invalidRounds ∧ t.rkLen = 0 ∧
      (∀ i, Cells.lookup t.rk.cells i = none) ∧ t.mixY = s.mixY ∧ HostStateKept s t) ∧
    (s.rounds ≠ 0 → s.keyLen = 0 → ∃ t, exec .encrypt s = .next t ∧ t.FailedWith .emptyKey ∧ t.rkLen = 0 ∧
      (∀ i, Cells.lookup t.rk.cells i = none) ∧ t.mixY = s.mixY ∧ HostStateKept s t)

/-- DECRYPT (R211, R212): when the decrypted data are correctly padded it succeeds with the message. -/
def Obligations.DecryptResult : Prop :=
  ∀ (s : State) (k : List Word) (data m : List Byte), s.inLen.toNat ≤ Config.capIn → s.inLen ≠ 0 →
    s.inLen.toNat % 8 = 0 → 1 ≤ s.keyLen.toNat → s.keyLen.toNat ≤ Config.capKey →
    1 ≤ s.rounds.toNat → s.rounds.toNat ≤ Config.capRk →
    deriveRoundKeys Config.params s.keyOperand s.rounds.toNat = .ok k →
    mapBlocks (fun b => decryptBlock Config.params b k s.rounds.toNat) (s.inLen.toNat / 8) s.inOperand = .ok data →
    unpad data = .ok m →
    ∃ t, exec .decrypt s = .next t ∧ t.Succeeded ∧
      t.rkLen = s.rounds ∧ t.rkOperand = k ∧ (∀ i, s.rounds.toNat ≤ i → Cells.lookup t.rk.cells i = none) ∧
      t.outLen.toNat = s.inLen.toNat - lastByte data ∧ t.outOperand = m ∧
      (∀ a, t.outLen.toNat ≤ a → Cells.lookup t.out.cells a = none) ∧
      t.mixY = s.mixY ∧ HostStateKept s t

/-- DECRYPT (R211, R246, R247): with the operand checks passed, every block decrypts, the decrypted data are as long as
the ciphertext, and bad padding in them is reported by its kind, the padding length first; round keys and result are
gone. -/
def Obligations.DecryptPaddingErrors : Prop :=
  ∀ s : State, s.inLen.toNat ≤ Config.capIn → s.inLen ≠ 0 → s.inLen.toNat % 8 = 0 →
    1 ≤ s.keyLen.toNat → s.keyLen.toNat ≤ Config.capKey → 1 ≤ s.rounds.toNat → s.rounds.toNat ≤ Config.capRk →
    ∃ k data, deriveRoundKeys Config.params s.keyOperand s.rounds.toNat = .ok k ∧
      mapBlocks (fun b => decryptBlock Config.params b k s.rounds.toNat) (s.inLen.toNat / 8) s.inOperand = .ok data ∧
      data.length = s.inLen.toNat ∧
      (lastByte data = 0 ∨ 8 < lastByte data →
        ∃ t, exec .decrypt s = .next t ∧ t.FailedWith .invalidPaddingLength ∧ t.rkLen = 0) ∧
      (1 ≤ lastByte data → lastByte data ≤ 8 →
        (∃ b ∈ data.drop (data.length - lastByte data), b.toNat ≠ lastByte data) →
        ∃ t, exec .decrypt s = .next t ∧ t.FailedWith .invalidPaddingBytes ∧ t.rkLen = 0)

/-! ## The key schedule -/

/-- R121, R124: the two errors in their order, and the closed form of the key schedule, for every hash. -/
def Obligations.RoundKeyClosedForm : Prop :=
  ∀ (p : Params) (key : List Byte) (rounds : Nat),
    (key = [] → deriveRoundKeys p key rounds = .error .emptyKey) ∧
    (key ≠ [] → rounds = 0 → deriveRoundKeys p key rounds = .error .invalidRounds) ∧
    (key ≠ [] → 1 ≤ rounds →
      ∃ k, deriveRoundKeys p key rounds = .ok k ∧ k.length = rounds ∧
        ∀ i, i < rounds →
          k[i]? = some (fromBe32 (slice (p.hash (key ++ be32 (BitVec.ofNat 32 (i / 8)))).toList
            (4 * (i % 8)) (4 * (i % 8) + 4))))

/-- R124, R127: fewer rounds give the leading keys of more rounds with the same key. -/
def Obligations.RoundKeysArePrefixClosed : Prop :=
  ∀ (p : Params) (key : List Byte) (m n : Nat), key ≠ [] → 1 ≤ m → m ≤ n →
    ∃ k k', deriveRoundKeys p key m = .ok k ∧ deriveRoundKeys p key n = .ok k' ∧ k = k'.take m

/-! ## The round function and the block functions -/

/-- R141: each primitive against its defining formula, and the bit law of the rotation. -/
def Obligations.ArithmeticPrimitives : Prop :=
  ∀ a b : Word,
    (add32 a b).toNat = (a.toNat + b.toNat) % 2 ^ 32 ∧
    (mul32 a b).toNat = (a.toNat * b.toNat) % 2 ^ 32 ∧
    (∀ n, (xor32 a b).getLsbD n = (a.getLsbD n != b.getLsbD n)) ∧
    (∀ n, (and32 a b).getLsbD n = (a.getLsbD n && b.getLsbD n)) ∧ (and32 a 31).toNat = a.toNat % 32 ∧
    (∀ s, s < 32 → (rotl32 a s).toNat = (a.toNat * 2 ^ s) % 2 ^ 32 + a.toNat / 2 ^ (32 - s)) ∧
    (∀ s n, s < 32 → n < 32 → (rotl32 a s).getLsbD ((n + s) % 32) = a.getLsbD n) ∧
    rotl32 a 0 = a ∧
    (swap16 a).toNat = (a.toNat % 2 ^ 16) * 2 ^ 16 + a.toNat / 2 ^ 16 ∧
    swap16 a = rotl32 a 16

/-- R165: self-inversion in both orders, for every function in the place of `Mix`, every round-key sequence and every
8-byte block. -/
def Obligations.BlockFunctionsAreInverse : Prop :=
  ∀ (f : Word → Word → Word) (b : List Byte) (k : List Word), b.length = 8 →
    (∃ c, encryptBlockWith f b k k.length = .ok c ∧ c.length = 8 ∧ decryptBlockWith f c k k.length = .ok b) ∧
    (∃ c, decryptBlockWith f b k k.length = .ok c ∧ c.length = 8 ∧ encryptBlockWith f c k k.length = .ok b)

/-- R155, R159, R161: both block functions raise InvalidBlockLength exactly when a precondition fails. -/
def Obligations.BlockPreconditions : Prop :=
  ∀ (p : Params) (b : List Byte) (k : List Word) (rounds : Nat),
    (encryptBlock p b k rounds = .error .invalidBlockLength ↔ b.length ≠ 8 ∨ k.length ≠ rounds) ∧
    (decryptBlock p b k rounds = .error .invalidBlockLength ↔ b.length ≠ 8 ∨ k.length ≠ rounds)

/-- R166 (b): one round leaves the second half of the input as the first half of the output. -/
def Obligations.OneRoundKeepsSecondHalf : Prop :=
  ∀ (p : Params) (b : List Byte) (k : Word), b.length = 8 →
    ∃ c, encryptBlock p b [k] 1 = .ok c ∧ c.take 4 = b.drop 4

/-! ## Padding -/

/-- R182: lengths after padding, and that the padded buffer is correctly padded (R100). -/
def Obligations.PaddedLengths : Prop :=
  ∀ d : List Byte,
    (pad d).length = d.length + padCount d.length ∧ (pad d).length = 8 * (d.length / 8 + 1) ∧
    (pad d).length % 8 = 0 ∧ 8 ≤ (pad d).length ∧ (pad d).length / 8 = d.length / 8 + 1 ∧
    d.length < (pad d).length ∧ 1 ≤ lastByte (pad d) ∧ lastByte (pad d) ≤ 8 ∧
    (∀ b ∈ (pad d).drop ((pad d).length - lastByte (pad d)), b.toNat = lastByte (pad d)) ∧
    (d.length % 8 = 0 → pad d = d ++ List.replicate 8 8)

/-- R186 (a): unpadding gives back what was padded. -/
def Obligations.UnpadInvertsPad : Prop := ∀ d : List Byte, unpad (pad d) = .ok d

/-- R185, R100: `Unpad` accepts exactly the correctly padded buffers and returns the message; every other buffer raises
one of three kinds, the first check that fails. -/
def Obligations.UnpadAcceptsExactlyPadded : Prop :=
  ∀ p : List Byte,
    (∀ m, unpad p = .ok m ↔
      p ≠ [] ∧ p.length % 8 = 0 ∧ 1 ≤ lastByte p ∧ lastByte p ≤ 8 ∧
      (∀ b ∈ p.drop (p.length - lastByte p), b.toNat = lastByte p) ∧ m = p.take (p.length - lastByte p)) ∧
    (unpad p = .error .invalidPaddingInputLength ↔ p = [] ∨ p.length % 8 ≠ 0) ∧
    (unpad p = .error .invalidPaddingLength ↔
      p ≠ [] ∧ p.length % 8 = 0 ∧ (lastByte p = 0 ∨ 8 < lastByte p)) ∧
    (unpad p = .error .invalidPaddingBytes ↔
      p ≠ [] ∧ p.length % 8 = 0 ∧ 1 ≤ lastByte p ∧ lastByte p ≤ 8 ∧
      ∃ b ∈ p.drop (p.length - lastByte p), b.toNat ≠ lastByte p)

/-- R186 (e): a padded buffer with exactly one of its `n` padding bytes changed to `v`. -/
def Obligations.TamperDetection : Prop :=
  ∀ (d : List Byte) (j : Nat) (v : Byte), j < padCount d.length → v.toNat ≠ padCount d.length →
    let n := padCount d.length
    let p := pad d
    let p' := p.set (d.length + j) v
    (j + 1 < n → unpad p' = .error .invalidPaddingBytes) ∧
    (j + 1 = n → v.toNat = 0 ∨ 8 < v.toNat → unpad p' = .error .invalidPaddingLength) ∧
    (j + 1 = n → v.toNat = 1 → unpad p' = .ok (p.take (p.length - 1))) ∧
    (j + 1 = n → 2 ≤ v.toNat → v.toNat ≤ 8 → 2 ≤ n → unpad p' = .error .invalidPaddingBytes) ∧
    (j + 1 = n → 2 ≤ v.toNat → v.toNat ≤ 8 → n = 1 →
      (¬(∀ b ∈ d.drop (d.length - (v.toNat - 1)), b = v) → unpad p' = .error .invalidPaddingBytes) ∧
      ((∀ b ∈ d.drop (d.length - (v.toNat - 1)), b = v) → unpad p' = .ok (p.take (p.length - v.toNat))))

/-! ## The whole cipher -/

/-- R214: the round trip, for every hash and all constants. -/
def Obligations.CipherRoundTrip : Prop :=
  ∀ (p : Params) (pt key : List Byte) (rounds : Nat), key ≠ [] → 1 ≤ rounds →
    ∃ c, encrypt p pt key rounds = .ok c ∧ c.length = 8 * (pt.length / 8 + 1) ∧ decrypt p c key rounds = .ok pt

/-- R214 in the hardware: ENCRYPT, the host copies OUT to IN and OUT_LEN to IN_LEN, DECRYPT. -/
def Obligations.EngineRoundTrip : Prop :=
  ∀ s : State, s.inLen.toNat + 8 ≤ Config.capIn → 1 ≤ s.keyLen.toNat → s.keyLen.toNat ≤ Config.capKey →
    1 ≤ s.rounds.toNat → s.rounds.toNat ≤ Config.capRk →
    ∃ t, exec .encrypt s = .next t ∧ t.Succeeded ∧
      ∀ u : State, u = { t with inp := t.inp.writeSeq 0 t.outOperand, inLen := t.outLen } →
        ∃ v, exec .decrypt u = .next v ∧ v.Succeeded ∧ v.outLen = s.inLen ∧ v.outOperand = s.inOperand

/-- R215: ciphertext block `i` is the block function of padded block `i` and of the round keys alone, and plaintexts
that share a block at one place have the same ciphertext block there. -/
def Obligations.BlocksAreIndependent : Prop :=
  ∀ (p : Params) (pt key : List Byte) (rounds : Nat), key ≠ [] → 1 ≤ rounds →
    ∃ k c, deriveRoundKeys p key rounds = .ok k ∧ encrypt p pt key rounds = .ok c ∧
      ∀ i, i < pt.length / 8 + 1 →
        encryptBlock p (slice (pad pt) (8 * i) (8 * i + 8)) k rounds = .ok (slice c (8 * i) (8 * i + 8)) ∧
        (i < pt.length / 8 →
          slice (pad pt) (8 * i) (8 * i + 8) = slice pt (8 * i) (8 * i + 8) ∧
          ∀ pt' c', i < pt'.length / 8 → slice pt' (8 * i) (8 * i + 8) = slice pt (8 * i) (8 * i + 8) →
            encrypt p pt' key rounds = .ok c' → slice c' (8 * i) (8 * i + 8) = slice c (8 * i) (8 * i + 8))

/-- R216: ENCRYPT has the results of DERIVE, then PAD, then ENCBLK on each block of PAD's output. -/
def Obligations.EncryptEqualsItsComponents : Prop :=
  ∀ s : State, s.inLen.toNat ≤ Config.capIn → 1 ≤ s.keyLen.toNat → s.keyLen.toNat ≤ Config.capKey →
    1 ≤ s.rounds.toNat → s.rounds.toNat ≤ Config.capRk →
    ∃ e d p, exec .encrypt s = .next e ∧ exec .derive s = .next d ∧ exec .pad d = .next p ∧
      d.rkLen = e.rkLen ∧ d.rkOperand = e.rkOperand ∧ p.outLen = e.outLen ∧
      ∀ i, i < s.inLen.toNat / 8 + 1 →
        ∀ u : State, u = { p with inp := p.inp.writeSeq 0 (slice p.outOperand (8 * i) (8 * i + 8)), inLen := 8 } →
          ∃ b, exec .encblk u = .next b ∧ b.Succeeded ∧ b.outOperand = slice e.outOperand (8 * i) (8 * i + 8)

/-- R216: DECRYPT has the results of DERIVE, then DECBLK on each block of the ciphertext, then UNPAD on the
concatenation, and where UNPAD fails DECRYPT fails with the same kind. DECBLK and UNPAD may run in any state that has the
derived keys, the rounds and the block, or the data, as operands. -/
def Obligations.DecryptEqualsItsComponents : Prop :=
  ∀ s : State, s.inLen.toNat ≤ Config.capIn → s.inLen ≠ 0 → s.inLen.toNat % 8 = 0 →
    1 ≤ s.keyLen.toNat → s.keyLen.toNat ≤ Config.capKey → 1 ≤ s.rounds.toNat → s.rounds.toNat ≤ Config.capRk →
    ∃ e d data, exec .decrypt s = .next e ∧ exec .derive s = .next d ∧ d.Succeeded ∧ data.length = s.inLen.toNat ∧
      (∀ i, i < s.inLen.toNat / 8 →
        ∀ u : State, RoundKeysKept d u → u.rounds = s.rounds → u.inLen = 8 →
          u.inOperand = slice s.inOperand (8 * i) (8 * i + 8) →
          ∃ b, exec .decblk u = .next b ∧ b.Succeeded ∧ b.outOperand = slice data (8 * i) (8 * i + 8)) ∧
      (∀ v : State, v.inLen = s.inLen → v.inOperand = data →
        ∃ p, exec .unpad v = .next p ∧ e.err = p.err ∧ e.errCode = p.errCode ∧
          (p.err = false → e.outLen = p.outLen ∧ e.outOperand = p.outOperand ∧
            e.rkLen = d.rkLen ∧ e.rkOperand = d.rkOperand))

/-! ## The micro-step sequence -/

/-- R205, R230: from the start of a command inside the domain the canonical micro-steps reach, within the bound of R230,
exactly the state the command's meaning gives. That the free draws are the same ones too is the model's choice
(notes/assumptions/8). An illegal word has a statement of its own, `IllegalWordCompletesWithIllegalCommand`. -/
def Obligations.MicroStepsReachCompletion : Prop :=
  ∀ (i : Instr) (s : State), s.Inv → s.phase = .run → s.seq.sub = .sCheck → decode s.cmd = .ok i →
    ∃ n t, 1 ≤ n ∧ n ≤ stepBound i s ∧ exec i s = .next t ∧ microSteps n s = .next t ∧ t.phase = .idle ∧
      ∀ m u, m < n → microSteps m s = .next u → u.phase = .run

/-- R205, R232: however many micro-steps a running command has taken, running it to its completion from there gives the
state the command's meaning gives at its start. That the free draws are the same ones too is the model's choice
(notes/assumptions/8). -/
def Obligations.CompletionFromAnyMicroStep : Prop :=
  ∀ (i : Instr) (s u : State) (m : Nat), s.Inv → s.phase = .run → s.seq.sub = .sCheck → decode s.cmd = .ok i →
    microSteps m s = .next u → u.phase = .run → exec i u = exec i s
end

