-- ==== Sys2Proof/Laws/Bytes.lean ====
section
/-! SUPPORT. The big-endian conversions are inverse, slices and blocks have their lengths (spec 00_scope.md R12;
42_feistel_core.md R156). -/

namespace Sys2Proof.Machine

@[simp] theorem be32_length (w : Word) : (be32 w).length = 4 := rfl

/-- `from_be32` as the sum R12 writes. -/
theorem fromBe32_toNat (b : List Byte) :
    (fromBe32 b).toNat =
      (b.getD 0 0).toNat * 2 ^ 24 + (b.getD 1 0).toNat * 2 ^ 16 + (b.getD 2 0).toNat * 2 ^ 8 + (b.getD 3 0).toNat := by
  unfold fromBe32
  have h0 := (b.getD 0 0).isLt
  have h1 := (b.getD 1 0).isLt
  have h2 := (b.getD 2 0).isLt
  have h3 := (b.getD 3 0).isLt
  generalize b.getD 0 0 = x0 at *
  generalize b.getD 1 0 = x1 at *
  generalize b.getD 2 0 = x2 at *
  generalize b.getD 3 0 = x3 at *
  have key : ∀ (n : Nat) (x : BitVec n) (y : Byte), (x ++ y).toNat = x.toNat * 2 ^ 8 + y.toNat := by
    intro n x y
    rw [BitVec.toNat_append, Nat.shiftLeft_eq, Nat.mul_comm, Nat.two_pow_add_eq_or_of_lt y.isLt]
  show (x0 ++ x1 ++ x2 ++ x3).toNat = _
  rw [key, key, key]
  omega

@[simp] theorem fromBe32_be32 (w : Word) : fromBe32 (be32 w) = w := by
  apply BitVec.eq_of_toNat_eq
  rw [fromBe32_toNat]
  have := w.isLt
  simp only [be32, List.getD_cons_zero, List.getD_cons_succ, BitVec.extractLsb'_toNat, Nat.shiftRight_eq_div_pow]
  omega

theorem be32_fromBe32 {b : List Byte} (h : b.length = 4) : be32 (fromBe32 b) = b := by
  match b, h with
  | [x0, x1, x2, x3], _ =>
    have ht := fromBe32_toNat [x0, x1, x2, x3]
    have h0 := x0.isLt
    have h1 := x1.isLt
    have h2 := x2.isLt
    have h3 := x3.isLt
    simp only [List.getD_cons_zero, List.getD_cons_succ] at ht
    simp only [be32, List.cons.injEq, and_true]
    refine ⟨?_, ?_, ?_, ?_⟩ <;> apply BitVec.eq_of_toNat_eq <;>
      simp only [BitVec.extractLsb'_toNat, Nat.shiftRight_eq_div_pow, ht] <;> omega

@[simp] theorem slice_length {α : Type} (s : List α) (i j : Nat) : (slice s i j).length = min (j - i) (s.length - i) := by
  simp [slice]

@[simp] theorem pack_length (lr : Word × Word) : (pack lr).length = 8 := rfl

/-- `Unpack(Pack(L, R)) = (L, R)` (R156). -/
@[simp] theorem unpack_pack (lr : Word × Word) : unpack (pack lr) = lr := by
  obtain ⟨l, r⟩ := lr
  have h1 : slice (pack (l, r)) 0 4 = be32 l := rfl
  have h2 : slice (pack (l, r)) 4 8 = be32 r := rfl
  rw [unpack, h1, h2, fromBe32_be32, fromBe32_be32]

/-- `Pack(Unpack(b)) = b` for an 8-byte block (R156). -/
theorem pack_unpack {b : List Byte} (h : b.length = 8) : pack (unpack b) = b := by
  rw [pack, unpack, be32_fromBe32 (by simp [h]), be32_fromBe32 (by simp [h])]
  simp only [slice, List.drop_zero, Nat.sub_zero, Nat.reduceSub]
  rw [List.take_of_length_le (l := b.drop 4) (by simp [h]), List.take_append_drop]

theorem padCount_pos (n : Nat) : 1 ≤ padCount n := by unfold padCount; omega

theorem padCount_le (n : Nat) : padCount n ≤ 8 := by unfold padCount; omega

theorem pad_length (d : List Byte) : (pad d).length = d.length + padCount d.length := by simp [pad]

@[simp] theorem digestWords_length (d : Digest) : (digestWords d).length = 8 := rfl

theorem roundKeyWords_length_le (p : Params) (key : List Byte) (rounds : Nat) :
    (roundKeyWords p key rounds).length ≤ rounds := by
  simp only [roundKeyWords, List.length_take]
  omega

end Sys2Proof.Machine
end

