-- ==== Sys2Proof/Laws/Cells.lean ====
section
/-! SUPPORT. What each operation over the stores does: read after write, the canonical form kept, and equal specified
content is equal data. -/

namespace Sys2Proof.Machine.Cells

variable {α : Type}

@[simp] theorem lookup_nil (a : Nat) : lookup ([] : List (Nat × α)) a = none := rfl

/-- A read after a write gives the value written, and a write leaves every other place alone. -/
theorem lookup_write (cells : List (Nat × α)) (a : Nat) (v : α) (b : Nat) :
    lookup (write cells a v) b = if b = a then some v else lookup cells b := by
  induction cells with
  | nil => simp [write, lookup]
  | cons c rest ih =>
    obtain ⟨x, w⟩ := c
    simp only [write]
    split
    · simp [lookup]
    · split
      · subst_vars
        simp only [lookup]
        split <;> rfl
      · simp only [lookup, ih]
        split
        · subst_vars
          rw [if_neg (by omega)]
        · rfl

theorem lookup_writeSeq (vs : List α) : ∀ (cells : List (Nat × α)) (a b : Nat),
    lookup (writeSeq cells a vs) b =
      if a ≤ b ∧ b < a + vs.length then vs[b - a]? else lookup cells b := by
  induction vs with
  | nil => intro cells a b; rw [if_neg (by simp)]; rfl
  | cons v rest ih =>
    intro cells a b
    rw [writeSeq, ih, lookup_write]
    by_cases h : a + 1 ≤ b ∧ b < a + 1 + rest.length
    · rw [if_pos h, if_pos (by simp; omega)]
      obtain ⟨n, rfl⟩ : ∃ n, b = a + 1 + n := ⟨b - (a + 1), by omega⟩
      rw [show a + 1 + n - (a + 1) = n by omega, show a + 1 + n - a = n + 1 by omega]
      rfl
    · rw [if_neg h]
      by_cases hb : b = a
      · subst hb
        rw [if_pos rfl, if_pos (by simp)]
        simp
      · rw [if_neg hb, if_neg (by simp; omega)]

theorem lookup_keepBelow (cells : List (Nat × α)) (n b : Nat) :
    lookup (keepBelow cells n) b = if b < n then lookup cells b else none := by
  induction cells with
  | nil => simp [keepBelow]
  | cons c rest ih =>
    obtain ⟨x, w⟩ := c
    simp only [keepBelow] at ih
    by_cases hx : x < n
    · simp only [keepBelow, List.filter_cons, hx, decide_true, if_true, lookup, ih]
      by_cases hb : b = x
      · subst hb; simp [hx]
      · simp [hb]
    · simp only [keepBelow, List.filter_cons, hx, decide_false, lookup, Bool.false_eq_true, if_false, ih]
      by_cases hb : b = x
      · subst hb; simp [hx]
      · simp [hb]

@[simp] theorem keepBelow_zero (cells : List (Nat × α)) : keepBelow cells 0 = [] := by simp [keepBelow]

theorem wf_iff (cells : List (Nat × α)) : wf cells = true ↔ (cells.map Prod.fst).Pairwise (· < ·) := by simp [wf]

/-- Every address of a written list is the written one or an address that was there. -/
theorem mem_write {cells : List (Nat × α)} {a : Nat} {v : α} {c : Nat × α} (h : c ∈ write cells a v) :
    c = (a, v) ∨ c ∈ cells := by
  induction cells with
  | nil => simpa [write] using h
  | cons d rest ih =>
    obtain ⟨x, w⟩ := d
    simp only [write] at h
    split at h
    · rcases List.mem_cons.1 h with h | h
      · exact .inl h
      · exact .inr h
    · split at h
      · rcases List.mem_cons.1 h with h | h
        · exact .inl h
        · exact .inr (List.mem_cons_of_mem _ h)
      · rcases List.mem_cons.1 h with h | h
        · exact .inr (by simp [h])
        · rcases ih h with h | h
          · exact .inl h
          · exact .inr (List.mem_cons_of_mem _ h)

theorem wf_write {cells : List (Nat × α)} (a : Nat) (v : α) (h : wf cells = true) :
    wf (write cells a v) = true := by
  rw [wf_iff] at *
  induction cells with
  | nil => simp [write]
  | cons d rest ih =>
    obtain ⟨x, w⟩ := d
    simp only [List.map_cons, List.pairwise_cons, List.mem_map, forall_exists_index, and_imp] at h
    simp only [write]
    split
    · simp only [List.map_cons, List.pairwise_cons, List.mem_cons, List.mem_map]
      refine ⟨?_, ?_, h.2⟩
      · rintro y (rfl | ⟨c, hc, rfl⟩)
        · assumption
        · exact Nat.lt_trans ‹_› (h.1 _ c hc rfl)
      · rintro y ⟨c, hc, rfl⟩; exact h.1 _ c hc rfl
    · split
      · subst_vars
        simp only [List.map_cons, List.pairwise_cons, List.mem_map]
        exact ⟨by rintro y ⟨c, hc, rfl⟩; exact h.1 _ c hc rfl, h.2⟩
      · simp only [List.map_cons, List.pairwise_cons, List.mem_map]
        refine ⟨?_, ih h.2⟩
        rintro y ⟨c, hc, rfl⟩
        rcases mem_write hc with rfl | hc
        · simp only; omega
        · exact h.1 _ c hc rfl

theorem mem_writeSeq {vs : List α} : ∀ {cells : List (Nat × α)} {a : Nat} {c : Nat × α},
    c ∈ writeSeq cells a vs → (a ≤ c.1 ∧ c.1 < a + vs.length) ∨ c ∈ cells := by
  induction vs with
  | nil => intro cells a c h; exact .inr h
  | cons v rest ih =>
    intro cells a c h
    rcases ih h with h | h
    · exact .inl (by simp only [List.length_cons]; omega)
    · rcases mem_write h with rfl | h
      · exact .inl (by simp)
      · exact .inr h

theorem wf_writeSeq (vs : List α) : ∀ {cells : List (Nat × α)} (a : Nat),
    wf cells = true → wf (writeSeq cells a vs) = true := by
  induction vs with
  | nil => intro cells a h; exact h
  | cons v rest ih => intro cells a h; exact ih _ (wf_write _ _ h)

theorem mem_keepBelow {cells : List (Nat × α)} {n : Nat} {c : Nat × α} :
    c ∈ keepBelow cells n ↔ c ∈ cells ∧ c.1 < n := by simp [keepBelow]

theorem wf_keepBelow {cells : List (Nat × α)} (n : Nat) (h : wf cells = true) : wf (keepBelow cells n) = true := by
  rw [wf_iff] at *
  exact h.sublist (List.Sublist.map _ List.filter_sublist)

theorem lookup_eq_none_of_lt {cells : List (Nat × α)} {a : Nat} (h : ∀ c ∈ cells, a < c.1) :
    lookup cells a = none := by
  induction cells with
  | nil => rfl
  | cons c rest ih =>
    obtain ⟨x, w⟩ := c
    have := h (x, w) (by simp)
    simp only [lookup]
    rw [if_neg (by simp only at this; omega)]
    exact ih fun c hc => h c (List.mem_cons_of_mem _ hc)

theorem wf_cons {c : Nat × α} {rest : List (Nat × α)} (h : wf (c :: rest) = true) :
    (∀ d ∈ rest, c.1 < d.1) ∧ wf rest = true := by
  rw [wf_iff] at *
  simp only [List.map_cons, List.pairwise_cons, List.mem_map, forall_exists_index, and_imp] at h
  exact ⟨fun d hd => h.1 _ d hd rfl, h.2⟩

/-- Two canonical lists with the same specified content are the same list. -/
theorem ext : ∀ {x y : List (Nat × α)}, wf x = true → wf y = true → (∀ a, lookup x a = lookup y a) → x = y
  | [], [], _, _, _ => rfl
  | [], (b, w) :: ys, _, _, h => by have := h b; simp [lookup] at this
  | (b, w) :: xs, [], _, _, h => by have := h b; simp [lookup] at this
  | (a, v) :: xs, (b, w) :: ys, hx, hy, h => by
    obtain ⟨hx1, hx2⟩ := wf_cons hx
    obtain ⟨hy1, hy2⟩ := wf_cons hy
    have hab : a = b := by
      rcases Nat.lt_trichotomy a b with hlt | heq | hlt
      · have := h a
        rw [lookup_eq_none_of_lt (cells := (b, w) :: ys)] at this
        · simp [lookup] at this
        · intro c hc
          rcases List.mem_cons.1 hc with rfl | hc
          · exact hlt
          · exact Nat.lt_trans hlt (hy1 c hc)
      · exact heq
      · have := h b
        rw [lookup_eq_none_of_lt (cells := (a, v) :: xs)] at this
        · simp [lookup] at this
        · intro c hc
          rcases List.mem_cons.1 hc with rfl | hc
          · exact hlt
          · exact Nat.lt_trans hlt (hx1 c hc)
    subst hab
    have hv : v = w := by have := h a; simpa [lookup] using this
    subst hv
    congr 1
    refine ext hx2 hy2 fun d => ?_
    by_cases hd : d = a
    · subst hd; rw [lookup_eq_none_of_lt hx1, lookup_eq_none_of_lt hy1]
    · have := h d; simpa [lookup, hd] using this

end Sys2Proof.Machine.Cells

namespace Sys2Proof.Machine

variable {α : Type}

@[simp] theorem Store.read_write (free : Nat → Nat → α) (m : Store α) (a b : Nat) (v : α) :
    (m.write a v).read free b = if b = a then v else m.read free b := by
  simp only [Store.read, Store.write, Cells.lookup_write]
  split <;> rfl

theorem Store.read_writeSeq (free : Nat → Nat → α) (m : Store α) (a b : Nat) (vs : List α) :
    (m.writeSeq a vs).read free b =
      if h : a ≤ b ∧ b < a + vs.length then vs[b - a]'(by omega) else m.read free b := by
  simp only [Store.read, Store.writeSeq, Cells.lookup_writeSeq]
  split
  · rw [List.getElem?_eq_getElem (by omega)]; rfl
  · rfl

theorem Store.read_forgetFrom (free : Nat → Nat → α) (m : Store α) (n g b : Nat) (h : b < n)
    (hl : Cells.lookup m.cells b ≠ none) : (m.forgetFrom n g).read free b = m.read free b := by
  simp only [Store.read, Store.forgetFrom, Cells.lookup_keepBelow, h, if_true]
  cases hc : Cells.lookup m.cells b with
  | none => exact absurd hc hl
  | some v => rfl

theorem Store.wf_write {m : Store α} (a : Nat) (v : α) (h : m.wf = true) : (m.write a v).wf = true :=
  Cells.wf_write a v h

theorem Store.wf_writeSeq {m : Store α} (a : Nat) (vs : List α) (h : m.wf = true) : (m.writeSeq a vs).wf = true :=
  Cells.wf_writeSeq vs a h

theorem Store.wf_forgetFrom {m : Store α} (n g : Nat) (h : m.wf = true) : (m.forgetFrom n g).wf = true :=
  Cells.wf_keepBelow n h

theorem Store.wf_unspecified (g : Nat) : (Store.unspecified g : Store α).wf = true := rfl

@[simp] theorem Store.write_gen (m : Store α) (a : Nat) (v : α) : (m.write a v).gen = m.gen := rfl

@[simp] theorem Store.writeSeq_gen (m : Store α) (a : Nat) (vs : List α) : (m.writeSeq a vs).gen = m.gen := rfl

@[simp] theorem Store.forgetFrom_gen (m : Store α) (n g : Nat) : (m.forgetFrom n g).gen = g := rfl

end Sys2Proof.Machine
end

