-- ==== Sys2Proof/Laws/Config.lean ====
section
/-! SUPPORT. The parameters' ranges (spec 00_scope.md R9, R10), and that the capacity tests compare with the capacity. -/

namespace Sys2Proof.Config

theorem one_le_capKey : 1 ≤ capKey := Nat.le_add_left _ _

theorem eight_le_capIn : 8 ≤ capIn := Nat.le_add_left _ _

theorem eight_le_capRk : 8 ≤ capRk := Nat.le_add_left _ _

theorem sixteen_le_capOut : 16 ≤ capOut := Nat.add_le_add_right eight_le_capIn 8

theorem capKey_lt : capKey < 2 ^ 32 := by
  have h := capKeyOffset.isLt
  unfold capKey
  omega

theorem capOut_lt : capOut < 2 ^ 32 := by
  have h := capInOffset.isLt
  unfold capOut capIn
  omega

theorem capIn_lt : capIn < 2 ^ 32 := Nat.lt_of_le_of_lt (Nat.le_add_right _ 8) capOut_lt

theorem capRk_lt : capRk < 2 ^ 32 := by
  have h := capRkOffset.isLt
  unfold capRk
  omega

theorem atMost_iff {low cap n : Nat} (h : low ≤ cap) : atMost low cap n = true ↔ n ≤ cap := by
  simp only [atMost, Bool.or_eq_true, decide_eq_true_eq]
  omega

theorem under_iff {low cap a : Nat} (h : low ≤ cap) : under low cap a = true ↔ a < cap := by
  simp only [under, Bool.or_eq_true, decide_eq_true_eq]
  omega

@[simp] theorem fitsKey_iff (n : Nat) : fitsKey n = true ↔ n ≤ capKey := atMost_iff one_le_capKey

@[simp] theorem fitsIn_iff (n : Nat) : fitsIn n = true ↔ n ≤ capIn := atMost_iff eight_le_capIn

@[simp] theorem fitsRk_iff (n : Nat) : fitsRk n = true ↔ n ≤ capRk := atMost_iff eight_le_capRk

@[simp] theorem hasEntry_iff (i : Nat) : hasEntry i = true ↔ i < capRk := under_iff eight_le_capRk

@[simp] theorem hasAddress_key (a : Nat) : hasAddress .key a = true ↔ a < capKey := under_iff one_le_capKey

@[simp] theorem hasAddress_inp (a : Nat) : hasAddress .inp a = true ↔ a < capIn := under_iff eight_le_capIn

@[simp] theorem hasAddress_out (a : Nat) : hasAddress .out a = true ↔ a < capOut := under_iff sixteen_le_capOut

/-- `C_MUL` is odd (R9). -/
theorem cMul_odd (p : Params) : p.cMul.getLsbD 0 = true := by
  unfold Params.cMul
  rw [BitVec.getLsbD_append]
  rfl

end Sys2Proof.Config
end

