-- ==== Sys2Proof/Laws/State.lean ====
section
/-! SUPPORT. One lemma per field per update: what each named update of the state (Machine/Ops.lean, RoundFunction.lean,
HostInterface.lean, Sequencer.lean) leaves in each field. -/

namespace Sys2Proof.Machine.State

variable (s : State)

/-! ## memWriteOut -/

@[simp] theorem memWriteOut_cmd (a : Nat) (v : List Byte) : (s.memWriteOut a v).cmd = s.cmd := rfl
@[simp] theorem memWriteOut_phase (a : Nat) (v : List Byte) : (s.memWriteOut a v).phase = s.phase := rfl
@[simp] theorem memWriteOut_done (a : Nat) (v : List Byte) : (s.memWriteOut a v).done = s.done := rfl
@[simp] theorem memWriteOut_err (a : Nat) (v : List Byte) : (s.memWriteOut a v).err = s.err := rfl
@[simp] theorem memWriteOut_errCode (a : Nat) (v : List Byte) : (s.memWriteOut a v).errCode = s.errCode := rfl
@[simp] theorem memWriteOut_ie (a : Nat) (v : List Byte) : (s.memWriteOut a v).ie = s.ie := rfl
@[simp] theorem memWriteOut_rounds (a : Nat) (v : List Byte) : (s.memWriteOut a v).rounds = s.rounds := rfl
@[simp] theorem memWriteOut_keyLen (a : Nat) (v : List Byte) : (s.memWriteOut a v).keyLen = s.keyLen := rfl
@[simp] theorem memWriteOut_inLen (a : Nat) (v : List Byte) : (s.memWriteOut a v).inLen = s.inLen := rfl
@[simp] theorem memWriteOut_outLen (a : Nat) (v : List Byte) : (s.memWriteOut a v).outLen = s.outLen := rfl
@[simp] theorem memWriteOut_rkLen (a : Nat) (v : List Byte) : (s.memWriteOut a v).rkLen = s.rkLen := rfl
@[simp] theorem memWriteOut_rkIdx (a : Nat) (v : List Byte) : (s.memWriteOut a v).rkIdx = s.rkIdx := rfl
@[simp] theorem memWriteOut_mixA (a : Nat) (v : List Byte) : (s.memWriteOut a v).mixA = s.mixA := rfl
@[simp] theorem memWriteOut_mixK (a : Nat) (v : List Byte) : (s.memWriteOut a v).mixK = s.mixK := rfl
@[simp] theorem memWriteOut_mixY (a : Nat) (v : List Byte) : (s.memWriteOut a v).mixY = s.mixY := rfl
@[simp] theorem memWriteOut_l (a : Nat) (v : List Byte) : (s.memWriteOut a v).l = s.l := rfl
@[simp] theorem memWriteOut_r (a : Nat) (v : List Byte) : (s.memWriteOut a v).r = s.r := rfl
@[simp] theorem memWriteOut_rk (a : Nat) (v : List Byte) : (s.memWriteOut a v).rk = s.rk := rfl
@[simp] theorem memWriteOut_key (a : Nat) (v : List Byte) : (s.memWriteOut a v).key = s.key := rfl
@[simp] theorem memWriteOut_inp (a : Nat) (v : List Byte) : (s.memWriteOut a v).inp = s.inp := rfl
@[simp] theorem memWriteOut_out (a : Nat) (v : List Byte) : (s.memWriteOut a v).out = s.out.writeSeq a v := rfl
@[simp] theorem memWriteOut_seq (a : Nat) (v : List Byte) : (s.memWriteOut a v).seq = s.seq := rfl
@[simp] theorem memWriteOut_inputs (a : Nat) (v : List Byte) : (s.memWriteOut a v).inputs = s.inputs := rfl
@[simp] theorem memWriteOut_bus (a : Nat) (v : List Byte) : (s.memWriteOut a v).bus = s.bus := rfl
@[simp] theorem memWriteOut_draws (a : Nat) (v : List Byte) : (s.memWriteOut a v).draws = s.draws := rfl

/-! ## writeRk -/

@[simp] theorem writeRk_cmd (i : Nat) (v : List Word) : (s.writeRk i v).cmd = s.cmd := rfl
@[simp] theorem writeRk_phase (i : Nat) (v : List Word) : (s.writeRk i v).phase = s.phase := rfl
@[simp] theorem writeRk_done (i : Nat) (v : List Word) : (s.writeRk i v).done = s.done := rfl
@[simp] theorem writeRk_err (i : Nat) (v : List Word) : (s.writeRk i v).err = s.err := rfl
@[simp] theorem writeRk_errCode (i : Nat) (v : List Word) : (s.writeRk i v).errCode = s.errCode := rfl
@[simp] theorem writeRk_ie (i : Nat) (v : List Word) : (s.writeRk i v).ie = s.ie := rfl
@[simp] theorem writeRk_rounds (i : Nat) (v : List Word) : (s.writeRk i v).rounds = s.rounds := rfl
@[simp] theorem writeRk_keyLen (i : Nat) (v : List Word) : (s.writeRk i v).keyLen = s.keyLen := rfl
@[simp] theorem writeRk_inLen (i : Nat) (v : List Word) : (s.writeRk i v).inLen = s.inLen := rfl
@[simp] theorem writeRk_outLen (i : Nat) (v : List Word) : (s.writeRk i v).outLen = s.outLen := rfl
@[simp] theorem writeRk_rkLen (i : Nat) (v : List Word) : (s.writeRk i v).rkLen = s.rkLen := rfl
@[simp] theorem writeRk_rkIdx (i : Nat) (v : List Word) : (s.writeRk i v).rkIdx = s.rkIdx := rfl
@[simp] theorem writeRk_mixA (i : Nat) (v : List Word) : (s.writeRk i v).mixA = s.mixA := rfl
@[simp] theorem writeRk_mixK (i : Nat) (v : List Word) : (s.writeRk i v).mixK = s.mixK := rfl
@[simp] theorem writeRk_mixY (i : Nat) (v : List Word) : (s.writeRk i v).mixY = s.mixY := rfl
@[simp] theorem writeRk_l (i : Nat) (v : List Word) : (s.writeRk i v).l = s.l := rfl
@[simp] theorem writeRk_r (i : Nat) (v : List Word) : (s.writeRk i v).r = s.r := rfl
@[simp] theorem writeRk_rk (i : Nat) (v : List Word) : (s.writeRk i v).rk = s.rk.writeSeq i v := rfl
@[simp] theorem writeRk_key (i : Nat) (v : List Word) : (s.writeRk i v).key = s.key := rfl
@[simp] theorem writeRk_inp (i : Nat) (v : List Word) : (s.writeRk i v).inp = s.inp := rfl
@[simp] theorem writeRk_out (i : Nat) (v : List Word) : (s.writeRk i v).out = s.out := rfl
@[simp] theorem writeRk_seq (i : Nat) (v : List Word) : (s.writeRk i v).seq = s.seq := rfl
@[simp] theorem writeRk_inputs (i : Nat) (v : List Word) : (s.writeRk i v).inputs = s.inputs := rfl
@[simp] theorem writeRk_bus (i : Nat) (v : List Word) : (s.writeRk i v).bus = s.bus := rfl
@[simp] theorem writeRk_draws (i : Nat) (v : List Word) : (s.writeRk i v).draws = s.draws := rfl

/-! ## setOutLen -/

@[simp] theorem setOutLen_cmd (n : Nat) : (s.setOutLen n).cmd = s.cmd := rfl
@[simp] theorem setOutLen_phase (n : Nat) : (s.setOutLen n).phase = s.phase := rfl
@[simp] theorem setOutLen_done (n : Nat) : (s.setOutLen n).done = s.done := rfl
@[simp] theorem setOutLen_err (n : Nat) : (s.setOutLen n).err = s.err := rfl
@[simp] theorem setOutLen_errCode (n : Nat) : (s.setOutLen n).errCode = s.errCode := rfl
@[simp] theorem setOutLen_ie (n : Nat) : (s.setOutLen n).ie = s.ie := rfl
@[simp] theorem setOutLen_rounds (n : Nat) : (s.setOutLen n).rounds = s.rounds := rfl
@[simp] theorem setOutLen_keyLen (n : Nat) : (s.setOutLen n).keyLen = s.keyLen := rfl
@[simp] theorem setOutLen_inLen (n : Nat) : (s.setOutLen n).inLen = s.inLen := rfl
@[simp] theorem setOutLen_outLen (n : Nat) : (s.setOutLen n).outLen = BitVec.ofNat 32 n := rfl
@[simp] theorem setOutLen_rkLen (n : Nat) : (s.setOutLen n).rkLen = s.rkLen := rfl
@[simp] theorem setOutLen_rkIdx (n : Nat) : (s.setOutLen n).rkIdx = s.rkIdx := rfl
@[simp] theorem setOutLen_mixA (n : Nat) : (s.setOutLen n).mixA = s.mixA := rfl
@[simp] theorem setOutLen_mixK (n : Nat) : (s.setOutLen n).mixK = s.mixK := rfl
@[simp] theorem setOutLen_mixY (n : Nat) : (s.setOutLen n).mixY = s.mixY := rfl
@[simp] theorem setOutLen_l (n : Nat) : (s.setOutLen n).l = s.l := rfl
@[simp] theorem setOutLen_r (n : Nat) : (s.setOutLen n).r = s.r := rfl
@[simp] theorem setOutLen_rk (n : Nat) : (s.setOutLen n).rk = s.rk := rfl
@[simp] theorem setOutLen_key (n : Nat) : (s.setOutLen n).key = s.key := rfl
@[simp] theorem setOutLen_inp (n : Nat) : (s.setOutLen n).inp = s.inp := rfl
@[simp] theorem setOutLen_out (n : Nat) : (s.setOutLen n).out = s.out := rfl
@[simp] theorem setOutLen_seq (n : Nat) : (s.setOutLen n).seq = s.seq := rfl
@[simp] theorem setOutLen_inputs (n : Nat) : (s.setOutLen n).inputs = s.inputs := rfl
@[simp] theorem setOutLen_bus (n : Nat) : (s.setOutLen n).bus = s.bus := rfl
@[simp] theorem setOutLen_draws (n : Nat) : (s.setOutLen n).draws = s.draws := rfl

/-! ## start -/

@[simp] theorem start_cmd (v : Word) : (s.start v).cmd = v := rfl
@[simp] theorem start_phase (v : Word) : (s.start v).phase = .run := rfl
@[simp] theorem start_done (v : Word) : (s.start v).done = false := rfl
@[simp] theorem start_err (v : Word) : (s.start v).err = false := rfl
@[simp] theorem start_errCode (v : Word) : (s.start v).errCode = 0 := rfl
@[simp] theorem start_ie (v : Word) : (s.start v).ie = s.ie := rfl
@[simp] theorem start_rounds (v : Word) : (s.start v).rounds = s.rounds := rfl
@[simp] theorem start_keyLen (v : Word) : (s.start v).keyLen = s.keyLen := rfl
@[simp] theorem start_inLen (v : Word) : (s.start v).inLen = s.inLen := rfl
@[simp] theorem start_outLen (v : Word) : (s.start v).outLen = s.outLen := rfl
@[simp] theorem start_rkLen (v : Word) : (s.start v).rkLen = s.rkLen := rfl
@[simp] theorem start_rkIdx (v : Word) : (s.start v).rkIdx = s.rkIdx := rfl
@[simp] theorem start_mixA (v : Word) : (s.start v).mixA = s.mixA := rfl
@[simp] theorem start_mixK (v : Word) : (s.start v).mixK = s.mixK := rfl
@[simp] theorem start_mixY (v : Word) : (s.start v).mixY = s.mixY := rfl
@[simp] theorem start_l (v : Word) : (s.start v).l = s.l := rfl
@[simp] theorem start_r (v : Word) : (s.start v).r = s.r := rfl
@[simp] theorem start_rk (v : Word) : (s.start v).rk = s.rk := rfl
@[simp] theorem start_key (v : Word) : (s.start v).key = s.key := rfl
@[simp] theorem start_inp (v : Word) : (s.start v).inp = s.inp := rfl
@[simp] theorem start_out (v : Word) : (s.start v).out = s.out := rfl
@[simp] theorem start_seq (v : Word) : (s.start v).seq = { s.seq with sub := .sCheck } := rfl
@[simp] theorem start_inputs (v : Word) : (s.start v).inputs = s.inputs := rfl
@[simp] theorem start_bus (v : Word) : (s.start v).bus = s.bus := rfl
@[simp] theorem start_draws (v : Word) : (s.start v).draws = s.draws := rfl

/-! ## endCommand -/

@[simp] theorem endCommand_cmd (d k : Bool) : (s.endCommand d k).cmd = s.cmd := rfl
@[simp] theorem endCommand_phase (d k : Bool) : (s.endCommand d k).phase = .idle := rfl
@[simp] theorem endCommand_done (d k : Bool) : (s.endCommand d k).done = true := rfl
@[simp] theorem endCommand_err (d k : Bool) : (s.endCommand d k).err = false := rfl
@[simp] theorem endCommand_errCode (d k : Bool) : (s.endCommand d k).errCode = 0 := rfl
@[simp] theorem endCommand_ie (d k : Bool) : (s.endCommand d k).ie = s.ie := rfl
@[simp] theorem endCommand_rounds (d k : Bool) : (s.endCommand d k).rounds = s.rounds := rfl
@[simp] theorem endCommand_keyLen (d k : Bool) : (s.endCommand d k).keyLen = s.keyLen := rfl
@[simp] theorem endCommand_inLen (d k : Bool) : (s.endCommand d k).inLen = s.inLen := rfl
@[simp] theorem endCommand_outLen (d k : Bool) : (s.endCommand d k).outLen = s.outLen := rfl
@[simp] theorem endCommand_rkLen (d k : Bool) : (s.endCommand d k).rkLen = s.rkLen := rfl
@[simp] theorem endCommand_rkIdx (d k : Bool) : (s.endCommand d k).rkIdx = s.rkIdx := rfl
@[simp] theorem endCommand_mixA (d k : Bool) : (s.endCommand d k).mixA = s.mixA := rfl
@[simp] theorem endCommand_mixK (d k : Bool) : (s.endCommand d k).mixK = s.mixK := rfl
@[simp] theorem endCommand_mixY (d k : Bool) : (s.endCommand d k).mixY = s.mixY := rfl
@[simp] theorem endCommand_l (d k : Bool) :
    (s.endCommand d k).l = if k then s.l else (Config.freePair s.draws).1 := rfl
@[simp] theorem endCommand_r (d k : Bool) :
    (s.endCommand d k).r = if k then s.r else (Config.freePair s.draws).2 := rfl
@[simp] theorem endCommand_rk (d k : Bool) :
    (s.endCommand d k).rk = if d then s.rk.forgetFrom s.rkLen.toNat s.draws else s.rk := rfl
@[simp] theorem endCommand_key (d k : Bool) : (s.endCommand d k).key = s.key := rfl
@[simp] theorem endCommand_inp (d k : Bool) : (s.endCommand d k).inp = s.inp := rfl
@[simp] theorem endCommand_out (d k : Bool) : (s.endCommand d k).out = s.out.forgetFrom s.outLen.toNat s.draws := rfl
@[simp] theorem endCommand_seq (d k : Bool) : (s.endCommand d k).seq = Config.freeSequencer s.draws := rfl
@[simp] theorem endCommand_inputs (d k : Bool) : (s.endCommand d k).inputs = s.inputs := rfl
@[simp] theorem endCommand_bus (d k : Bool) : (s.endCommand d k).bus = s.bus := rfl
@[simp] theorem endCommand_draws (d k : Bool) : (s.endCommand d k).draws = s.draws + 1 := rfl

/-! ## failCommand -/

@[simp] theorem failCommand_cmd (d : Bool) (k : ErrorKind) : (s.failCommand d k).cmd = s.cmd := rfl
@[simp] theorem failCommand_phase (d : Bool) (k : ErrorKind) : (s.failCommand d k).phase = .idle := rfl
@[simp] theorem failCommand_done (d : Bool) (k : ErrorKind) : (s.failCommand d k).done = true := rfl
@[simp] theorem failCommand_err (d : Bool) (k : ErrorKind) : (s.failCommand d k).err = true := rfl
@[simp] theorem failCommand_errCode (d : Bool) (k : ErrorKind) : (s.failCommand d k).errCode = k.code := rfl
@[simp] theorem failCommand_ie (d : Bool) (k : ErrorKind) : (s.failCommand d k).ie = s.ie := rfl
@[simp] theorem failCommand_rounds (d : Bool) (k : ErrorKind) : (s.failCommand d k).rounds = s.rounds := rfl
@[simp] theorem failCommand_keyLen (d : Bool) (k : ErrorKind) : (s.failCommand d k).keyLen = s.keyLen := rfl
@[simp] theorem failCommand_inLen (d : Bool) (k : ErrorKind) : (s.failCommand d k).inLen = s.inLen := rfl
@[simp] theorem failCommand_outLen (d : Bool) (k : ErrorKind) : (s.failCommand d k).outLen = 0 := rfl
@[simp] theorem failCommand_rkLen (d : Bool) (k : ErrorKind) :
    (s.failCommand d k).rkLen = if d then 0 else s.rkLen := rfl
@[simp] theorem failCommand_rkIdx (d : Bool) (k : ErrorKind) : (s.failCommand d k).rkIdx = s.rkIdx := rfl
@[simp] theorem failCommand_mixA (d : Bool) (k : ErrorKind) : (s.failCommand d k).mixA = s.mixA := rfl
@[simp] theorem failCommand_mixK (d : Bool) (k : ErrorKind) : (s.failCommand d k).mixK = s.mixK := rfl
@[simp] theorem failCommand_mixY (d : Bool) (k : ErrorKind) : (s.failCommand d k).mixY = s.mixY := rfl
@[simp] theorem failCommand_l (d : Bool) (k : ErrorKind) : (s.failCommand d k).l = (Config.freePair s.draws).1 := rfl
@[simp] theorem failCommand_r (d : Bool) (k : ErrorKind) : (s.failCommand d k).r = (Config.freePair s.draws).2 := rfl
@[simp] theorem failCommand_rk (d : Bool) (k : ErrorKind) :
    (s.failCommand d k).rk = if d then s.rk.forgetFrom 0 s.draws else s.rk := rfl
@[simp] theorem failCommand_key (d : Bool) (k : ErrorKind) : (s.failCommand d k).key = s.key := rfl
@[simp] theorem failCommand_inp (d : Bool) (k : ErrorKind) : (s.failCommand d k).inp = s.inp := rfl
@[simp] theorem failCommand_out (d : Bool) (k : ErrorKind) :
    (s.failCommand d k).out = s.out.forgetFrom 0 s.draws := rfl
@[simp] theorem failCommand_seq (d : Bool) (k : ErrorKind) :
    (s.failCommand d k).seq = Config.freeSequencer s.draws := rfl
@[simp] theorem failCommand_inputs (d : Bool) (k : ErrorKind) : (s.failCommand d k).inputs = s.inputs := rfl
@[simp] theorem failCommand_bus (d : Bool) (k : ErrorKind) : (s.failCommand d k).bus = s.bus := rfl
@[simp] theorem failCommand_draws (d : Bool) (k : ErrorKind) : (s.failCommand d k).draws = s.draws + 1 := rfl

/-! ## acknowledge -/

@[simp] theorem acknowledge_cmd : s.acknowledge.cmd = s.cmd := rfl
@[simp] theorem acknowledge_phase : s.acknowledge.phase = s.phase := rfl
@[simp] theorem acknowledge_done : s.acknowledge.done = false := rfl
@[simp] theorem acknowledge_err : s.acknowledge.err = s.err := rfl
@[simp] theorem acknowledge_errCode : s.acknowledge.errCode = s.errCode := rfl
@[simp] theorem acknowledge_ie : s.acknowledge.ie = s.ie := rfl
@[simp] theorem acknowledge_rounds : s.acknowledge.rounds = s.rounds := rfl
@[simp] theorem acknowledge_keyLen : s.acknowledge.keyLen = s.keyLen := rfl
@[simp] theorem acknowledge_inLen : s.acknowledge.inLen = s.inLen := rfl
@[simp] theorem acknowledge_outLen : s.acknowledge.outLen = s.outLen := rfl
@[simp] theorem acknowledge_rkLen : s.acknowledge.rkLen = s.rkLen := rfl
@[simp] theorem acknowledge_rkIdx : s.acknowledge.rkIdx = s.rkIdx := rfl
@[simp] theorem acknowledge_mixA : s.acknowledge.mixA = s.mixA := rfl
@[simp] theorem acknowledge_mixK : s.acknowledge.mixK = s.mixK := rfl
@[simp] theorem acknowledge_mixY : s.acknowledge.mixY = s.mixY := rfl
@[simp] theorem acknowledge_l : s.acknowledge.l = s.l := rfl
@[simp] theorem acknowledge_r : s.acknowledge.r = s.r := rfl
@[simp] theorem acknowledge_rk : s.acknowledge.rk = s.rk := rfl
@[simp] theorem acknowledge_key : s.acknowledge.key = s.key := rfl
@[simp] theorem acknowledge_inp : s.acknowledge.inp = s.inp := rfl
@[simp] theorem acknowledge_out : s.acknowledge.out = s.out := rfl
@[simp] theorem acknowledge_seq : s.acknowledge.seq = s.seq := rfl
@[simp] theorem acknowledge_inputs : s.acknowledge.inputs = s.inputs := rfl
@[simp] theorem acknowledge_bus : s.acknowledge.bus = s.bus := rfl
@[simp] theorem acknowledge_draws : s.acknowledge.draws = s.draws := rfl

/-! ## deliver -/

@[simp] theorem deliver_cmd (d : BusData) : (s.deliver d).cmd = s.cmd := rfl
@[simp] theorem deliver_phase (d : BusData) : (s.deliver d).phase = s.phase := rfl
@[simp] theorem deliver_done (d : BusData) : (s.deliver d).done = s.done := rfl
@[simp] theorem deliver_err (d : BusData) : (s.deliver d).err = s.err := rfl
@[simp] theorem deliver_errCode (d : BusData) : (s.deliver d).errCode = s.errCode := rfl
@[simp] theorem deliver_ie (d : BusData) : (s.deliver d).ie = s.ie := rfl
@[simp] theorem deliver_rounds (d : BusData) : (s.deliver d).rounds = s.rounds := rfl
@[simp] theorem deliver_keyLen (d : BusData) : (s.deliver d).keyLen = s.keyLen := rfl
@[simp] theorem deliver_inLen (d : BusData) : (s.deliver d).inLen = s.inLen := rfl
@[simp] theorem deliver_outLen (d : BusData) : (s.deliver d).outLen = s.outLen := rfl
@[simp] theorem deliver_rkLen (d : BusData) : (s.deliver d).rkLen = s.rkLen := rfl
@[simp] theorem deliver_rkIdx (d : BusData) : (s.deliver d).rkIdx = s.rkIdx := rfl
@[simp] theorem deliver_mixA (d : BusData) : (s.deliver d).mixA = s.mixA := rfl
@[simp] theorem deliver_mixK (d : BusData) : (s.deliver d).mixK = s.mixK := rfl
@[simp] theorem deliver_mixY (d : BusData) : (s.deliver d).mixY = s.mixY := rfl
@[simp] theorem deliver_l (d : BusData) : (s.deliver d).l = s.l := rfl
@[simp] theorem deliver_r (d : BusData) : (s.deliver d).r = s.r := rfl
@[simp] theorem deliver_rk (d : BusData) : (s.deliver d).rk = s.rk := rfl
@[simp] theorem deliver_key (d : BusData) : (s.deliver d).key = s.key := rfl
@[simp] theorem deliver_inp (d : BusData) : (s.deliver d).inp = s.inp := rfl
@[simp] theorem deliver_out (d : BusData) : (s.deliver d).out = s.out := rfl
@[simp] theorem deliver_seq (d : BusData) : (s.deliver d).seq = s.seq := rfl
@[simp] theorem deliver_inputs (d : BusData) : (s.deliver d).inputs = s.inputs := rfl
@[simp] theorem deliver_bus (d : BusData) : (s.deliver d).bus = some d := rfl
@[simp] theorem deliver_draws (d : BusData) : (s.deliver d).draws = s.draws := rfl

/-! ## deliverFree -/

@[simp] theorem deliverFree_cmd (d : BusData) : (s.deliverFree d).cmd = s.cmd := rfl
@[simp] theorem deliverFree_phase (d : BusData) : (s.deliverFree d).phase = s.phase := rfl
@[simp] theorem deliverFree_done (d : BusData) : (s.deliverFree d).done = s.done := rfl
@[simp] theorem deliverFree_err (d : BusData) : (s.deliverFree d).err = s.err := rfl
@[simp] theorem deliverFree_errCode (d : BusData) : (s.deliverFree d).errCode = s.errCode := rfl
@[simp] theorem deliverFree_ie (d : BusData) : (s.deliverFree d).ie = s.ie := rfl
@[simp] theorem deliverFree_rounds (d : BusData) : (s.deliverFree d).rounds = s.rounds := rfl
@[simp] theorem deliverFree_keyLen (d : BusData) : (s.deliverFree d).keyLen = s.keyLen := rfl
@[simp] theorem deliverFree_inLen (d : BusData) : (s.deliverFree d).inLen = s.inLen := rfl
@[simp] theorem deliverFree_outLen (d : BusData) : (s.deliverFree d).outLen = s.outLen := rfl
@[simp] theorem deliverFree_rkLen (d : BusData) : (s.deliverFree d).rkLen = s.rkLen := rfl
@[simp] theorem deliverFree_rkIdx (d : BusData) : (s.deliverFree d).rkIdx = s.rkIdx := rfl
@[simp] theorem deliverFree_mixA (d : BusData) : (s.deliverFree d).mixA = s.mixA := rfl
@[simp] theorem deliverFree_mixK (d : BusData) : (s.deliverFree d).mixK = s.mixK := rfl
@[simp] theorem deliverFree_mixY (d : BusData) : (s.deliverFree d).mixY = s.mixY := rfl
@[simp] theorem deliverFree_l (d : BusData) : (s.deliverFree d).l = s.l := rfl
@[simp] theorem deliverFree_r (d : BusData) : (s.deliverFree d).r = s.r := rfl
@[simp] theorem deliverFree_rk (d : BusData) : (s.deliverFree d).rk = s.rk := rfl
@[simp] theorem deliverFree_key (d : BusData) : (s.deliverFree d).key = s.key := rfl
@[simp] theorem deliverFree_inp (d : BusData) : (s.deliverFree d).inp = s.inp := rfl
@[simp] theorem deliverFree_out (d : BusData) : (s.deliverFree d).out = s.out := rfl
@[simp] theorem deliverFree_seq (d : BusData) : (s.deliverFree d).seq = s.seq := rfl
@[simp] theorem deliverFree_inputs (d : BusData) : (s.deliverFree d).inputs = s.inputs := rfl
@[simp] theorem deliverFree_bus (d : BusData) : (s.deliverFree d).bus = some d := rfl
@[simp] theorem deliverFree_draws (d : BusData) : (s.deliverFree d).draws = s.draws + 1 := rfl

/-! ## putMix -/

@[simp] theorem putMix_cmd : s.putMix.cmd = s.cmd := rfl
@[simp] theorem putMix_phase : s.putMix.phase = s.phase := rfl
@[simp] theorem putMix_done : s.putMix.done = s.done := rfl
@[simp] theorem putMix_err : s.putMix.err = s.err := rfl
@[simp] theorem putMix_errCode : s.putMix.errCode = s.errCode := rfl
@[simp] theorem putMix_ie : s.putMix.ie = s.ie := rfl
@[simp] theorem putMix_rounds : s.putMix.rounds = s.rounds := rfl
@[simp] theorem putMix_keyLen : s.putMix.keyLen = s.keyLen := rfl
@[simp] theorem putMix_inLen : s.putMix.inLen = s.inLen := rfl
@[simp] theorem putMix_outLen : s.putMix.outLen = 0 := rfl
@[simp] theorem putMix_rkLen : s.putMix.rkLen = s.rkLen := rfl
@[simp] theorem putMix_rkIdx : s.putMix.rkIdx = s.rkIdx := rfl
@[simp] theorem putMix_mixA : s.putMix.mixA = s.mixA := rfl
@[simp] theorem putMix_mixK : s.putMix.mixK = s.mixK := rfl
@[simp] theorem putMix_mixY : s.putMix.mixY = mix Config.params s.mixA s.mixK := rfl
@[simp] theorem putMix_l : s.putMix.l = s.l := rfl
@[simp] theorem putMix_r : s.putMix.r = s.r := rfl
@[simp] theorem putMix_rk : s.putMix.rk = s.rk := rfl
@[simp] theorem putMix_key : s.putMix.key = s.key := rfl
@[simp] theorem putMix_inp : s.putMix.inp = s.inp := rfl
@[simp] theorem putMix_out : s.putMix.out = s.out := rfl
@[simp] theorem putMix_seq : s.putMix.seq = s.seq := rfl
@[simp] theorem putMix_inputs : s.putMix.inputs = s.inputs := rfl
@[simp] theorem putMix_bus : s.putMix.bus = s.bus := rfl
@[simp] theorem putMix_draws : s.putMix.draws = s.draws := rfl

/-! ## goto -/

@[simp] theorem goto_cmd (p : Position) : (s.goto p).cmd = s.cmd := rfl
@[simp] theorem goto_phase (p : Position) : (s.goto p).phase = s.phase := rfl
@[simp] theorem goto_done (p : Position) : (s.goto p).done = s.done := rfl
@[simp] theorem goto_err (p : Position) : (s.goto p).err = s.err := rfl
@[simp] theorem goto_errCode (p : Position) : (s.goto p).errCode = s.errCode := rfl
@[simp] theorem goto_ie (p : Position) : (s.goto p).ie = s.ie := rfl
@[simp] theorem goto_rounds (p : Position) : (s.goto p).rounds = s.rounds := rfl
@[simp] theorem goto_keyLen (p : Position) : (s.goto p).keyLen = s.keyLen := rfl
@[simp] theorem goto_inLen (p : Position) : (s.goto p).inLen = s.inLen := rfl
@[simp] theorem goto_outLen (p : Position) : (s.goto p).outLen = s.outLen := rfl
@[simp] theorem goto_rkLen (p : Position) : (s.goto p).rkLen = s.rkLen := rfl
@[simp] theorem goto_rkIdx (p : Position) : (s.goto p).rkIdx = s.rkIdx := rfl
@[simp] theorem goto_mixA (p : Position) : (s.goto p).mixA = s.mixA := rfl
@[simp] theorem goto_mixK (p : Position) : (s.goto p).mixK = s.mixK := rfl
@[simp] theorem goto_mixY (p : Position) : (s.goto p).mixY = s.mixY := rfl
@[simp] theorem goto_l (p : Position) : (s.goto p).l = s.l := rfl
@[simp] theorem goto_r (p : Position) : (s.goto p).r = s.r := rfl
@[simp] theorem goto_rk (p : Position) : (s.goto p).rk = s.rk := rfl
@[simp] theorem goto_key (p : Position) : (s.goto p).key = s.key := rfl
@[simp] theorem goto_inp (p : Position) : (s.goto p).inp = s.inp := rfl
@[simp] theorem goto_out (p : Position) : (s.goto p).out = s.out := rfl
@[simp] theorem goto_seq (p : Position) : (s.goto p).seq = { s.seq with sub := p } := rfl
@[simp] theorem goto_inputs (p : Position) : (s.goto p).inputs = s.inputs := rfl
@[simp] theorem goto_bus (p : Position) : (s.goto p).bus = s.bus := rfl
@[simp] theorem goto_draws (p : Position) : (s.goto p).draws = s.draws := rfl

/-! ## enterKs -/

@[simp] theorem enterKs_cmd : s.enterKs.cmd = s.cmd := rfl
@[simp] theorem enterKs_phase : s.enterKs.phase = s.phase := rfl
@[simp] theorem enterKs_done : s.enterKs.done = s.done := rfl
@[simp] theorem enterKs_err : s.enterKs.err = s.err := rfl
@[simp] theorem enterKs_errCode : s.enterKs.errCode = s.errCode := rfl
@[simp] theorem enterKs_ie : s.enterKs.ie = s.ie := rfl
@[simp] theorem enterKs_rounds : s.enterKs.rounds = s.rounds := rfl
@[simp] theorem enterKs_keyLen : s.enterKs.keyLen = s.keyLen := rfl
@[simp] theorem enterKs_inLen : s.enterKs.inLen = s.inLen := rfl
@[simp] theorem enterKs_outLen : s.enterKs.outLen = s.outLen := rfl
@[simp] theorem enterKs_rkLen : s.enterKs.rkLen = s.rkLen := rfl
@[simp] theorem enterKs_rkIdx : s.enterKs.rkIdx = s.rkIdx := rfl
@[simp] theorem enterKs_mixA : s.enterKs.mixA = s.mixA := rfl
@[simp] theorem enterKs_mixK : s.enterKs.mixK = s.mixK := rfl
@[simp] theorem enterKs_mixY : s.enterKs.mixY = s.mixY := rfl
@[simp] theorem enterKs_l : s.enterKs.l = s.l := rfl
@[simp] theorem enterKs_r : s.enterKs.r = s.r := rfl
@[simp] theorem enterKs_rk : s.enterKs.rk = s.rk := rfl
@[simp] theorem enterKs_key : s.enterKs.key = s.key := rfl
@[simp] theorem enterKs_inp : s.enterKs.inp = s.inp := rfl
@[simp] theorem enterKs_out : s.enterKs.out = s.out := rfl
@[simp] theorem enterKs_seq : s.enterKs.seq = { s.seq with ctr := 0, nw := 0, sub := .sKs } := rfl
@[simp] theorem enterKs_inputs : s.enterKs.inputs = s.inputs := rfl
@[simp] theorem enterKs_bus : s.enterKs.bus = s.bus := rfl
@[simp] theorem enterKs_draws : s.enterKs.draws = s.draws := rfl

/-! ## enterBlocks -/

@[simp] theorem enterBlocks_cmd : s.enterBlocks.cmd = s.cmd := rfl
@[simp] theorem enterBlocks_phase : s.enterBlocks.phase = s.phase := rfl
@[simp] theorem enterBlocks_done : s.enterBlocks.done = s.done := rfl
@[simp] theorem enterBlocks_err : s.enterBlocks.err = s.err := rfl
@[simp] theorem enterBlocks_errCode : s.enterBlocks.errCode = s.errCode := rfl
@[simp] theorem enterBlocks_ie : s.enterBlocks.ie = s.ie := rfl
@[simp] theorem enterBlocks_rounds : s.enterBlocks.rounds = s.rounds := rfl
@[simp] theorem enterBlocks_keyLen : s.enterBlocks.keyLen = s.keyLen := rfl
@[simp] theorem enterBlocks_inLen : s.enterBlocks.inLen = s.inLen := rfl
@[simp] theorem enterBlocks_outLen : s.enterBlocks.outLen = s.outLen := rfl
@[simp] theorem enterBlocks_rkLen : s.enterBlocks.rkLen = s.rkLen := rfl
@[simp] theorem enterBlocks_rkIdx : s.enterBlocks.rkIdx = s.rkIdx := rfl
@[simp] theorem enterBlocks_mixA : s.enterBlocks.mixA = s.mixA := rfl
@[simp] theorem enterBlocks_mixK : s.enterBlocks.mixK = s.mixK := rfl
@[simp] theorem enterBlocks_mixY : s.enterBlocks.mixY = s.mixY := rfl
@[simp] theorem enterBlocks_l : s.enterBlocks.l = s.l := rfl
@[simp] theorem enterBlocks_r : s.enterBlocks.r = s.r := rfl
@[simp] theorem enterBlocks_rk : s.enterBlocks.rk = s.rk := rfl
@[simp] theorem enterBlocks_key : s.enterBlocks.key = s.key := rfl
@[simp] theorem enterBlocks_inp : s.enterBlocks.inp = s.inp := rfl
@[simp] theorem enterBlocks_out : s.enterBlocks.out = s.out := rfl
@[simp] theorem enterBlocks_seq : s.enterBlocks.seq = { s.seq with blk := 0, sub := .sLoad } := rfl
@[simp] theorem enterBlocks_inputs : s.enterBlocks.inputs = s.inputs := rfl
@[simp] theorem enterBlocks_bus : s.enterBlocks.bus = s.bus := rfl
@[simp] theorem enterBlocks_draws : s.enterBlocks.draws = s.draws := rfl

/-! ## loadBlock -/

@[simp] theorem loadBlock_cmd (b : List Byte) : (s.loadBlock b).cmd = s.cmd := rfl
@[simp] theorem loadBlock_phase (b : List Byte) : (s.loadBlock b).phase = s.phase := rfl
@[simp] theorem loadBlock_done (b : List Byte) : (s.loadBlock b).done = s.done := rfl
@[simp] theorem loadBlock_err (b : List Byte) : (s.loadBlock b).err = s.err := rfl
@[simp] theorem loadBlock_errCode (b : List Byte) : (s.loadBlock b).errCode = s.errCode := rfl
@[simp] theorem loadBlock_ie (b : List Byte) : (s.loadBlock b).ie = s.ie := rfl
@[simp] theorem loadBlock_rounds (b : List Byte) : (s.loadBlock b).rounds = s.rounds := rfl
@[simp] theorem loadBlock_keyLen (b : List Byte) : (s.loadBlock b).keyLen = s.keyLen := rfl
@[simp] theorem loadBlock_inLen (b : List Byte) : (s.loadBlock b).inLen = s.inLen := rfl
@[simp] theorem loadBlock_outLen (b : List Byte) : (s.loadBlock b).outLen = s.outLen := rfl
@[simp] theorem loadBlock_rkLen (b : List Byte) : (s.loadBlock b).rkLen = s.rkLen := rfl
@[simp] theorem loadBlock_rkIdx (b : List Byte) : (s.loadBlock b).rkIdx = s.rkIdx := rfl
@[simp] theorem loadBlock_mixA (b : List Byte) : (s.loadBlock b).mixA = s.mixA := rfl
@[simp] theorem loadBlock_mixK (b : List Byte) : (s.loadBlock b).mixK = s.mixK := rfl
@[simp] theorem loadBlock_mixY (b : List Byte) : (s.loadBlock b).mixY = s.mixY := rfl
@[simp] theorem loadBlock_l (b : List Byte) : (s.loadBlock b).l = (unpack b).1 := rfl
@[simp] theorem loadBlock_r (b : List Byte) : (s.loadBlock b).r = (unpack b).2 := rfl
@[simp] theorem loadBlock_rk (b : List Byte) : (s.loadBlock b).rk = s.rk := rfl
@[simp] theorem loadBlock_key (b : List Byte) : (s.loadBlock b).key = s.key := rfl
@[simp] theorem loadBlock_inp (b : List Byte) : (s.loadBlock b).inp = s.inp := rfl
@[simp] theorem loadBlock_out (b : List Byte) : (s.loadBlock b).out = s.out := rfl
@[simp] theorem loadBlock_seq (b : List Byte) : (s.loadBlock b).seq = { s.seq with rnd := 0, sub := .sRound } := rfl
@[simp] theorem loadBlock_inputs (b : List Byte) : (s.loadBlock b).inputs = s.inputs := rfl
@[simp] theorem loadBlock_bus (b : List Byte) : (s.loadBlock b).bus = s.bus := rfl
@[simp] theorem loadBlock_draws (b : List Byte) : (s.loadBlock b).draws = s.draws := rfl

/-! ## The named results, in terms of the updates above -/

theorem putResult_eq (v : List Byte) : s.putResult v = (s.memWriteOut 0 v).setOutLen v.length := rfl

theorem putRoundKeys_eq (k : List Word) : s.putRoundKeys k = { s.writeRk 0 k with rkLen := s.rounds } := rfl

end Sys2Proof.Machine.State
end

