-- ==== Sys2Proof/Laws/Reads.lean ====
section
/-! SUPPORT. What the operand and result sequences are: their lengths, and what a result reads as after it is written
and its command completes. -/

namespace Sys2Proof.Machine

@[simp] theorem memReadKey_length (s : State) (a n : Nat) : (s.memReadKey a n).length = n := by simp [State.memReadKey]

@[simp] theorem memReadIn_length (s : State) (a n : Nat) : (s.memReadIn a n).length = n := by simp [State.memReadIn]

@[simp] theorem memReadOut_length (s : State) (a n : Nat) : (s.memReadOut a n).length = n := by simp [State.memReadOut]

@[simp] theorem inOperand_length (s : State) : s.inOperand.length = s.inLen.toNat := memReadIn_length _ _ _

@[simp] theorem keyOperand_length (s : State) : s.keyOperand.length = s.keyLen.toNat := memReadKey_length _ _ _

@[simp] theorem outOperand_length (s : State) : s.outOperand.length = s.outLen.toNat := memReadOut_length _ _ _

@[simp] theorem rkOperand_length (s : State) : s.rkOperand.length = s.rkLen.toNat := by simp [State.rkOperand]

/-- Reading `KEY`, `IN`, `OUT` and `RK` looks at the store alone. -/
theorem readKey_congr {s t : State} (h : t.key = s.key) (a : Nat) : t.readKey a = s.readKey a := by
  simp [State.readKey, h]

theorem readIn_congr {s t : State} (h : t.inp = s.inp) (a : Nat) : t.readIn a = s.readIn a := by
  simp [State.readIn, h]

theorem readOut_congr {s t : State} (h : t.out = s.out) (a : Nat) : t.readOut a = s.readOut a := by
  simp [State.readOut, h]

theorem readRk_congr {s t : State} (h : t.rk = s.rk) (i : Nat) : t.readRk i = s.readRk i := by
  simp [State.readRk, h]

theorem inOperand_congr {s t : State} (h : t.inp = s.inp) (hl : t.inLen = s.inLen) : t.inOperand = s.inOperand := by
  simp [State.inOperand, State.memReadIn, State.readIn, h, hl]

theorem keyOperand_congr {s t : State} (h : t.key = s.key) (hl : t.keyLen = s.keyLen) :
    t.keyOperand = s.keyOperand := by
  simp [State.keyOperand, State.memReadKey, State.readKey, h, hl]

theorem rkOperand_congr {s t : State} (h : t.rk = s.rk) (hl : t.rkLen = s.rkLen) : t.rkOperand = s.rkOperand := by
  have hr : t.readRk = s.readRk := funext (readRk_congr h)
  simp [State.rkOperand, hr, hl]

/-- A sequence written at address 0 reads back, after everything above it has become unspecified. -/
theorem read_writeSeq_forgetFrom {α : Type} (free : Nat → Nat → α) (m : Store α) (vs : List α) (g i : Nat)
    (h : i < vs.length) : ((m.writeSeq 0 vs).forgetFrom vs.length g).read free i = vs[i] := by
  have hl : Cells.lookup (m.writeSeq 0 vs).cells i = some vs[i] := by
    show Cells.lookup (Cells.writeSeq _ _ _) _ = _
    rw [Cells.lookup_writeSeq, if_pos (by omega), Nat.sub_zero, List.getElem?_eq_getElem h]
  rw [Store.read_forgetFrom _ _ _ _ _ h (by simp [hl])]
  simp [Store.read, hl]

theorem map_range_read {α : Type} (f : Nat → α) (vs : List α) (h : ∀ i (hi : i < vs.length), f i = vs[i]) :
    (List.range vs.length).map f = vs := by
  apply List.ext_getElem
  · simp
  · intro i h1 h2
    simp only [List.getElem_map, List.getElem_range]
    exact h i h2

/-- The result a command leaves in OUT is the one it wrote (R41, R204). -/
theorem outOperand_endCommand_putResult (s : State) (v : List Byte) (hv : v.length < 2 ^ 32) (d k : Bool) :
    ((s.putResult v).endCommand d k).outOperand = v := by
  have hlen : ((s.putResult v).endCommand d k).outLen.toNat = v.length := by
    rw [State.endCommand_outLen, State.putResult_eq, State.setOutLen_outLen, BitVec.toNat_ofNat, Nat.mod_eq_of_lt hv]
  have hout : ((s.putResult v).endCommand d k).out = (s.out.writeSeq 0 v).forgetFrom v.length s.draws := by
    rw [State.endCommand_out, State.putResult_eq, State.setOutLen_out, State.memWriteOut_out, State.setOutLen_outLen,
      BitVec.toNat_ofNat, Nat.mod_eq_of_lt hv]
    rfl
  rw [State.outOperand, hlen, State.memReadOut]
  refine map_range_read _ v fun i hi => ?_
  rw [Nat.zero_add, State.readOut, hout, read_writeSeq_forgetFrom _ _ _ _ _ hi]

end Sys2Proof.Machine
end

