-- ==== Sys2Proof/Laws/Commands.lean ====
section
/-! SUPPORT. What a command can do, said once: `exec` is the shared frame over the command's result, and a command that
answers a next state completed in one of two ways. Later proofs cite these instead of unfolding the meanings. -/

namespace Sys2Proof.Machine

/-- The state with command `i`'s results written, or the kind its function raises (R202). -/
def commandResult (i : Instr) (s : State) : Except ErrorKind State :=
  match i with
  | .encrypt => (encrypt Config.params s.inOperand s.keyOperand s.rounds.toNat).map s.putCipherResult
  | .decrypt => (decrypt Config.params s.inOperand s.keyOperand s.rounds.toNat).map s.putCipherResult
  | .derive => (deriveRoundKeys Config.params s.keyOperand s.rounds.toNat).map (fun k => (s.putRoundKeys k).setOutLen 0)
  | .encblk => (encryptBlock Config.params s.inOperand s.rkOperand s.rounds.toNat).map s.putResult
  | .decblk => (decryptBlock Config.params s.inOperand s.rkOperand s.rounds.toNat).map s.putResult
  | .pad => .ok (s.putResult (pad s.inOperand))
  | .unpad => (unpad s.inOperand).map s.putResult
  | .mix => .ok s.putMix

/-- Every meaning is the shared frame over the command's result. -/
theorem exec_eq_runCommand (i : Instr) (s : State) : exec i s = runCommand i s (commandResult i s) := by
  cases i
  · show runCommand .encrypt s _ = runCommand .encrypt s _
    congr 1; simp only [commandResult]; cases encrypt _ _ _ _ <;> rfl
  · show runCommand .decrypt s _ = runCommand .decrypt s _
    congr 1; simp only [commandResult]; cases decrypt _ _ _ _ <;> rfl
  · show runCommand .derive s _ = runCommand .derive s _
    congr 1; simp only [commandResult]; cases deriveRoundKeys _ _ _ <;> rfl
  · show runCommand .encblk s _ = runCommand .encblk s _
    congr 1; simp only [commandResult]; cases encryptBlock _ _ _ _ <;> rfl
  · show runCommand .decblk s _ = runCommand .decblk s _
    congr 1; simp only [commandResult]; cases decryptBlock _ _ _ _ <;> rfl
  · rfl
  · show runCommand .unpad s _ = runCommand .unpad s _
    congr 1; simp only [commandResult]; cases unpad _ <;> rfl
  · rfl

/-- Inside the domain a command whose function returns completes with success. -/
theorem exec_of_ok {i : Instr} {s u : State} (hd : inDomain i s = true) (h : commandResult i s = .ok u) :
    exec i s = .next (u.endCommand (derivesKeys i) (keepsPair i)) := by
  rw [exec_eq_runCommand, h]; exact if_pos hd

/-- Inside the domain a command whose function raises completes with that kind. -/
theorem exec_of_error {i : Instr} {s : State} {k : ErrorKind} (hd : inDomain i s = true)
    (h : commandResult i s = .error k) : exec i s = .next (s.failCommand (derivesKeys i) k) := by
  rw [exec_eq_runCommand, h]; exact if_pos hd

/-- Outside the domain a command is refused. -/
theorem exec_outside {i : Instr} {s : State} (hd : inDomain i s = false) : exec i s = .refused .outsideDomain := by
  rw [exec_eq_runCommand]; exact if_neg (by simp [hd])

/-- The inversion of `exec`: everything a command that answers a next state can have done. -/
theorem exec_next_cases {i : Instr} {s t : State} (h : exec i s = .next t) :
    inDomain i s = true ∧
      ((∃ u, commandResult i s = .ok u ∧ t = u.endCommand (derivesKeys i) (keepsPair i)) ∨
       (∃ k, commandResult i s = .error k ∧ t = s.failCommand (derivesKeys i) k)) := by
  cases hd : inDomain i s with
  | false => rw [exec_outside hd] at h; exact absurd h (by simp)
  | true =>
    refine ⟨rfl, ?_⟩
    cases hr : commandResult i s with
    | ok u => rw [exec_of_ok hd hr] at h; exact .inl ⟨u, rfl, (Host.Outcome.next.inj h).symm⟩
    | error k => rw [exec_of_error hd hr] at h; exact .inr ⟨k, rfl, (Host.Outcome.next.inj h).symm⟩

/-- No command faults. -/
theorem exec_ne_fault (i : Instr) (s : State) (f : Fault) : exec i s ≠ .fault f := by
  cases hd : inDomain i s with
  | false => rw [exec_outside hd]; simp
  | true =>
    cases hr : commandResult i s with
    | ok u => rw [exec_of_ok hd hr]; simp
    | error k => rw [exec_of_error hd hr]; simp

/-- The fields no command's result touches: everything but RK, RK_LEN, OUT, OUT_LEN and MIX_Y. -/
theorem commandResult_frame {i : Instr} {s u : State} (h : commandResult i s = .ok u) :
    u = { s with rk := u.rk, rkLen := u.rkLen, out := u.out, outLen := u.outLen, mixY := u.mixY } ∧
      (derivesKeys i = false → u.rk = s.rk ∧ u.rkLen = s.rkLen) ∧ (i ≠ .mix → u.mixY = s.mixY) := by
  cases i <;> simp only [commandResult] at h
  · cases he : encrypt Config.params s.inOperand s.keyOperand s.rounds.toNat <;> rw [he] at h <;> cases h
    exact ⟨rfl, nofun, fun _ => rfl⟩
  · cases he : decrypt Config.params s.inOperand s.keyOperand s.rounds.toNat <;> rw [he] at h <;> cases h
    exact ⟨rfl, nofun, fun _ => rfl⟩
  · cases he : deriveRoundKeys Config.params s.keyOperand s.rounds.toNat <;> rw [he] at h <;> cases h
    exact ⟨rfl, nofun, fun _ => rfl⟩
  · cases he : encryptBlock Config.params s.inOperand s.rkOperand s.rounds.toNat <;> rw [he] at h <;> cases h
    exact ⟨rfl, fun _ => ⟨rfl, rfl⟩, fun _ => rfl⟩
  · cases he : decryptBlock Config.params s.inOperand s.rkOperand s.rounds.toNat <;> rw [he] at h <;> cases h
    exact ⟨rfl, fun _ => ⟨rfl, rfl⟩, fun _ => rfl⟩
  · cases h; exact ⟨rfl, fun _ => ⟨rfl, rfl⟩, fun _ => rfl⟩
  · cases he : unpad s.inOperand <;> rw [he] at h <;> cases h
    exact ⟨rfl, fun _ => ⟨rfl, rfl⟩, fun _ => rfl⟩
  · cases h; exact ⟨rfl, fun _ => ⟨rfl, rfl⟩, fun h => absurd rfl h⟩

end Sys2Proof.Machine
end

