-- ==== Sys2Proof/Laws/Functions.lean ====
section
/-! SUPPORT. The pure functions of the cipher: what each gives when it returns, and how long its result is. Later proofs
cite these instead of unfolding the functions (spec 40_key_schedule.md, 42_feistel_core.md, 43_padding.md,
44_engine.md). -/

namespace Sys2Proof.Machine

/-! ## Consecutive blocks -/

theorem slice_eight {α : Type} (s : List α) (i : Nat) : slice s i (i + 8) = (s.drop i).take 8 := by simp [slice]

theorem flatMap_blocks_length {α : Type} {g : Nat → List α} (hg : ∀ i, (g i).length = 8) (n : Nat) :
    ((List.range n).flatMap g).length = 8 * n := by
  induction n with
  | zero => rfl
  | succ n ih => rw [List.range_succ, List.flatMap_append, List.length_append, ih]; simp [hg]; omega

/-- Block `i` of a concatenation of blocks. -/
theorem slice_flatMap_blocks {α : Type} {g : Nat → List α} (hg : ∀ i, (g i).length = 8) {n i : Nat} (h : i < n) :
    slice ((List.range n).flatMap g) (8 * i) (8 * i + 8) = g i := by
  induction n with
  | zero => omega
  | succ n ih =>
    rw [List.range_succ, List.flatMap_append, slice_eight]
    by_cases hi : i < n
    · rw [List.drop_append_of_le_length (by rw [flatMap_blocks_length hg]; omega),
        List.take_append_of_le_length (by rw [List.length_drop, flatMap_blocks_length hg]; omega), ← slice_eight, ih hi]
    · obtain rfl : i = n := by omega
      rw [← flatMap_blocks_length hg i, List.drop_left]
      simp [List.take_of_length_le, hg]

/-- A sequence of `n` blocks is the concatenation of its blocks. -/
theorem flatMap_slices {α : Type} : ∀ (n : Nat) (d : List α), d.length = 8 * n →
    (List.range n).flatMap (fun i => slice d (8 * i) (8 * i + 8)) = d
  | 0, d, h => by simp at h; simp [h]
  | n + 1, d, h => by
    rw [List.range_succ_eq_map, List.flatMap_cons, List.flatMap_map]
    have ih := flatMap_slices n (d.drop 8) (by simp; omega)
    conv_rhs => rw [← List.take_append_drop 8 d, ← ih]
    congr 1
    congr 1; funext i; rw [slice_eight, slice_eight, List.drop_drop]; congr 2; omega

/-- A block function that returns on every 8-byte block maps every sequence of blocks. -/
theorem mapBlocks_ok {f : List Byte → Except ErrorKind (List Byte)} {g : List Byte → List Byte}
    (hf : ∀ b, b.length = 8 → f b = .ok (g b)) : ∀ (n : Nat) (d : List Byte), 8 * n ≤ d.length →
    mapBlocks f n d = .ok ((List.range n).flatMap fun i => g (slice d (8 * i) (8 * i + 8)))
  | 0, _, _ => rfl
  | n + 1, d, h => by
    rw [mapBlocks, hf _ (by simp; omega)]
    simp only
    rw [mapBlocks_ok hf n (d.drop 8) (by simp; omega)]
    simp only
    rw [List.range_succ_eq_map, List.flatMap_cons, List.flatMap_map]
    congr 2
    congr 1; funext i; congr 1; rw [slice_eight, slice_eight, List.drop_drop]; congr 2; omega

/-- What a block function that gives 8 bytes per block makes of `n` blocks has `8 · n` bytes. -/
theorem mapBlocks_length {f : List Byte → Except ErrorKind (List Byte)} (hf : ∀ b r, f b = .ok r → r.length = 8) :
    ∀ (n : Nat) (d r : List Byte), mapBlocks f n d = .ok r → r.length = 8 * n
  | 0, _, _, h => by cases h; rfl
  | n + 1, d, r, h => by
    simp only [mapBlocks] at h
    cases hb : f (d.take 8) with
    | error e => rw [hb] at h; cases h
    | ok b =>
      rw [hb] at h; simp only at h
      cases hr : mapBlocks f n (d.drop 8) with
      | error e => rw [hr] at h; cases h
      | ok rest => rw [hr] at h; cases h; rw [List.length_append, hf _ _ hb, mapBlocks_length hf n _ _ hr]; omega

/-! ## The key schedule -/

theorem expandKey_eq (p : Params) (key : List Byte) (rounds fuel n : Nat) (h1 : rounds ≤ 8 * (n + fuel))
    (h2 : n = 0 ∨ 8 * (n - 1) < rounds) :
    expandKey p.hash key rounds fuel (BitVec.ofNat 32 n)
        ((List.range n).flatMap fun j => digestWords (p.hash (hashMessage key (BitVec.ofNat 32 j)))) =
      (List.range ((rounds + 7) / 8)).flatMap fun j => digestWords (p.hash (hashMessage key (BitVec.ofNat 32 j))) := by
  induction fuel generalizing n with
  | zero => rw [expandKey]; congr 2; omega
  | succ fuel ih =>
    rw [expandKey, flatMap_blocks_length (fun _ => digestWords_length _)]
    split
    · rw [← ih (n + 1) (by omega) (by omega)]
      congr 1
      · simp [add32, BitVec.ofNat_add]
      · rw [List.range_succ, List.flatMap_append]; simp
    · congr 2; omega

/-- The round keys are the words of the first digests, cut to `rounds`. -/
theorem roundKeyWords_eq (p : Params) (key : List Byte) (rounds : Nat) :
    roundKeyWords p key rounds = ((List.range ((rounds + 7) / 8)).flatMap fun j =>
      digestWords (p.hash (hashMessage key (BitVec.ofNat 32 j)))).take rounds := by
  rw [← expandKey_eq p key rounds rounds 0 (by omega) (.inl rfl)]; rfl

theorem roundKeyWords_length (p : Params) (key : List Byte) (rounds : Nat) :
    (roundKeyWords p key rounds).length = rounds := by
  rw [roundKeyWords_eq, List.length_take, flatMap_blocks_length (fun _ => digestWords_length _)]; omega

theorem deriveRoundKeys_ok {p : Params} {key : List Byte} {rounds : Nat} (h : key ≠ []) (hr : 1 ≤ rounds) :
    deriveRoundKeys p key rounds = .ok (roundKeyWords p key rounds) := by
  have : ¬rounds < 1 := by omega
  simp [deriveRoundKeys, h, this]

/-! ## The block functions -/

theorem encryptBlock_ok (p : Params) (k : List Word) {b : List Byte} (hb : b.length = 8) :
    encryptBlock p b k k.length = .ok (pack (k.foldl (roundStep (mix p)) (unpack b))) := by
  rw [encryptBlock, encryptBlockWith, if_neg (by simp [hb]), if_neg (by simp)]

theorem decryptBlock_ok (p : Params) (k : List Word) {b : List Byte} (hb : b.length = 8) :
    decryptBlock p b k k.length = .ok (pack (k.reverse.foldl (invRoundStep (mix p)) (unpack b))) := by
  rw [decryptBlock, decryptBlockWith, if_neg (by simp [hb]), if_neg (by simp)]

theorem encryptBlock_length {p : Params} {b c : List Byte} {k : List Word} {rounds : Nat}
    (h : encryptBlock p b k rounds = .ok c) : c.length = 8 := by
  unfold encryptBlock encryptBlockWith at h
  split at h
  · cases h
  · split at h <;> cases h
    exact pack_length _

theorem decryptBlock_length {p : Params} {b c : List Byte} {k : List Word} {rounds : Nat}
    (h : decryptBlock p b k rounds = .ok c) : c.length = 8 := by
  unfold decryptBlock decryptBlockWith at h
  split at h
  · cases h
  · split at h <;> cases h
    exact pack_length _

/-- An inverse round undoes a round with the same key, and a round an inverse round. -/
theorem invRoundStep_roundStep (f : Word → Word → Word) (lr : Word × Word) (k : Word) :
    invRoundStep f (roundStep f lr k) k = lr := by
  simp [invRoundStep, roundStep, xor32]

theorem roundStep_invRoundStep (f : Word → Word → Word) (lr : Word × Word) (k : Word) :
    roundStep f (invRoundStep f lr k) k = lr := by
  simp [invRoundStep, roundStep, xor32]

/-! ## Padding -/

theorem lastByte_pad (d : List Byte) : lastByte (pad d) = padCount d.length := by
  have h1 := padCount_pos d.length
  have h2 := padCount_le d.length
  unfold lastByte
  rw [pad_length, List.getD_eq_getElem?_getD, pad, List.getElem?_append_right (by omega),
    List.getElem?_replicate_of_lt (by omega)]
  simp; omega

/-- A block of the padded data that lies inside the data is the data's block. -/
theorem slice_pad {d : List Byte} {i : Nat} (h : i < d.length / 8) :
    slice (pad d) (8 * i) (8 * i + 8) = slice d (8 * i) (8 * i + 8) := by
  rw [slice_eight, slice_eight, pad, List.drop_append_of_le_length (by omega),
    List.take_append_of_le_length (by simp; omega)]

theorem unpad_length_le {d m : List Byte} (h : unpad d = .ok m) : m.length ≤ d.length := by
  unfold unpad at h
  split at h
  · cases h
  · cases hc : checkPadding d with
    | error e => rw [hc] at h; cases h
    | ok n => rw [hc] at h; cases h; simp

/-! ## The whole cipher -/

theorem encrypt_length {p : Params} {pt key c : List Byte} {rounds : Nat} (h : encrypt p pt key rounds = .ok c) :
    c.length = 8 * ((pad pt).length / 8) := by
  unfold encrypt at h
  split at h
  · cases h
  · cases hd : deriveRoundKeys p key rounds with
    | error e => rw [hd] at h; cases h
    | ok k => rw [hd] at h; exact mapBlocks_length (fun _ _ => encryptBlock_length) _ _ _ h

theorem decrypt_length_le {p : Params} {ct key m : List Byte} {rounds : Nat} (h : decrypt p ct key rounds = .ok m) :
    m.length ≤ ct.length := by
  unfold decrypt at h
  split at h
  · cases h
  · split at h
    · cases h
    · cases hd : deriveRoundKeys p key rounds with
      | error e => rw [hd] at h; cases h
      | ok k =>
        rw [hd] at h; simp only at h
        cases hm : mapBlocks (fun b => decryptBlock p b k rounds) (ct.length / 8) ct with
        | error e => rw [hm] at h; cases h
        | ok d =>
          rw [hm] at h
          have h1 := mapBlocks_length (fun _ _ => decryptBlock_length) _ _ _ hm
          have h2 := unpad_length_le h
          omega

end Sys2Proof.Machine
end

