-- ==== Sys2Proof/Laws/Outcomes.lean ====
section
/-! SUPPORT. The domain condition as inequalities, and what the two completions leave in OUT, in RK and in the state the
host owns (spec 20_memory.md R66, R67, R72; 44_engine.md R204; 60_exceptions.md R250). -/

namespace Sys2Proof.Machine

/-- The specified domain as the inequalities of R67. -/
theorem inDomain_iff (i : Instr) (s : State) : inDomain i s = true ↔
    (derivesKeys i = true → s.keyLen.toNat ≤ Config.capKey ∧ s.rounds.toNat ≤ Config.capRk) ∧
    (readsIn i = true → s.inLen.toNat ≤ Config.capIn) ∧ (readsStore i = true → s.rkLen.toNat ≤ Config.capRk) := by
  simp only [inDomain, Bool.and_eq_true, Bool.or_eq_true, Bool.not_eq_true', Config.fitsKey_iff, Config.fitsRk_iff,
    Config.fitsIn_iff]
  cases derivesKeys i <;> cases readsIn i <;> cases readsStore i <;> simp [and_assoc]

theorem inDomain_congr {i : Instr} {s s' : State} (h : SameOperands i s s') : inDomain i s' = inDomain i s := by
  have : inDomain i s' = true ↔ inDomain i s = true := by
    rw [inDomain_iff, inDomain_iff]
    refine and_congr ?_ (and_congr ?_ ?_)
    · exact imp_congr_right fun hd => by rw [h.keyLen hd, h.rounds (.inl hd)]
    · exact imp_congr_right fun hd => by rw [h.inLen hd]
    · exact imp_congr_right fun hd => by rw [h.rkLen hd]
  cases h1 : inDomain i s' <;> cases h2 : inDomain i s <;> simp_all

/-- `Raises` is the error case of the command's result. -/
theorem raises_iff {i : Instr} {k : ErrorKind} {s : State} : Raises i k s ↔ commandResult i s = .error k := by
  have hm : ∀ {α β : Type} {x : Except ErrorKind α} {f : α → β}, x.map f = .error k ↔ x = .error k := by
    intro α β x f
    cases x with
    | ok a => constructor <;> (intro h; cases h)
    | error e => constructor <;> (intro h; cases h; rfl)
  cases i <;> simp only [Raises, commandResult, hm] <;> simp

theorem failedWith_failCommand (s : State) (d : Bool) (k : ErrorKind) : (s.failCommand d k).FailedWith k :=
  ⟨rfl, rfl, rfl, rfl, rfl, fun a => by
    show Cells.lookup (Cells.keepBelow _ 0) a = none
    simp⟩

theorem succeeded_endCommand (s : State) (d k : Bool) : (s.endCommand d k).Succeeded := ⟨rfl, rfl, rfl, rfl⟩

theorem hostStateKept_of_eq {s t : State} (h1 : t.cmd = s.cmd) (h2 : t.ie = s.ie) (h3 : t.rounds = s.rounds)
    (h4 : t.keyLen = s.keyLen) (h5 : t.inLen = s.inLen) (h6 : t.rkIdx = s.rkIdx) (h7 : t.mixA = s.mixA)
    (h8 : t.mixK = s.mixK) (h9 : t.key = s.key) (h10 : t.inp = s.inp) : HostStateKept s t :=
  ⟨h1, h2, h3, h4, h5, h6, h7, h8, readKey_congr h9, readIn_congr h10⟩

theorem hostStateKept_failCommand (s : State) (d : Bool) (k : ErrorKind) : HostStateKept s (s.failCommand d k) :=
  hostStateKept_of_eq rfl rfl rfl rfl rfl rfl rfl rfl rfl rfl

theorem hostStateKept_endCommand {i : Instr} {s u : State} (h : commandResult i s = .ok u) (d k : Bool) :
    HostStateKept s (u.endCommand d k) := by
  rw [(commandResult_frame h).1]; exact hostStateKept_of_eq rfl rfl rfl rfl rfl rfl rfl rfl rfl rfl

theorem roundKeysKept_of_eq {s t : State} (h1 : t.rkLen = s.rkLen) (h2 : t.rk = s.rk) : RoundKeysKept s t :=
  ⟨h1, readRk_congr h2⟩

/-! ## What a completion leaves in OUT and in RK -/

theorem toNat_ofNat_of_lt {n : Nat} (h : n < 2 ^ 32) : (BitVec.ofNat 32 n).toNat = n := by
  rw [BitVec.toNat_ofNat, Nat.mod_eq_of_lt h]

theorem out_endCommand_putResult (s : State) {v : List Byte} (hv : v.length < 2 ^ 32) (d k : Bool) :
    ((s.putResult v).endCommand d k).out = (s.out.writeSeq 0 v).forgetFrom v.length s.draws := by
  show (s.out.writeSeq 0 v).forgetFrom (BitVec.ofNat 32 v.length).toNat s.draws = _
  rw [toNat_ofNat_of_lt hv]

theorem readOut_endCommand_putResult (s : State) {v : List Byte} (hv : v.length < 2 ^ 32) (d k : Bool) {a : Nat}
    (h : a < v.length) : ((s.putResult v).endCommand d k).readOut a = v[a] := by
  rw [State.readOut, out_endCommand_putResult s hv, read_writeSeq_forgetFrom _ _ _ _ _ h]

theorem lookup_out_endCommand_putResult (s : State) {v : List Byte} (hv : v.length < 2 ^ 32) (d k : Bool) {a : Nat}
    (h : v.length ≤ a) : Cells.lookup ((s.putResult v).endCommand d k).out.cells a = none := by
  rw [out_endCommand_putResult s hv]; show Cells.lookup (Cells.keepBelow _ _) a = none
  rw [Cells.lookup_keepBelow, if_neg (by omega)]

/-- A sequence stored from entry 0 up, everything above it forgotten, is the round-key operand. -/
theorem rkOperand_of_writeSeq {t : State} {m : Store Word} {k : List Word} {g : Nat} (h1 : t.rkLen.toNat = k.length)
    (h2 : t.rk = (m.writeSeq 0 k).forgetFrom k.length g) : t.rkOperand = k := by
  rw [State.rkOperand, h1]
  refine map_range_read _ _ fun i hi => ?_
  rw [State.readRk, h2, read_writeSeq_forgetFrom _ _ _ _ _ hi]

theorem lookup_forgetFrom {α : Type} (m : Store α) (n g a : Nat) (h : n ≤ a) :
    Cells.lookup (m.forgetFrom n g).cells a = none := by
  show Cells.lookup (Cells.keepBelow _ _) a = none
  rw [Cells.lookup_keepBelow, if_neg (by omega)]

/-- The input operand, byte by byte. -/
theorem inOperand_getElem? (s : State) {a : Nat} (h : a < s.inLen.toNat) : s.inOperand[a]? = some (s.readIn a) := by
  simp [State.inOperand, State.memReadIn, h]

/-- Stores that are canonical, of one draw and of one content are equal. -/
theorem Store.ext_lookup {α : Type} {m n : Store α} (hm : m.wf = true) (hn : n.wf = true) (hg : m.gen = n.gen)
    (h : ∀ a, Cells.lookup m.cells a = Cells.lookup n.cells a) : m = n := by
  have := Cells.ext hm hn h
  cases m; cases n; simp_all

end Sys2Proof.Machine
end

