-- ==== Sys2Proof/Laws/PerInstr.lean ====
section
/-! SUPPORT. The statements made per instruction: family Encoding, that a command is well formed and that its word decodes
to it (spec 30_encoding.md R92). -/

namespace Sys2Proof.Laws.Encoding

/-- The command is well formed and the word the encoder gives it decodes to it. -/
def Statement (i : Instr) : Prop := i.wellFormed = true ∧ decode (encode i) = .ok i

theorem encrypt : Statement .encrypt := ⟨rfl, rfl⟩

theorem decrypt : Statement .decrypt := ⟨rfl, rfl⟩

theorem derive : Statement .derive := ⟨rfl, rfl⟩

theorem encblk : Statement .encblk := ⟨rfl, rfl⟩

theorem decblk : Statement .decblk := ⟨rfl, rfl⟩

theorem pad : Statement .pad := ⟨rfl, rfl⟩

theorem unpad : Statement .unpad := ⟨rfl, rfl⟩

theorem mix : Statement .mix := ⟨rfl, rfl⟩

end Sys2Proof.Laws.Encoding
end

