-- ==== Sys2Proof/Laws/Sequencer.lean ====
section
/-! SUPPORT. What a micro-step of a command that keeps running can change, said once, and where a
running command stands (spec 44_engine.md R220 to R230). -/

namespace Sys2Proof.Machine

/-- What the micro-steps of the running command `i` leave alone: everything but RK, RK_LEN, OUT, OUT_LEN, MIX_Y and the
internal registers; RK and RK_LEN too if `i` does not derive, MIX_Y unless it is MIX, and the pair if it is MIX. -/
structure MicroFrame (i : Instr) (s u : State) : Prop where
  eq : u = { s with
    rk := u.rk, rkLen := u.rkLen, out := u.out, outLen := u.outLen, mixY := u.mixY, l := u.l, r := u.r, seq := u.seq }
  rk : derivesKeys i = false → u.rk = s.rk ∧ u.rkLen = s.rkLen
  mixY : i ≠ .mix → u.mixY = s.mixY
  pair : i = .mix → u.l = s.l ∧ u.r = s.r

theorem MicroFrame.refl (i : Instr) (s : State) : MicroFrame i s s :=
  ⟨rfl, fun _ => ⟨rfl, rfl⟩, fun _ => rfl, fun _ => ⟨rfl, rfl⟩⟩

theorem MicroFrame.trans {i : Instr} {s u v : State} (h : MicroFrame i s u) (k : MicroFrame i u v) :
    MicroFrame i s v where
  eq := by
    have e2 := k.eq
    rw [h.eq] at e2; exact e2
  rk d := ⟨(k.rk d).1.trans (h.rk d).1, (k.rk d).2.trans (h.rk d).2⟩
  mixY m := (k.mixY m).trans (h.mixY m)
  pair m := ⟨(k.pair m).1.trans (h.pair m).1, (k.pair m).2.trans (h.pair m).2⟩

theorem MicroFrame.operands {i : Instr} {s u : State} (h : MicroFrame i s u) :
    u.keyOperand = s.keyOperand ∧ u.inOperand = s.inOperand ∧ u.rounds = s.rounds ∧ u.inLen = s.inLen ∧
    u.keyLen = s.keyLen ∧ u.mixA = s.mixA ∧ u.mixK = s.mixK ∧ u.draws = s.draws ∧ u.phase = s.phase ∧
    u.cmd = s.cmd := by
  have e := h.eq
  refine ⟨?_, ?_, ?_, ?_, ?_, ?_, ?_, ?_, ?_, ?_⟩ <;> rw [e] <;> rfl

theorem MicroFrame.sameOperands {i : Instr} {s u : State} (h : MicroFrame i s u) : SameOperands i s u := by
  obtain ⟨a, b, c, d, e, f, g, -⟩ := h.operands
  have hs : readsStore i = true → derivesKeys i = false := by cases i <;> simp [readsStore, derivesKeys]
  refine ⟨fun _ => e, fun _ => a, fun _ => c, fun _ => d, fun _ => b, fun hr => ?_, fun hr => ?_, fun _ => f, fun _ => g⟩
  · exact (h.rk (hs hr)).2
  · exact rkOperand_congr (h.rk (hs hr)).1 (h.rk (hs hr)).2

/-- A command that has just failed does not run. -/
theorem failCommand_not_running {s : State} {d : Bool} {k : ErrorKind} (h : (s.failCommand d k).phase = .run) : False := by
  cases h

theorem stepCheck_frame {i : Instr} {s t : State} (he : stepCheck i s = .next t) (ht : t.phase = .run) :
    MicroFrame i s t := by
  unfold stepCheck at he
  split at he
  · cases he; exact (failCommand_not_running ht).elim
  · cases he
    cases i <;> first
      | exact ⟨rfl, fun _ => ⟨rfl, rfl⟩, fun _ => rfl, fun _ => ⟨rfl, rfl⟩⟩
      | exact ⟨rfl, fun _ => ⟨rfl, rfl⟩, fun h => absurd rfl h, fun _ => ⟨rfl, rfl⟩⟩

theorem stepKs_frame {i : Instr} {s t : State} (he : stepKs i s = .next t) : MicroFrame i s t := by
  unfold stepKs at he
  split at he
  · rename_i hdk
    split at he
    · cases he; exact ⟨rfl, (fun h => by rw [hdk] at h; cases h), fun _ => rfl, fun _ => ⟨rfl, rfl⟩⟩
    · split at he <;>
        (cases he; exact ⟨rfl, (fun h => by rw [hdk] at h; cases h), fun _ => rfl, fun _ => ⟨rfl, rfl⟩⟩)
  · cases he

theorem stepLoad_frame {i : Instr} {s t : State} (he : stepLoad i s = .next t) : MicroFrame i s t := by
  unfold stepLoad at he
  split at he
  · cases he
  · rename_i nb hnb
    split at he
    · cases he; exact ⟨rfl, fun _ => ⟨rfl, rfl⟩, fun _ => rfl, fun h => by subst h; cases hnb⟩
    · split at he
      · split at he <;> (cases he; exact ⟨rfl, fun _ => ⟨rfl, rfl⟩, fun _ => rfl, fun _ => ⟨rfl, rfl⟩⟩)
      · cases he

theorem stepRound_frame {i : Instr} {s t : State} (he : stepRound i s = .next t) : MicroFrame i s t := by
  unfold stepRound at he
  split at he
  · cases he
  · rename_i hnb
    split at he
    · cases he; exact ⟨rfl, fun _ => ⟨rfl, rfl⟩, fun _ => rfl, fun h => by subst h; cases hnb⟩
    · split at he
      · cases he; exact ⟨rfl, fun _ => ⟨rfl, rfl⟩, fun _ => rfl, fun _ => ⟨rfl, rfl⟩⟩
      · cases he

theorem stepStore_frame {i : Instr} {s t : State} (he : stepStore i s = .next t) : MicroFrame i s t := by
  unfold stepStore at he
  split at he
  · cases he
  · split at he
    · cases he; exact ⟨rfl, fun _ => ⟨rfl, rfl⟩, fun _ => rfl, fun _ => ⟨rfl, rfl⟩⟩
    · cases he

theorem stepUnpad_frame {i : Instr} {s t : State} (he : stepUnpad i s = .next t) (ht : t.phase = .run) :
    MicroFrame i s t := by
  unfold stepUnpad at he
  split at he
  · split at he
    · cases he; exact ⟨rfl, fun _ => ⟨rfl, rfl⟩, fun _ => rfl, fun _ => ⟨rfl, rfl⟩⟩
    · cases he; exact (failCommand_not_running ht).elim
  · cases he

theorem putResult_frame (i : Instr) (s : State) (v : List Byte) (p : Position) (h : i ≠ .mix) :
    MicroFrame i s ((s.putResult v).goto p) :=
  ⟨rfl, fun _ => ⟨rfl, rfl⟩, fun _ => rfl, fun hm => absurd hm h⟩

theorem stepCopy_frame {i : Instr} {s t : State} (he : stepCopy i s = .next t) : MicroFrame i s t := by
  unfold stepCopy at he
  split at he
  · rw [← Host.Outcome.next.inj he]; exact putResult_frame _ _ _ _ (by simp)
  · rw [← Host.Outcome.next.inj he]; exact putResult_frame _ _ _ _ (by simp)
  all_goals cases he

/-- A micro-step after which the command still runs keeps the frame. -/
theorem microStepOf_frame {i : Instr} {s t : State} (he : microStepOf i s = .next t) (ht : t.phase = .run) :
    MicroFrame i s t := by
  unfold microStepOf at he
  split at he
  · split at he
    · exact stepCheck_frame he ht
    · exact stepKs_frame he
    · exact stepLoad_frame he
    · exact stepRound_frame he
    · exact stepStore_frame he
    · exact stepUnpad_frame he ht
    · exact stepCopy_frame he
    · cases he; cases ht
  · cases he

/-- The idle engine stays where it is. -/
theorem microSteps_idle : ∀ (m : Nat) {s u : State}, s.phase = .idle → microSteps m s = .next u → u = s
  | 0, _, _, _, h => by cases h; rfl
  | m + 1, s, u, hp, h => by
    have he : engineStep s = .next s := by simp only [engineStep, hp]
    simp only [microSteps, he] at h
    exact microSteps_idle m hp h

/-- While nothing runs, or right after a start, the engine is on the canonical sequence. -/
theorem State.onSequence_of_idle {s : State} (h : s.phase = .idle) : s.OnSequence :=
  fun h' => absurd (h.symm.trans h') (by decide)

theorem State.onSequence_of_sCheck {s : State} (h : s.seq.sub = .sCheck) : s.OnSequence := by
  intro _
  cases decode s.cmd with
  | ok i => simp only [AtPosition, h]
  | error e => exact h

/-- The position depends on the sequencer registers, CMD and three lengths alone. -/
theorem AtPosition.of_same {i : Instr} {s t : State} (h : AtPosition i s) (hq : t.seq = s.seq)
    (hr : t.rounds = s.rounds) (hi : t.inLen = s.inLen) (hk : t.rkLen = s.rkLen) : AtPosition i t := by
  have hb : blockCount i t = blockCount i s := by cases i <;> simp only [blockCount, hi]
  have hp : roundPlan i t = roundPlan i s := by cases i <;> simp only [roundPlan, hr, hk]
  simp only [AtPosition, hq, hr, hb, hp]; exact h

theorem State.OnSequence.of_same {s t : State} (h : s.OnSequence) (hp : t.phase = s.phase) (hc : t.cmd = s.cmd)
    (hq : t.seq = s.seq) (hr : t.rounds = s.rounds) (hi : t.inLen = s.inLen) (hk : t.rkLen = s.rkLen) :
    t.OnSequence := by
  intro hrun
  have h := h (hp.symm.trans hrun)
  rw [hc]
  cases hd : decode s.cmd with
  | ok i => rw [hd] at h; exact AtPosition.of_same h hq hr hi hk
  | error e => rw [hd] at h; exact (congrArg Sequencer.sub hq).trans h

end Sys2Proof.Machine
end

