-- ==== Sys2Proof/Tests/Slice0.lean ====
section
/-! SUPPORT. The model's own tests: refused ill-formed terms, decodings written out bit by bit, vectors of
spec/95_test_vectors.md, and a witness for the hypotheses of every statement. -/

namespace Sys2Proof.Tests

open Sys2Proof.Machine

/-! ## Ill-formed terms are refused

A command has no operand (R93), so no term of `Instr` is ill formed; the one check is on buffer addresses. -/

theorem test_access_key_outside : (Access.readBuf .key 0x100000000).wellFormed = false := by
  simp only [Access.wellFormed, Bool.eq_false_iff, ne_eq, Config.hasAddress_key, Nat.not_lt]
  exact Nat.le_of_lt Config.capKey_lt

theorem test_access_in_outside : (Access.writeBuf .inp 0x100000000 0x41).wellFormed = false := by
  simp only [Access.wellFormed, Bool.eq_false_iff, ne_eq, Config.hasAddress_inp, Nat.not_lt]
  exact Nat.le_of_lt Config.capIn_lt

theorem test_access_out_outside : (Access.readBuf .out 0x100000000).wellFormed = false := by
  simp only [Access.wellFormed, Bool.eq_false_iff, ne_eq, Config.hasAddress_out, Nat.not_lt]
  exact Nat.le_of_lt Config.capOut_lt

theorem test_access_inside :
    (Access.readBuf .key 0).wellFormed = true ∧ (Access.writeBuf .inp 7 0x41).wellFormed = true ∧
    (Access.readBuf .out 15).wellFormed = true ∧ (Access.readReg 0x39).wellFormed = true := by decide

/-! ## Decoding, words written out from R91 and R92 (OPCODE in the low four bits, the other 28 zero) -/

theorem test_decode_encrypt : decode 0b00000000000000000000000000000001#32 = .ok .encrypt := by decide

theorem test_decode_decrypt : decode 0b00000000000000000000000000000010#32 = .ok .decrypt := by decide

theorem test_decode_derive : decode 0b00000000000000000000000000000011#32 = .ok .derive := by decide

theorem test_decode_encblk : decode 0b00000000000000000000000000000100#32 = .ok .encblk := by decide

theorem test_decode_decblk : decode 0b00000000000000000000000000000101#32 = .ok .decblk := by decide

theorem test_decode_pad : decode 0b00000000000000000000000000000110#32 = .ok .pad := by decide

theorem test_decode_unpad : decode 0b00000000000000000000000000000111#32 = .ok .unpad := by decide

theorem test_decode_mix : decode 0b00000000000000000000000000001000#32 = .ok .mix := by decide

/-- Reserved OPCODEs 0, 9 and 15, and a nonzero ZERO field at either end (R95). -/
theorem test_decode_rejects :
    decode 0b00000000000000000000000000000000#32 = .error .reservedOpcode ∧
    decode 0b00000000000000000000000000001001#32 = .error .reservedOpcode ∧
    decode 0b00000000000000000000000000001111#32 = .error .reservedOpcode ∧
    decode 0b00000000000000000000000000010001#32 = .error .zeroField ∧
    decode 0b10000000000000000000000000000001#32 = .error .zeroField := by decide

theorem test_decodeTableWord :
    decodeTableWord 32 6 = some .pad ∧ decodeTableWord 32 9 = none ∧ decodeTableWord 64 6 = none := by decide

/-! ## Vectors of spec/95_test_vectors.md on the cipher's functions, under its instantiation INST-T -/

/-- INST-T (section 2): digest byte `j` is the sum of the message's bytes plus `j`; C_XOR = A5A5A5A5; C_MUL = 9E3779B1. -/
def instT : Params where
  hash m := ⟨((List.range 32).map fun j => m.foldl (· + ·) 0 + BitVec.ofNat 8 j).toArray, by simp⟩
  cXor := 0xA5A5A5A5
  cMulHigh := 0x4F1BBCD8

/-- C_MUL of section 2, and vectors MX-3 (general) and MX-11 (rotation by 0). -/
theorem test_mix : instT.cMul = 0x9E3779B1 ∧ mix instT 0x12345678 0x9ABCDEF0 = 0x802B4EF5 ∧
    mix instT 0x0000001B 0x00000005 = 0x78534DF5 := by decide

/-- KS-3: nine round keys, the ninth from the second digest. -/
theorem test_derive : deriveRoundKeys instT [0x4B] 9 = .ok [0x4B4C4D4E, 0x4F505152, 0x53545556, 0x5758595A,
    0x5B5C5D5E, 0x5F606162, 0x63646566, 0x6768696A, 0x4C4D4E4F] := by decide

/-- FC-1: the block and the key order of encryption. -/
theorem test_encblk : encryptBlock instT [0, 1, 2, 3, 4, 5, 6, 7] [0x4B4C4D4E, 0x4F505152] 2 =
    .ok [0x17, 0x26, 0xC3, 0xB3, 0x36, 0xEA, 0xC5, 0x7D] := by decide

/-- FC-5: decryption is not encryption with reversed keys. -/
theorem test_decblk : decryptBlock instT [0, 1, 2, 3, 4, 5, 6, 7] [0x4B4C4D4E, 0x4F505152] 2 =
    .ok [0x25, 0x29, 0x60, 0xE1, 0xD4, 0x68, 0x55, 0x84] := by decide

/-- PD-4: a full extra block. -/
theorem test_pad : pad [0x41, 0x42, 0x43, 0x44, 0x45, 0x46, 0x47, 0x48] =
    [0x41, 0x42, 0x43, 0x44, 0x45, 0x46, 0x47, 0x48, 8, 8, 8, 8, 8, 8, 8, 8] := by decide

/-- PD-5, PD-8, PD-9, PD-10, PD-14. -/
theorem test_unpad :
    unpad [0x41, 0x42, 0x43, 5, 5, 5, 5, 5] = .ok [0x41, 0x42, 0x43] ∧
    unpad [0x41, 0x42, 0x43, 0x44, 0x45, 0x46, 0x47, 9] = .error .invalidPaddingLength ∧
    unpad [0x41, 0x42, 0x43, 0x44, 0x45, 0x46, 2, 3] = .error .invalidPaddingBytes ∧
    unpad [0x41, 0x42, 0x43, 0x44, 0x45, 0x46, 1] = .error .invalidPaddingInputLength ∧
    unpad [0x41, 0x42, 0x43, 0x44, 0x45, 0x46, 0x47, 0xFF] = .error .invalidPaddingLength := by decide

/-- EN-8: nine rounds, one padded block. -/
theorem test_encrypt : encrypt instT [0x41] [0x4B] 9 = .ok [0xB8, 0x2B, 0xD8, 0xDB, 0x23, 0x12, 0xE7, 0xAA] := by decide

/-- DE-8: a ciphertext of an empty message, key "supersecretkey!", eight rounds. -/
theorem test_decrypt : decrypt instT [0x46, 0x60, 0x2B, 0xD8, 0x81, 0x72, 0x45, 0x88]
    [0x73, 0x75, 0x70, 0x65, 0x72, 0x73, 0x65, 0x63, 0x72, 0x65, 0x74, 0x6B, 0x65, 0x79, 0x21] 8 = .ok [] := by decide

/-! ## One step of the machine -/

/-- The step of command word `w` from `s`, and what holds of the state it gives. -/
def afterStep (s : State) (w : Nat) (p : State → Bool) : Bool :=
  match step (s.withFetchWord 32 w) with
  | .next t => p t
  | .fault _ => false
  | .refused _ => false

/-- A small state: key byte 4B, `rounds` rounds, `data` in IN. -/
def small (rounds : Nat) (data : List Byte) : State :=
  { State.reset with
    rounds := BitVec.ofNat 32 rounds
    keyLen := 1
    key := State.reset.key.write 0 0x4B
    inLen := BitVec.ofNat 32 data.length
    inp := State.reset.inp.writeSeq 0 data }

/-- EN-8's lengths: OUT_LEN = 8, RK_LEN = ROUNDS, STATUS = 2. -/
theorem test_step_encrypt : afterStep (small 2 [0x41]) 1
    (fun t => t.statusWord == 2 && t.outLen == 8 && t.rkLen == 2 && t.inLen == 1) = true := by decide

/-- ER-3, ER-4: ROUNDS = 0 is reported before the length, the length before the padding. -/
theorem test_step_decrypt :
    afterStep (small 0 [1, 2, 3, 4, 5, 6, 7]) 2 (fun t => t.statusWord == 6 && t.errCode == 2) = true ∧
    afterStep (small 8 [1, 2, 3, 4, 5, 6, 7]) 2 (fun t => t.statusWord == 6 && t.errCode == 4) = true := by decide

/-- KS-1: RK_LEN = 1, OUT_LEN = 0, STATUS = 2. -/
theorem test_step_derive : afterStep (small 1 []) 3
    (fun t => t.statusWord == 2 && t.rkLen == 1 && t.outLen == 0) = true := by decide

/-- FC-4: without round keys the block comes back. -/
theorem test_step_encblk : afterStep (small 0 [0xDE, 0xAD, 0xBE, 0xEF, 0x01, 0x23, 0x45, 0x67]) 4
    (fun t => t.statusWord == 2 && t.outOperand == [0xDE, 0xAD, 0xBE, 0xEF, 0x01, 0x23, 0x45, 0x67]) = true := by decide

/-- ER-12's kind: RK_LEN differs from ROUNDS. -/
theorem test_step_decblk : afterStep (small 8 [0xDE, 0xAD, 0xBE, 0xEF, 0x01, 0x23, 0x45, 0x67]) 5
    (fun t => t.statusWord == 6 && t.errCode == 3 && t.outLen == 0) = true := by decide

/-- PD-2. -/
theorem test_step_pad : afterStep (small 8 [0x41]) 6
    (fun t => t.statusWord == 2 && t.outOperand == [0x41, 7, 7, 7, 7, 7, 7, 7]) = true := by decide

/-- PD-16, the undetected change. -/
theorem test_step_unpad : afterStep (small 8 [0x41, 0x42, 0x43, 0x44, 0x45, 0x46, 2, 2]) 7
    (fun t => t.statusWord == 2 && t.outOperand == [0x41, 0x42, 0x43, 0x44, 0x45, 0x46]) = true := by decide

/-- MIX leaves IN, the round keys and the working pair alone (R145). -/
theorem test_step_mix : afterStep { small 8 [0x41] with l := 5, r := 6, rkLen := 3, outLen := 7 } 8
    (fun t => t.statusWord == 2 && t.outLen == 0 && t.rkLen == 3 && t.l == 5 && t.r == 6 &&
      t.inOperand == [0x41]) = true := by decide

/-- ER row of an illegal word: code 8. -/
theorem test_step_illegal : afterStep State.reset 0x1F (fun t => t.statusWord == 6 && t.errCode == 8) = true := by decide

/-! ## Witnesses: for every statement with hypotheses, states and operands that meet them

`State.reset` is idle with no input; `small` adds operands; `running` starts a command. -/

/-- The state in which command `i` has just been started from `s`. -/
def running (i : Instr) (s : State) : State := s.start (encode i)

theorem running_phase (i : Instr) (s : State) : (running i s).phase = .run := rfl

/-- `Inv` of a state whose stores list nothing, whose flags are clear and whose OUT_LEN is 0. -/
theorem inv_of_empty (s : State) (hk : s.key = Store.unspecified 0) (hi : s.inp = Store.unspecified 0)
    (ho : s.out = Store.unspecified 0) (hr : s.rk = Store.unspecified 0) (hd : s.done = false) (he : s.err = false)
    (hc : s.errCode = 0) (hl : s.outLen = 0) (hn : s.draws = 1)
    (hdom : s.phase = .run → ∀ i, decode s.cmd = .ok i → inDomain i s = true) : s.Inv where
  keyWf := by rw [hk]; rfl
  keyIn := by rw [hk]; intro c h; cases h
  inpWf := by rw [hi]; rfl
  inpIn := by rw [hi]; intro c h; cases h
  outWf := by rw [ho]; rfl
  outIn := by rw [ho]; intro c h; cases h
  rkWf := by rw [hr]; rfl
  rkIn := by rw [hr]; intro c h; cases h
  running := fun _ => ⟨hd, he⟩
  errCode := by rw [he, hc]; decide
  errKind := by rw [hc]; decide
  errLen := fun _ => hl
  outLen := by rw [hl]; exact Nat.zero_le _
  domain := hdom
  fresh := by rw [hk, hi, ho, hr, hn]; decide

/-- A command just started from reset meets the invariant. -/
theorem running_inv (i : Instr) : (running i State.reset).Inv :=
  inv_of_empty _ rfl rfl rfl rfl rfl rfl rfl rfl rfl (by
    intro _ j hj
    have : i = j := by cases i <;> cases j <;> first | rfl | exact absurd hj (by decide)
    subst this
    cases i <;> decide)

theorem witness_EveryStepKeepsStateConditions :
    (running .mix State.reset).Inv ∧ (running .encrypt State.reset).Inv ∧
    (∃ t, step (running .mix State.reset) = .next t) ∧ (∃ t, step (running .encrypt State.reset) = .next t) :=
  ⟨running_inv _, running_inv _, ⟨_, rfl⟩, ⟨_, rfl⟩⟩

theorem witness_StepRunsDecodedCommand (i : Instr) :
    (running i State.reset).phase = .run ∧ decode (running i State.reset).cmd = .ok i ∧
    (running i State.reset).inputs = [] ∧
    (State.reset.withFetchWord 32 (encode i).toNat).inputs = .engineRun :: [] := by
  cases i <;> exact ⟨rfl, rfl, rfl, rfl⟩

theorem witness_IdleEngineChangesNothing :
    State.reset.phase = .idle ∧ State.reset.inputs = [] ∧
    ({ State.reset with inputs := [.engineStep] } : State).inputs = .engineStep :: [] ∧
    ({ State.reset with inputs := [.engineRun] } : State).inputs = .engineRun :: [] := ⟨rfl, rfl, rfl, rfl⟩

/-- An IN_LEN above every capacity IN can have (R10). -/
def tooLong : State := { State.reset with inLen := 0xFFFFFFFF }

theorem tooLong_outside : inDomain .pad tooLong = false := by
  have h : Config.fitsIn 4294967295 = false := by
    have := Config.capOut_lt
    simp only [Config.capOut] at this
    simp only [Bool.eq_false_iff, ne_eq, Config.fitsIn_iff]
    omega
  exact (congrArg (fun b => (true && b) && true) h)

theorem witness_AcceptedWriteStartsCommand :
    State.reset.phase = .idle ∧ (∀ i, decode 1 = .ok i → inDomain i State.reset = true) ∧
    (∀ i, decode 0 = .ok i → inDomain i State.reset = true) ∧
    tooLong.phase = .idle ∧ decode 6 = .ok .pad ∧ inDomain .pad tooLong = false :=
  ⟨rfl, (fun i h => by cases h; decide), (fun i h => by cases h), rfl, rfl, tooLong_outside⟩

theorem witness_IllegalWordCompletesWithIllegalCommand :
    State.reset.phase = .idle ∧ zeroField 0x10 ≠ 0 ∧ zeroField 0x80000001 ≠ 0 ∧ (opcodeField 0).toNat = 0 ∧
    9 ≤ (opcodeField 9).toNat ∧ 9 ≤ (opcodeField 15).toNat := by decide

/-- Idle states with the window on the last entry every RK has and on an index no RK has. -/
theorem witness_RegisterWritesWhileIdle :
    ({ State.reset with rkIdx := 7 } : State).phase = .idle ∧
    ({ State.reset with rkIdx := 7 } : State).rkIdx.toNat < Config.capRk ∧
    ({ State.reset with rkIdx := 0xFFFFFFFF } : State).phase = .idle ∧
    Config.capRk ≤ ({ State.reset with rkIdx := 0xFFFFFFFF } : State).rkIdx.toNat :=
  ⟨rfl, Config.eight_le_capRk, rfl, Nat.le_of_lt_succ Config.capRk_lt⟩

theorem witness_RoundKeyWindow :
    ({ State.reset with rkIdx := 7 } : State).phase = .idle ∧
    ({ State.reset with rkIdx := 7 } : State).rkIdx.toNat < Config.capRk ∧
    Config.capRk ≤ ({ State.reset with rkIdx := 0xFFFFFFFF } : State).rkIdx.toNat :=
  ⟨rfl, Config.eight_le_capRk, Nat.le_of_lt_succ Config.capRk_lt⟩

theorem witness_WritesWhileBusyIgnored :
    (running .derive State.reset).phase = .run ∧ Config.hasAddress .key 0 = true ∧ Config.hasAddress .inp 7 = true ∧
    Config.hasAddress .out 15 = true := by decide

theorem witness_HostReadsHaveNoSideEffect :
    Config.hasAddress .key 0 = true ∧ Config.hasAddress .inp 7 = true ∧ Config.hasAddress .out 15 = true := by decide

theorem witness_RegisterReadsWhileIdle : State.reset.phase = .idle ∧ (small 8 [1, 2]).phase = .idle := by decide

theorem witness_ReadsWhileBusy :
    (running .derive State.reset).phase = .run ∧ (running .derive State.reset).Inv ∧ 0 < Config.capKey ∧
    7 < Config.capIn ∧ 15 < Config.capOut :=
  ⟨rfl, running_inv _, Config.one_le_capKey, Config.eight_le_capIn, Config.sixteen_le_capOut⟩

/-- The first offset above the map, and a misaligned one in its first and in its last register. -/
theorem witness_ReservedOffsetsReadZero : 0x38 ≤ 0x38 ∧ 0x05 % 4 ≠ 0 ∧ 0x37 % 4 ≠ 0 := by decide

theorem witness_BufferAccesses :
    State.reset.phase = .idle ∧ (running .derive State.reset).phase = .run ∧ 0 < Config.capKey ∧ 7 < Config.capIn ∧ 15 < Config.capIn + 8 ∧
    Config.capKey ≤ 0xFFFFFFFF ∧ Config.capIn ≤ 0xFFFFFFFF ∧ Config.capIn + 8 ≤ 0xFFFFFFFF :=
  ⟨rfl, rfl, Config.one_le_capKey, Config.eight_le_capIn, Config.sixteen_le_capOut, Nat.le_of_lt_succ Config.capKey_lt,
    Nat.le_of_lt_succ Config.capIn_lt, Nat.le_of_lt_succ Config.capOut_lt⟩

/-- The state after a DERIVE with an empty key. -/
def failed : State := State.reset.failCommand true .emptyKey

theorem witness_AcknowledgeLeavesError :
    failed.phase = .idle ∧ failed.err = true ∧ inDomain .pad failed = true ∧ inDomain .encrypt failed = true := by decide

/-- Every command answers a next state from reset. -/
theorem completes_from_reset (i : Instr) : ∃ t, exec i State.reset = .next t := by
  cases i <;> exact ⟨_, rfl⟩

theorem witness_InterruptFollowsCompletion :
    (∀ i, ∃ t, exec i State.reset = .next t) ∧ State.reset.phase = .idle ∧
    (∃ t, engineRun (running .pad State.reset) = .next t) ∧ (∃ t, engineRun (State.reset.start 0) = .next t) ∧
    (∃ t, engineStep ((running .pad State.reset).goto .sEnd) = .next t ∧ t.phase = .idle) ∧
    (∃ t, engineStep (State.reset.start 0) = .next t ∧ t.phase = .idle) :=
  ⟨completes_from_reset, rfl, ⟨_, rfl⟩, ⟨_, rfl⟩, ⟨_, rfl, rfl⟩, _, rfl, rfl⟩

/-- A command just started stands on the canonical sequence. -/
theorem running_onSequence (i : Instr) (s : State) : (running i s).OnSequence := State.onSequence_of_sCheck rfl

/-- A command just started, one at each other position, and an illegal word at S_CHECK. -/
theorem witness_EveryStepKeepsSequence :
    (∀ i, (running i State.reset).OnSequence ∧ ∃ t, step (running i State.reset) = .next t) ∧
    ((running .derive State.reset).goto .sKs).OnSequence ∧ ((running .encblk State.reset).goto .sLoad).OnSequence ∧
    ((running .encblk State.reset).goto .sRound).OnSequence ∧ ((running .encblk State.reset).goto .sStore).OnSequence ∧
    ((running .decrypt State.reset).goto .sUnpad).OnSequence ∧ ((running .pad State.reset).goto .sCopy).OnSequence ∧
    ((running .mix State.reset).goto .sEnd).OnSequence ∧ (State.reset.start 0).OnSequence := by
  refine ⟨fun i => ⟨running_onSequence i _, by cases i <;> exact ⟨_, rfl⟩⟩, fun _ => ⟨rfl, by decide⟩,
    fun _ => ⟨1, rfl, by decide⟩, fun _ => ⟨1, true, 0, rfl, by decide, rfl, by decide⟩, fun _ => ⟨1, rfl, by decide⟩,
    fun _ => rfl, fun _ => Or.inl rfl, fun _ => trivial, fun _ => rfl⟩

/-- A running engine with nothing waiting and with a micro-step next, an idle one with each of the other schedules. -/
theorem witness_EngineNeverStops :
    (running .derive State.reset).Inv ∧ (running .derive State.reset).inputs = [] ∧ State.reset.Inv ∧
    ({ State.reset with inputs := [.engineRun] } : State).Inv ∧ ({ State.reset with inputs := [.reset] } : State).Inv ∧
    (running .derive { State.reset with inputs := [.engineStep] }).Inv ∧
    (running .derive { State.reset with inputs := [.engineStep] }).OnSequence :=
  ⟨running_inv _, rfl, inv_of_empty _ rfl rfl rfl rfl rfl rfl rfl rfl rfl (fun h => (by cases h)),
    inv_of_empty _ rfl rfl rfl rfl rfl rfl rfl rfl rfl (fun h => (by cases h)),
    inv_of_empty _ rfl rfl rfl rfl rfl rfl rfl rfl rfl (fun h => (by cases h)),
    inv_of_empty _ rfl rfl rfl rfl rfl rfl rfl rfl rfl (fun _ j hj => (by cases hj; decide)),
    running_onSequence _ _⟩

theorem witness_WaitSeesCompletion : State.reset.phase = .idle ∧ ∀ i, inDomain i State.reset = true := by
  refine ⟨rfl, fun i => ?_⟩
  cases i <;> decide

theorem witness_EveryCommandCompletes : ∀ i, inDomain i State.reset = true ∧ inDomain i (small 8 [1, 2, 3]) = true := by
  intro i; cases i <;> decide

theorem witness_CommandsLeaveTheRestUnchanged :
    (∀ i, ∃ t, exec i State.reset = .next t) ∧ ∃ i : Instr, i ≠ .mix := ⟨completes_from_reset, .pad, by decide⟩

/-- Each command that can fail, failing: six from reset, each with its kind. -/
theorem witness_ErrorReturnsNothing (i : Instr) (h : i ≠ .pad) (h' : i ≠ .mix) :
    inDomain i State.reset = true ∧ (∃ k, Raises i k State.reset) ∧ ∃ t, exec i State.reset = .next t ∧ t.err = true := by
  cases i <;> first
    | exact absurd rfl h
    | exact absurd rfl h'
    | exact ⟨by decide, ⟨_, rfl⟩, _, rfl, rfl⟩

/-- The operands of each clause (R253), ER-1 to ER-12. -/
theorem witness_FirstFailingCheckReported :
    (∀ i, inDomain i (small 0 []) = true ∧ inDomain i (small 8 []) = true ∧ inDomain i (small 8 [1]) = true ∧
      inDomain i State.reset = true ∧ inDomain i { State.reset with inLen := 8 } = true) ∧
    (small 0 []).rounds = 0 ∧
    (State.reset.rounds ≠ 0 ∧ State.reset.keyLen = 0) ∧
    ((small 8 []).rounds ≠ 0 ∧ (small 8 []).inLen = 0) ∧
    ((small 8 [1]).rounds ≠ 0 ∧ (small 8 [1]).inLen.toNat % 8 ≠ 0) ∧
    (({ State.reset with inLen := 8 } : State).rounds ≠ 0 ∧
      ¬(({ State.reset with inLen := 8 } : State).inLen = 0 ∨
        ({ State.reset with inLen := 8 } : State).inLen.toNat % 8 ≠ 0) ∧
      ({ State.reset with inLen := 8 } : State).keyLen = 0) ∧
    ((small 0 []).keyLen ≠ 0 ∧ (small 0 []).rounds = 0) ∧
    ((small 0 [1]).inLen ≠ 8) ∧
    (({ State.reset with inLen := 8 } : State).rkLen ≠ ({ State.reset with inLen := 8 } : State).rounds) := by
  refine ⟨fun i => ?_, ?_⟩
  · cases i <;> decide
  · decide

theorem witness_RetryGivesSameError : ∃ t, exec .derive State.reset = .next t ∧ t.err = true ∧ t.inputs = [] :=
  ⟨_, rfl, rfl, rfl⟩

/-- Two states that differ in everything PAD does not read. -/
theorem witness_OperandsAloneDecideOutcome :
    SameOperands .pad State.reset { State.reset with rounds := 3, keyLen := 1, mixA := 4, ie := true, outLen := 5 } ∧
    ∃ t, exec .pad State.reset = .next t := by
  refine ⟨⟨?_, ?_, ?_, ?_, ?_, ?_, ?_, ?_, ?_⟩, _, rfl⟩ <;>
    first | (intro h; exact absurd h (by decide)) | (intro _; rfl)

theorem witness_DeriveResult :
    1 ≤ (small 1 []).keyLen.toNat ∧ (small 1 []).keyLen.toNat ≤ Config.capKey ∧
    1 ≤ (small 1 []).rounds.toNat ∧ (small 1 []).rounds.toNat ≤ Config.capRk ∧
    1 ≤ (small 8 []).rounds.toNat ∧ (small 8 []).rounds.toNat ≤ Config.capRk ∧
    (State.reset.keyLen = 0 ∧ State.reset.keyLen.toNat ≤ Config.capKey ∧ State.reset.rounds.toNat ≤ Config.capRk) ∧
    ((small 0 []).keyLen ≠ 0 ∧ (small 0 []).rounds = 0 ∧ (small 0 []).rounds.toNat ≤ Config.capRk) :=
  ⟨by decide, Config.one_le_capKey, by decide, Nat.le_trans (by decide) Config.eight_le_capRk, by decide,
    Config.eight_le_capRk, ⟨rfl, Nat.zero_le _, Config.eight_le_capRk⟩, by decide, by decide, Nat.zero_le _⟩

/-- A state for ENCBLK and DECBLK: `n` round keys in RK and one block in IN. -/
def withKeys (n : Nat) : State :=
  { small n [0, 1, 2, 3, 4, 5, 6, 7] with
    rkLen := BitVec.ofNat 32 n, rk := State.reset.rk.writeSeq 0 (List.replicate n 0x4B4C4D4E) }

theorem witness_EncblkResult :
    ((withKeys 2).inLen = 8 ∧ (withKeys 2).inLen.toNat ≤ Config.capIn ∧ (withKeys 2).rkLen = (withKeys 2).rounds ∧
      (withKeys 2).rkLen.toNat ≤ Config.capRk) ∧
    ((withKeys 8).inLen = 8 ∧ (withKeys 8).rkLen = (withKeys 8).rounds ∧ (withKeys 8).rkLen.toNat ≤ Config.capRk) ∧
    ((small 0 (List.replicate 7 1)).inLen ≠ 8 ∧ (small 0 (List.replicate 7 1)).inLen.toNat ≤ Config.capIn ∧
      (small 0 (List.replicate 7 1)).rkLen.toNat ≤ Config.capRk) ∧
    ((small 8 (List.replicate 8 1)).rkLen ≠ (small 8 (List.replicate 8 1)).rounds ∧
      (small 8 (List.replicate 8 1)).inLen.toNat ≤ Config.capIn) :=
  ⟨⟨by decide, Config.eight_le_capIn, by decide, Nat.le_trans (by decide) Config.eight_le_capRk⟩,
    ⟨by decide, by decide, Config.eight_le_capRk⟩,
    ⟨by decide, Nat.le_trans (by decide) Config.eight_le_capIn, Nat.zero_le _⟩, by decide, Config.eight_le_capIn⟩

theorem witness_DecblkResult :
    ((withKeys 2).inLen = 8 ∧ (withKeys 2).inLen.toNat ≤ Config.capIn ∧ (withKeys 2).rkLen = (withKeys 2).rounds ∧
      (withKeys 2).rkLen.toNat ≤ Config.capRk) ∧
    ((small 0 (List.replicate 7 1)).inLen ≠ 8 ∧ (small 0 (List.replicate 7 1)).inLen.toNat ≤ Config.capIn ∧
      (small 0 (List.replicate 7 1)).rkLen.toNat ≤ Config.capRk) ∧
    ((small 8 (List.replicate 8 1)).rkLen ≠ (small 8 (List.replicate 8 1)).rounds ∧
      (small 8 (List.replicate 8 1)).inLen.toNat ≤ Config.capIn) :=
  ⟨witness_EncblkResult.1, witness_EncblkResult.2.2⟩

theorem witness_ZeroRoundBlockIsIdentity :
    (withKeys 0).inLen = 8 ∧ (withKeys 0).rkLen = 0 ∧ (withKeys 0).rounds = 0 := by decide

theorem witness_PadResult :
    (small 8 []).inLen.toNat ≤ Config.capIn ∧ (small 8 (List.replicate 8 1)).inLen.toNat ≤ Config.capIn :=
  ⟨Nat.zero_le _, Config.eight_le_capIn⟩

/-- `pad_len` 1 and 8. -/
theorem witness_UnpadResult :
    (∃ s : State, s = small 8 [9, 9, 9, 9, 9, 9, 9, 1] ∧ s.inLen.toNat ≤ Config.capIn ∧ s.inLen ≠ 0 ∧
      s.inLen.toNat % 8 = 0 ∧ ∀ a, s.inLen.toNat - 1 ≤ a → a < s.inLen.toNat → (s.readIn a).toNat = 1) ∧
    (∃ s : State, s = small 8 (List.replicate 8 8) ∧ s.inLen.toNat ≤ Config.capIn ∧ s.inLen ≠ 0 ∧
      s.inLen.toNat % 8 = 0 ∧ ∀ a, s.inLen.toNat - 8 ≤ a → a < s.inLen.toNat → (s.readIn a).toNat = 8) := by
  refine ⟨⟨_, rfl, Config.eight_le_capIn, by decide, by decide, ?_⟩, _, rfl, Config.eight_le_capIn, by decide,
    by decide, ?_⟩
  · intro a h1 h2
    obtain rfl : a = 7 := by
      have h3 : 7 ≤ a := h1
      have h4 : a < 8 := h2
      omega
    decide
  · intro a _ h2
    have : ∀ a < 8, ((small 8 (List.replicate 8 8)).readIn a).toNat = 8 := by decide
    exact this a h2

/-- Empty and seven bytes; `pad_len` 0 and 9; `pad_len` 2 and 8 with one other byte at each end of the range. -/
theorem witness_UnpadErrors :
    (small 8 []).inLen = 0 ∧ (small 8 (List.replicate 7 1)).inLen.toNat % 8 ≠ 0 ∧
    (∃ s : State, s = small 8 [1, 1, 1, 1, 1, 1, 1, 0] ∧ s.inLen.toNat ≤ Config.capIn ∧ s.inLen ≠ 0 ∧
      s.inLen.toNat % 8 = 0 ∧ (s.readIn (s.inLen.toNat - 1)).toNat = 0) ∧
    (∃ s : State, s = small 8 [1, 1, 1, 1, 1, 1, 1, 9] ∧ s.inLen.toNat ≤ Config.capIn ∧ s.inLen ≠ 0 ∧
      s.inLen.toNat % 8 = 0 ∧ 8 < (s.readIn (s.inLen.toNat - 1)).toNat) ∧
    (∃ s : State, s = small 8 [1, 1, 1, 1, 1, 1, 1, 2] ∧ s.inLen.toNat ≤ Config.capIn ∧ s.inLen ≠ 0 ∧
      s.inLen.toNat % 8 = 0 ∧ (s.readIn (s.inLen.toNat - 1)).toNat = 2 ∧
      s.inLen.toNat - 2 ≤ 6 ∧ 6 < s.inLen.toNat ∧ (s.readIn 6).toNat ≠ 2) ∧
    (∃ s : State, s = small 8 [1, 8, 8, 8, 8, 8, 8, 8] ∧ s.inLen.toNat ≤ Config.capIn ∧ s.inLen ≠ 0 ∧
      s.inLen.toNat % 8 = 0 ∧ (s.readIn (s.inLen.toNat - 1)).toNat = 8 ∧
      s.inLen.toNat - 8 ≤ 0 ∧ 0 < s.inLen.toNat ∧ (s.readIn 0).toNat ≠ 8) := by
  refine ⟨by decide, by decide, ⟨_, rfl, Config.eight_le_capIn, ?_⟩, ⟨_, rfl, Config.eight_le_capIn, ?_⟩,
    ⟨_, rfl, Config.eight_le_capIn, ?_⟩, ⟨_, rfl, Config.eight_le_capIn, ?_⟩⟩ <;> decide

theorem witness_EncryptResult :
    (small 1 []).inLen.toNat ≤ Config.capIn ∧ 1 ≤ (small 1 []).keyLen.toNat ∧
    (small 1 []).keyLen.toNat ≤ Config.capKey ∧ 1 ≤ (small 1 []).rounds.toNat ∧
    (small 1 []).rounds.toNat ≤ Config.capRk ∧ (small 8 (List.replicate 8 1)).inLen.toNat ≤ Config.capIn ∧
    (small 8 (List.replicate 8 1)).rounds.toNat ≤ Config.capRk ∧
    (small 0 []).rounds = 0 ∧ (State.reset.rounds ≠ 0 ∧ State.reset.keyLen = 0) :=
  ⟨Nat.zero_le _, by decide, Config.one_le_capKey, by decide, Nat.le_trans (by decide) Config.eight_le_capRk,
    Config.eight_le_capIn, Config.eight_le_capRk, by decide, by decide, by decide⟩

/-- The one round key of `oneBlock`, whatever the hash is. -/
def oneKey : Word := fromBe32 (slice (Config.params.hash [0x4B, 0, 0, 0, 0]).toList 0 4)

/-- The one-round ciphertext block whose decryption is `pack (a, b)`. -/
def cipherBlock (a b : Word) : List Byte := pack (b, xor32 a (mix Config.params b oneKey))

/-- Key 4B, one round, `cipherBlock a b` in IN. -/
def oneBlock (a b : Word) : State :=
  { small 1 [] with inLen := 8, inp := State.reset.inp.writeSeq 0 (cipherBlock a b) }

theorem oneBlock_keys (a b : Word) :
    deriveRoundKeys Config.params (oneBlock a b).keyOperand (oneBlock a b).rounds.toNat = .ok [oneKey] := rfl

theorem oneBlock_in (a b : Word) : (oneBlock a b).inOperand = cipherBlock a b := rfl

theorem oneBlock_data (a b : Word) :
    mapBlocks (fun c => decryptBlock Config.params c [oneKey] (oneBlock a b).rounds.toNat)
      ((oneBlock a b).inLen.toNat / 8) (oneBlock a b).inOperand = .ok (pack (a, b)) := by
  have h : decryptBlock Config.params (cipherBlock a b) [oneKey] 1 = .ok (pack (a, b)) := by
    have hx : ∀ x y : Word, x ^^^ y ^^^ y = x := fun x y => by rw [BitVec.xor_assoc, BitVec.xor_self, BitVec.xor_zero]
    show Except.ok (pack (invRoundStep (mix Config.params) (unpack (cipherBlock a b)) oneKey)) = _
    rw [cipherBlock, unpack_pack]
    simp only [invRoundStep, xor32, hx]
  rw [oneBlock_in]
  rw [show (oneBlock a b).rounds.toNat = 1 from rfl, show (oneBlock a b).inLen = 8 from rfl,
    show (8 : Word).toNat / 8 = 1 by decide]
  simp only [mapBlocks, List.take_of_length_le (Nat.le_of_eq (pack_length _) : (cipherBlock a b).length ≤ 8), h]
  rfl

theorem oneBlock_bounds (a b : Word) :
    (oneBlock a b).inLen.toNat ≤ Config.capIn ∧ (oneBlock a b).inLen ≠ 0 ∧ (oneBlock a b).inLen.toNat % 8 = 0 ∧
    1 ≤ (oneBlock a b).keyLen.toNat ∧ (oneBlock a b).keyLen.toNat ≤ Config.capKey ∧
    1 ≤ (oneBlock a b).rounds.toNat ∧ (oneBlock a b).rounds.toNat ≤ Config.capRk :=
  ⟨Config.eight_le_capIn, (by decide : (8 : Word) ≠ 0), (by decide : (8 : Word).toNat % 8 = 0),
    (by decide : 1 ≤ (1 : Word).toNat), Config.one_le_capKey, (by decide : 1 ≤ (BitVec.ofNat 32 1).toNat),
    Nat.le_trans (by decide : (BitVec.ofNat 32 1).toNat ≤ 8) Config.eight_le_capRk⟩

/-- A ciphertext of the empty message; the bounds are those of `oneBlock_bounds`. -/
theorem witness_DecryptResult :
    ∃ s : State, s = oneBlock 0x08080808 0x08080808 ∧
      (s.inLen.toNat ≤ Config.capIn ∧ s.inLen ≠ 0 ∧ s.inLen.toNat % 8 = 0 ∧ 1 ≤ s.keyLen.toNat ∧
        s.keyLen.toNat ≤ Config.capKey ∧ 1 ≤ s.rounds.toNat ∧ s.rounds.toNat ≤ Config.capRk) ∧
      deriveRoundKeys Config.params s.keyOperand s.rounds.toNat = .ok [oneKey] ∧
      mapBlocks (fun c => decryptBlock Config.params c [oneKey] s.rounds.toNat) (s.inLen.toNat / 8) s.inOperand =
        .ok (pack (0x08080808, 0x08080808)) ∧
      unpad (pack (0x08080808, 0x08080808)) = .ok [] :=
  ⟨_, rfl, oneBlock_bounds _ _, oneBlock_keys _ _, oneBlock_data _ _, by decide⟩

/-- For every pair of words a state whose decrypted data are that pair, and pairs that end in 00, in 09, in 01 02 and,
for the greatest `pad_len`, begin with 01 and end in 08. -/
theorem witness_DecryptPaddingErrors :
    (∀ a b : Word, ∃ s : State, s = oneBlock a b ∧
      (s.inLen.toNat ≤ Config.capIn ∧ s.inLen ≠ 0 ∧ s.inLen.toNat % 8 = 0 ∧ 1 ≤ s.keyLen.toNat ∧
        s.keyLen.toNat ≤ Config.capKey ∧ 1 ≤ s.rounds.toNat ∧ s.rounds.toNat ≤ Config.capRk) ∧
      deriveRoundKeys Config.params s.keyOperand s.rounds.toNat = .ok [oneKey] ∧
      mapBlocks (fun c => decryptBlock Config.params c [oneKey] s.rounds.toNat) (s.inLen.toNat / 8) s.inOperand =
        .ok (pack (a, b))) ∧
    lastByte (pack (0x01010101, 0x01010100)) = 0 ∧ 8 < lastByte (pack (0x01010101, 0x01010109)) ∧
    (lastByte (pack (0x01010101, 0x01010102)) = 2 ∧
      ∃ b ∈ (pack (0x01010101, 0x01010102)).drop 6, b.toNat ≠ 2) ∧
    (lastByte (pack (0x01080808, 0x08080808)) = 8 ∧
      ∃ b ∈ (pack (0x01080808, 0x08080808)).drop 0, b.toNat ≠ 8) :=
  ⟨fun _ _ => ⟨_, rfl, oneBlock_bounds _ _, oneBlock_keys _ _, oneBlock_data _ _⟩, by decide⟩

/-- Its three clauses: an empty key; no rounds; one round and nine, the ninth key from the second digest. -/
theorem witness_RoundKeyClosedForm :
    ([] : List Byte) = [] ∧ (([0x4B] : List Byte) ≠ [] ∧ 0 = 0) ∧ ([0x4B] : List Byte) ≠ [] ∧ 1 ≤ 1 ∧ 0 < 1 ∧
    1 ≤ 9 ∧ 8 < 9 := by decide

theorem witness_RoundKeysArePrefixClosed : ([0x4B] : List Byte) ≠ [] ∧ 1 ≤ 1 ∧ 1 ≤ 9 ∧ 9 ≤ 17 := by decide

theorem witness_ArithmeticPrimitives : 0 < 32 ∧ 31 < 32 := by decide

theorem witness_BlockFunctionsAreInverse : ([0, 1, 2, 3, 4, 5, 6, 7] : List Byte).length = 8 := by decide

theorem witness_OneRoundKeepsSecondHalf : ([0, 1, 2, 3, 4, 5, 6, 7] : List Byte).length = 8 := by decide

theorem witness_PaddedLengths :
    ([] : List Byte).length % 8 = 0 ∧ ([0, 1, 2, 3, 4, 5, 6, 7] : List Byte).length % 8 = 0 := by decide

/-- The five cases of R186 (e): a byte before the last; the last to 0 or 9; to 1; to 2 with `n = 3`; to 2 and 8 with
`n = 1`, data ending otherwise and data ending so (PD-13, PD-7, PD-8, PD-12, PD-16). -/
theorem witness_TamperDetection :
    (padCount 5 = 3 ∧ 1 < padCount 5 ∧ (2 : Byte).toNat ≠ padCount 5 ∧ 1 + 1 < 3) ∧
    ((0 : Byte).toNat ≠ padCount 5 ∧ (9 : Byte).toNat ≠ padCount 5 ∧ 8 < (9 : Byte).toNat ∧ 2 + 1 = 3) ∧
    ((1 : Byte).toNat ≠ padCount 5 ∧ (1 : Byte).toNat = 1) ∧
    ((2 : Byte).toNat ≠ padCount 5 ∧ 2 ≤ (2 : Byte).toNat ∧ (2 : Byte).toNat ≤ 8 ∧ 2 ≤ padCount 5) ∧
    (padCount 7 = 1 ∧ (2 : Byte).toNat ≠ padCount 7 ∧ (8 : Byte).toNat ≠ padCount 7 ∧ 0 + 1 = padCount 7 ∧
      ¬(∀ b ∈ ([1, 1, 1, 1, 1, 1, 1] : List Byte).drop (7 - (2 - 1)), b = 2) ∧
      (∀ b ∈ ([1, 1, 1, 1, 1, 1, 2] : List Byte).drop (7 - (2 - 1)), b = 2) ∧
      (∀ b ∈ ([8, 8, 8, 8, 8, 8, 8] : List Byte).drop (7 - (8 - 1)), b = 8)) := by decide

theorem witness_CipherRoundTrip : ([0x4B] : List Byte) ≠ [] ∧ 1 ≤ 1 := by decide

theorem witness_EngineRoundTrip :
    (small 1 []).inLen.toNat + 8 ≤ Config.capIn ∧ 1 ≤ (small 1 []).keyLen.toNat ∧
    (small 1 []).keyLen.toNat ≤ Config.capKey ∧ 1 ≤ (small 1 []).rounds.toNat ∧
    (small 1 []).rounds.toNat ≤ Config.capRk :=
  ⟨Config.eight_le_capIn, by decide, Config.one_le_capKey, by decide, Nat.le_trans (by decide) Config.eight_le_capRk⟩

/-- Two plaintexts of two blocks that share block 1 only; the second one's ciphertext, under the test instantiation. -/
theorem witness_BlocksAreIndependent :
    ([0x4B] : List Byte) ≠ [] ∧ 1 ≤ 1 ∧
    ∃ pt pt' : List Byte, pt = List.replicate 16 0x41 ∧ pt' = List.replicate 8 0x42 ++ List.replicate 8 0x41 ∧
      1 < pt.length / 8 + 1 ∧ 1 < pt.length / 8 ∧ 1 < pt'.length / 8 ∧ slice pt' 8 16 = slice pt 8 16 ∧
      slice pt' 0 8 ≠ slice pt 0 8 ∧ ∃ c', encrypt instT pt' [0x4B] 1 = .ok c' :=
  ⟨by decide, by decide, _, _, rfl, rfl, by decide, by decide, by decide, by decide, by decide, _, rfl⟩

theorem witness_EncryptEqualsItsComponents :
    (small 1 []).inLen.toNat ≤ Config.capIn ∧ 1 ≤ (small 1 []).keyLen.toNat ∧
    (small 1 []).keyLen.toNat ≤ Config.capKey ∧ 1 ≤ (small 1 []).rounds.toNat ∧
    (small 1 []).rounds.toNat ≤ Config.capRk ∧ 0 < (small 1 []).inLen.toNat / 8 + 1 :=
  ⟨Nat.zero_le _, by decide, Config.one_le_capKey, by decide, Nat.le_trans (by decide) Config.eight_le_capRk, by decide⟩

/-- The one-block ciphertexts of `oneBlock` after a DERIVE, one whose data unpad (to the empty message) and one whose
data do not; `d` is the state DERIVE leaves, `u` has the block and `v` the data in IN. -/
theorem witness_DecryptEqualsItsComponents (a b : Word) :
    ∃ s d : State, s = oneBlock a b ∧
      (s.inLen.toNat ≤ Config.capIn ∧ s.inLen ≠ 0 ∧ s.inLen.toNat % 8 = 0 ∧ 1 ≤ s.keyLen.toNat ∧
        s.keyLen.toNat ≤ Config.capKey ∧ 1 ≤ s.rounds.toNat ∧ s.rounds.toNat ≤ Config.capRk) ∧
      0 < s.inLen.toNat / 8 ∧ exec .derive s = .next d ∧
      (∃ u : State, RoundKeysKept d u ∧ u.rounds = s.rounds ∧ u.inLen = 8 ∧
        u.inOperand = slice s.inOperand (8 * 0) (8 * 0 + 8)) ∧
      (∃ v : State, v.inLen = s.inLen ∧ v.inOperand = pack (a, b)) ∧
      unpad (pack (0x08080808, 0x08080808)) = .ok [] ∧ unpad (pack (0, 0)) = .error .invalidPaddingLength :=
  ⟨_, _, rfl, oneBlock_bounds a b, (by decide : 0 < (8 : Word).toNat / 8), rfl,
    ⟨_, ⟨rfl, fun _ => rfl⟩, rfl, rfl, rfl⟩,
    ⟨{ small 1 [] with inLen := 8, inp := State.reset.inp.writeSeq 0 (pack (a, b)) }, rfl, rfl⟩, by decide, by decide⟩

theorem witness_MicroStepsReachCompletion (i : Instr) :
    (running i State.reset).Inv ∧ (running i State.reset).phase = .run ∧
    (running i State.reset).seq.sub = .sCheck ∧ decode (running i State.reset).cmd = .ok i := by
  refine ⟨running_inv i, ?_⟩
  cases i <;> exact ⟨rfl, rfl, rfl⟩

/-- One micro-step of MIX reaches S_END, still running. -/
theorem witness_CompletionFromAnyMicroStep :
    (running .mix State.reset).Inv ∧ (running .mix State.reset).seq.sub = .sCheck ∧
    decode (running .mix State.reset).cmd = .ok .mix ∧
    ∃ u, microSteps 1 (running .mix State.reset) = .next u ∧ u.phase = .run ∧ u.seq.sub = .sEnd :=
  ⟨running_inv _, rfl, rfl, _, rfl, rfl, rfl⟩

end Sys2Proof.Tests
end

section
/-! What one event can do to the state, said once: the inversions of a host access, of the engine's run and of one
micro-step, and the induction over a step (spec 20_memory.md R61 to R66; 44_engine.md R202, R220 to R230). -/

namespace Sys2Proof.Machine

variable {s t : State} {i : Instr}

/-! ## The step -/

theorem step_event (s : State) (e : Event) (rest : List Event) :
    step { s with inputs := e :: rest } = handle e { s with inputs := rest } := rfl

/-- A predicate that ignores the events still to come and that every event keeps is kept by every step. -/
theorem step_keeps {P : State → Prop} (hin : ∀ s rest, P s → P { s with inputs := rest })
    (hev : ∀ e s t, P s → handle e s = .next t → P t) (hs : P s) (he : step s = .next t) : P t := by
  unfold step cycle at he
  split at he
  · exact hev .engineRun s t hs he
  · exact hev _ _ t (hin s _ hs) he

/-! ## Host accesses -/

theorem busy_of_idle (h : s.phase = .idle) : s.busy = false := by simp [State.busy, h]

theorem idle_of_not_busy (h : ¬s.busy = true) : s.phase = .idle := by
  cases hp : s.phase with
  | idle => rfl
  | run => exact absurd (by simp [State.busy, hp]) h

/-- Everything an answered host access can do to the state (R61 to R66). -/
inductive AccessEffect (s : State) : State → Prop where
  | ignored : AccessEffect s s
  | delivered (d : BusData) : AccessEffect s (s.deliver d)
  | deliveredFree (d : BusData) : AccessEffect s (s.deliverFree d)
  | regWritten (r : Reg) (v : Word) (t : State) (hp : s.phase = .idle) (hw : writeRegIdle r v s = .next t) :
      AccessEffect s t
  | keyWritten (a : Nat) (v : Byte) (hp : s.phase = .idle) (ha : a < Config.capKey) :
      AccessEffect s { s with key := s.key.write a v }
  | inpWritten (a : Nat) (v : Byte) (hp : s.phase = .idle) (ha : a < Config.capIn) :
      AccessEffect s { s with inp := s.inp.write a v }

theorem hostReadReg_effect (off : Nat) (s : State) : AccessEffect s (hostReadReg off s) := by
  unfold hostReadReg
  split
  · exact .delivered _
  · split
    · exact .deliveredFree _
    · exact .delivered _

theorem hostReadBuf_effect (b : Buffer) (a : Nat) (s : State) : AccessEffect s (hostReadBuf b a s) := by
  unfold hostReadBuf
  split
  · exact .deliveredFree _
  · exact .delivered _

theorem hostWriteReg_effect {off : Nat} {v : Word} (he : hostWriteReg off v s = .next t) : AccessEffect s t := by
  unfold hostWriteReg at he
  split at he
  · cases he; exact .ignored
  · rename_i hb
    split at he
    · cases he; exact .ignored
    · exact .regWritten _ v t (idle_of_not_busy hb) he

theorem hostWriteBuf_effect {b : Buffer} {a : Nat} (v : Byte) (ha : Config.hasAddress b a = true) (s : State) :
    AccessEffect s (hostWriteBuf b a v s) := by
  unfold hostWriteBuf
  split
  · exact .ignored
  · rename_i hb
    cases b with
    | key => exact .keyWritten a v (idle_of_not_busy hb) ((Config.hasAddress_key a).1 ha)
    | inp => exact .inpWritten a v (idle_of_not_busy hb) ((Config.hasAddress_inp a).1 ha)
    | out => exact .ignored

theorem hostAccess_effect {x : Access} (he : hostAccess x s = .next t) : AccessEffect s t := by
  unfold hostAccess at he
  split at he
  · rename_i hw
    cases x with
    | readReg off => cases he; exact hostReadReg_effect off s
    | writeReg off v => exact hostWriteReg_effect he
    | readBuf b a => cases he; exact hostReadBuf_effect b a s
    | writeBuf b a v => cases he; exact hostWriteBuf_effect v hw s
  · cases he

/-- An accepted write to CMD starts a command inside the specified domain, or an illegal word (R31, R67, R201). -/
theorem acceptCommand_next {v : Word} (he : acceptCommand v s = .next t) :
    t = s.start v ∧ ∀ i, decode v = .ok i → inDomain i s = true := by
  unfold acceptCommand at he
  split at he
  · rename_i i hi
    split at he
    · rename_i hd
      cases he
      exact ⟨rfl, fun j hj => by rw [hi] at hj; cases hj; exact hd⟩
    · cases he
  · rename_i hi
    cases he
    exact ⟨rfl, fun j hj => by rw [hi] at hj; cases hj⟩

/-- A write to a register other than CMD changes that register's field, or one RK entry through the window (R43, R62). -/
theorem writeRegIdle_next_cases {r : Reg} {v : Word} (he : writeRegIdle r v s = .next t) :
    acceptCommand v s = .next t ∨
      (t = { s with
          done := t.done, ie := t.ie, rounds := t.rounds, keyLen := t.keyLen, inLen := t.inLen, rkLen := t.rkLen,
          rkIdx := t.rkIdx, mixA := t.mixA, mixK := t.mixK, rk := t.rk } ∧
        (t.rk = s.rk ∨ s.rkIdx.toNat < Config.capRk ∧ t.rk = s.rk.write s.rkIdx.toNat v)) := by
  cases r with
  | cmd => exact .inl he
  | status =>
    cases he
    split <;> exact .inr ⟨rfl, .inl rfl⟩
  | rkData =>
    cases he
    unfold State.windowWrite
    split
    · rename_i hx; exact .inr ⟨rfl, .inr ⟨(Config.hasEntry_iff _).1 hx, rfl⟩⟩
    · exact .inr ⟨rfl, .inl rfl⟩
  | errCode | ctrl | rounds | keyLen | inLen | outLen | rkLen | rkIdx | mixA | mixK | mixY =>
    cases he; exact .inr ⟨rfl, .inl rfl⟩

/-! ## The engine -/

/-- Everything the engine's run of a command can do: nothing while idle, the decoded command, or IllegalCommand. -/
theorem engineRun_next_cases (he : engineRun s = .next t) :
    (s.phase = .idle ∧ t = s) ∨ (∃ i, decode s.cmd = .ok i ∧ exec i s = .next t) ∨
      t = s.failCommand false .illegalCommand := by
  unfold engineRun at he
  split at he
  · rename_i hp; cases he; exact .inl ⟨hp, rfl⟩
  · split at he
    · rename_i i hi; exact .inr (.inl ⟨i, hi, he⟩)
    · cases he; exact .inr (.inr rfl)

/-- Everything one engine step can do: nothing while idle, a micro-step of the decoded command, or IllegalCommand. -/
theorem engineStep_next_cases (he : engineStep s = .next t) :
    (s.phase = .idle ∧ t = s) ∨ (s.phase = .run ∧ ∃ i, decode s.cmd = .ok i ∧ microStepOf i s = .next t) ∨
      t = s.failCommand false .illegalCommand := by
  unfold engineStep at he
  split at he
  · rename_i hp; cases he; exact .inl ⟨hp, rfl⟩
  · rename_i hp
    unfold microStep at he
    split at he
    · rename_i i hi; exact .inr (.inl ⟨hp, i, hi, he⟩)
    · split at he <;> cases he
      exact .inr (.inr rfl)

theorem exec_completes (he : exec i s = .next t) : t.phase = .idle := by
  obtain ⟨-, ⟨u, -, rfl⟩ | ⟨k, -, rfl⟩⟩ := exec_next_cases he <;> rfl

theorem engineRun_completes (he : engineRun s = .next t) : t.phase = .idle := by
  obtain ⟨hp, rfl⟩ | ⟨i, -, he⟩ | rfl := engineRun_next_cases he
  · exact hp
  · exact exec_completes he
  · rfl

theorem microStepOf_inDomain (he : microStepOf i s = .next t) : inDomain i s = true := by
  unfold microStepOf at he
  split at he
  · assumption
  · cases he

/-- A command that has ended with success does not run. -/
theorem endCommand_not_running {d k : Bool} (h : (s.endCommand d k).phase = .run) : False := by cases h

/-- A micro-step leaves the command running, or completes it in one of the two ways (R221, R226, R228). -/
theorem microStepOf_next_cases (hp : s.phase = .run) (he : microStepOf i s = .next t) :
    t.phase = .run ∨ (∃ k, t = s.failCommand (derivesKeys i) k) ∨
      t = s.endCommand (derivesKeys i) (keepsPair i) := by
  have keeps : MicroFrame i s t → t.phase = .run := fun hm => by
    obtain ⟨-, -, -, -, -, -, -, -, hphase, -⟩ := hm.operands
    exact hphase.trans hp
  unfold microStepOf at he
  split at he
  · split at he
    · unfold stepCheck at he
      split at he <;> cases he
      · exact .inr (.inl ⟨_, rfl⟩)
      · exact .inl (by cases i <;> exact hp)
    · exact .inl (keeps (stepKs_frame he))
    · exact .inl (keeps (stepLoad_frame he))
    · exact .inl (keeps (stepRound_frame he))
    · exact .inl (keeps (stepStore_frame he))
    · unfold stepUnpad at he
      split at he
      · rename_i hi
        subst hi
        split at he <;> cases he
        · exact .inl hp
        · exact .inr (.inl ⟨_, rfl⟩)
      · cases he
    · exact .inl (keeps (stepCopy_frame he))
    · cases he; exact .inr (.inr rfl)
  · cases he

end Sys2Proof.Machine
end

section
/-! The canonical sequence: each micro-step leaves the running command at a position of its own, within the bounds of R44
(spec 44_engine.md R221 to R228). -/

namespace Sys2Proof.Machine

variable {s t : State} {i : Instr}

theorem MicroFrame.blockCount_eq (h : MicroFrame i s t) : blockCount i t = blockCount i s := by
  obtain ⟨-, -, -, hin, -⟩ := h.operands
  cases i <;> simp only [blockCount, hin]

theorem MicroFrame.roundPlan_eq (h : MicroFrame i s t) : roundPlan i t = roundPlan i s := by
  have hs := h.sameOperands
  cases i with
  | encrypt | decrypt => simp only [roundPlan, hs.rounds (.inl rfl)]
  | encblk | decblk => simp only [roundPlan, hs.rkLen rfl]
  | derive | pad | unpad | mix => rfl

/-- A command has a round plan when it has a block phase (R220). -/
theorem roundPlan_of_blockCount {nb : Nat} (h : blockCount i s = some nb) : ∃ dir n, roundPlan i s = some (dir, n) := by
  cases i with
  | encrypt | decrypt | encblk | decblk => exact ⟨_, _, rfl⟩
  | derive | pad | unpad | mix => cases h

theorem blockCount_of_derivesKeys (hd : derivesKeys i = true) (hi : i ≠ .derive) (s : State) :
    ∃ nb, blockCount i s = some nb := by
  cases i with
  | encrypt | decrypt => exact ⟨_, rfl⟩
  | derive => exact absurd rfl hi
  | encblk | decblk | pad | unpad | mix => cases hd

theorem stepCheck_atPosition (he : stepCheck i s = .next t) (ht : t.phase = .run) : AtPosition i t := by
  unfold stepCheck at he
  split at he <;> cases he
  · exact (failCommand_not_running ht).elim
  · cases i with
    | encrypt | decrypt | derive => exact ⟨rfl, Nat.zero_le _⟩
    | encblk | decblk => exact ⟨1, rfl, Nat.zero_le _⟩
    | pad => exact .inl rfl
    | unpad => exact .inr rfl
    | mix => exact trivial

theorem stepKs_atPosition (hs : s.seq.sub = .sKs) (he : stepKs i s = .next t) : AtPosition i t := by
  unfold stepKs at he
  split at he
  · rename_i hd
    split at he
    · rename_i hlt
      cases he
      have hs' : s.ksStep.seq.sub = .sKs := hs
      simp only [AtPosition, hs']
      exact ⟨hd, Nat.add_le_add_right hlt 7⟩
    · split at he <;> cases he
      · exact trivial
      · rename_i hi
        obtain ⟨nb, hnb⟩ := blockCount_of_derivesKeys hd hi (State.enterBlocks { s with rkLen := s.rounds })
        exact ⟨nb, hnb, Nat.zero_le _⟩
  · cases he

theorem stepLoad_atPosition (he : stepLoad i s = .next t) : AtPosition i t := by
  have hf := stepLoad_frame he
  unfold stepLoad at he
  split at he
  · cases he
  · rename_i nb hnb
    split at he
    · rename_i hlt
      cases he
      obtain ⟨dir, n, hp⟩ := roundPlan_of_blockCount hnb
      exact ⟨nb, dir, n, hf.blockCount_eq.trans hnb, hlt, hf.roundPlan_eq.trans hp, Nat.zero_le _⟩
    · split at he
      · split at he <;> cases he
        · assumption
        · exact trivial
      · cases he

theorem stepRound_atPosition (hs : s.seq.sub = .sRound) (h : AtPosition i s) (he : stepRound i s = .next t) :
    AtPosition i t := by
  have hf := stepRound_frame he
  simp only [AtPosition, hs] at h
  obtain ⟨nb, dir, n, hnb, hblk, hp, -⟩ := h
  unfold stepRound at he
  rw [hp] at he
  simp only at he
  split at he
  · rename_i hlt
    cases he
    have hs' : (s.applyRound dir (s.readRk (if dir then s.seq.rnd else n - 1 - s.seq.rnd))).seq.sub = .sRound := hs
    simp only [AtPosition, hs']
    exact ⟨nb, dir, n, hf.blockCount_eq.trans hnb, hblk, hf.roundPlan_eq.trans hp, hlt⟩
  · split at he <;> cases he
    exact ⟨nb, hf.blockCount_eq.trans hnb, hblk⟩

theorem stepStore_atPosition (he : stepStore i s = .next t) : AtPosition i t := by
  have hf := stepStore_frame he
  unfold stepStore at he
  split at he
  · cases he
  · rename_i nb hnb
    split at he <;> cases he
    exact ⟨nb, hf.blockCount_eq.trans hnb, by assumption⟩

theorem stepUnpad_atPosition (he : stepUnpad i s = .next t) (ht : t.phase = .run) : AtPosition i t := by
  unfold stepUnpad at he
  split at he
  · split at he <;> cases he
    · exact trivial
    · exact (failCommand_not_running ht).elim
  · cases he

theorem stepCopy_atPosition (he : stepCopy i s = .next t) : AtPosition i t := by
  cases i with
  | pad | unpad => rw [← Host.Outcome.next.inj he]; exact trivial
  | encrypt | decrypt | derive | encblk | decblk | mix => cases he

/-- A micro-step after which the command still runs brings it to a position of its canonical sequence. -/
theorem microStepOf_atPosition (h : AtPosition i s) (he : microStepOf i s = .next t) (ht : t.phase = .run) :
    AtPosition i t := by
  unfold microStepOf at he
  split at he
  · split at he
    · exact stepCheck_atPosition he ht
    · exact stepKs_atPosition (by assumption) he
    · exact stepLoad_atPosition he
    · exact stepRound_atPosition (by assumption) h he
    · exact stepStore_atPosition he
    · exact stepUnpad_atPosition he ht
    · exact stepCopy_atPosition he
    · cases he; exact (endCommand_not_running ht).elim
  · cases he

theorem State.OnSequence.hostAccess {x : Access} (h : s.OnSequence) (he : hostAccess x s = .next t) :
    t.OnSequence := by
  cases hostAccess_effect he with
  | ignored => exact h
  | delivered d => exact h.of_same rfl rfl rfl rfl rfl rfl
  | deliveredFree d => exact h.of_same rfl rfl rfl rfl rfl rfl
  | regWritten r v _ hp hw =>
    obtain ha | ⟨hf, -⟩ := writeRegIdle_next_cases hw
    · rw [(acceptCommand_next ha).1]
      exact State.onSequence_of_sCheck rfl
    · rw [hf]
      exact State.onSequence_of_idle hp
  | keyWritten a v hp _ => exact State.onSequence_of_idle hp
  | inpWritten a v hp _ => exact State.onSequence_of_idle hp

theorem State.OnSequence.engineStep (h : s.OnSequence) (he : engineStep s = .next t) : t.OnSequence := by
  obtain ⟨-, rfl⟩ | ⟨hp, i, hi, hm⟩ | rfl := engineStep_next_cases he
  · exact h
  · intro ht
    have hat := h hp
    obtain ⟨-, -, -, -, -, -, -, -, -, hcmd⟩ := (microStepOf_frame hm ht).operands
    rw [hcmd, hi]
    rw [hi] at hat
    exact microStepOf_atPosition hat hm ht
  · exact State.onSequence_of_idle rfl

theorem State.OnSequence.handle (e : Event) (h : s.OnSequence) (he : handle e s = .next t) : t.OnSequence := by
  cases e with
  | access x => exact h.hostAccess he
  | engineStep => exact h.engineStep he
  | engineRun => exact State.onSequence_of_idle (engineRun_completes he)
  | reset => cases he; exact State.onSequence_of_idle rfl

/-- Settles O6: no event leads off the canonical sequence. -/
theorem everyStepKeepsSequence : Obligations.EveryStepKeepsSequence := fun _ _ =>
  step_keeps (P := State.OnSequence) (fun _ _ h => h.of_same rfl rfl rfl rfl rfl rfl) (fun e _ _ h => h.handle e)

end Sys2Proof.Machine
end

section
/-! A command's function as the bytes it gives and the state those bytes are written to: `commandResult` cut in two, so
that what depends on the operands alone stands apart from the rest of the state (spec 20_memory.md R72; 30_encoding.md
R93). -/

namespace Sys2Proof.Machine

variable {s u : State} {i : Instr}

/-- The result bytes of command `i` on the operands as they stand, or the kind it raises; DERIVE and MIX give no byte. -/
def commandBytes (i : Instr) (s : State) : Except ErrorKind (List Byte) :=
  match i with
  | .encrypt => encrypt Config.params s.inOperand s.keyOperand s.rounds.toNat
  | .decrypt => decrypt Config.params s.inOperand s.keyOperand s.rounds.toNat
  | .derive => (deriveRoundKeys Config.params s.keyOperand s.rounds.toNat).map fun _ => []
  | .encblk => encryptBlock Config.params s.inOperand s.rkOperand s.rounds.toNat
  | .decblk => decryptBlock Config.params s.inOperand s.rkOperand s.rounds.toNat
  | .pad => .ok (pad s.inOperand)
  | .unpad => unpad s.inOperand
  | .mix => .ok []

/-- What command `i` writes when its result bytes are `v`: the round keys too if it derives, MIX_Y if it is MIX. -/
def State.putCommand (i : Instr) (s : State) (v : List Byte) : State :=
  match i with
  | .encrypt | .decrypt | .derive => s.putCipherResult v
  | .encblk | .decblk | .pad | .unpad => s.putResult v
  | .mix => s.putMix

theorem deriveRoundKeys_eq_ok {p : Params} {key : List Byte} {rounds : Nat} {k : List Word}
    (h : deriveRoundKeys p key rounds = .ok k) : k = roundKeyWords p key rounds := by
  unfold deriveRoundKeys at h
  split at h
  · cases h
  · split at h <;> cases h
    rfl

theorem commandResult_eq_map (i : Instr) (s : State) :
    commandResult i s = (commandBytes i s).map (s.putCommand i) := by
  cases i with
  | derive =>
    simp only [commandResult, commandBytes]
    cases hk : deriveRoundKeys Config.params s.keyOperand s.rounds.toNat with
    | error e => rfl
    | ok k => rw [deriveRoundKeys_eq_ok hk]; rfl
  | encrypt | decrypt | encblk | decblk | pad | unpad | mix => rfl

theorem commandResult_eq_ok (h : commandResult i s = .ok u) :
    ∃ v, commandBytes i s = .ok v ∧ u = s.putCommand i v := by
  rw [commandResult_eq_map] at h
  cases hb : commandBytes i s with
  | error e => rw [hb] at h; cases h
  | ok v => rw [hb] at h; cases h; exact ⟨v, rfl, rfl⟩

/-- The bytes are a function of the operands the command reads. -/
theorem SameOperands.commandBytes_eq {s' : State} (h : SameOperands i s s') : commandBytes i s' = commandBytes i s := by
  cases i with
  | encrypt | decrypt => simp only [commandBytes, h.key rfl, h.inp rfl, h.rounds (.inl rfl)]
  | derive => simp only [commandBytes, h.key rfl, h.rounds (.inl rfl)]
  | encblk | decblk => simp only [commandBytes, h.inp rfl, h.rk rfl, h.rounds (.inr rfl)]
  | pad | unpad => simp only [commandBytes, h.inp rfl]
  | mix => rfl

/-- Inside the domain a result fits OUT (R41, R67). -/
theorem commandBytes_length_le {v : List Byte} (hd : inDomain i s = true) (h : commandBytes i s = .ok v) :
    v.length ≤ Config.capOut := by
  obtain ⟨-, hin, -⟩ := (inDomain_iff i s).1 hd
  have hcap : Config.capOut = Config.capIn + 8 := rfl
  have hpad := padCount_le s.inOperand.length
  have h16 := Config.sixteen_le_capOut
  cases i with
  | encrypt =>
    have hl := encrypt_length h
    rw [pad_length, inOperand_length] at hl
    rw [inOperand_length] at hpad
    have := hin rfl
    omega
  | decrypt =>
    have hl := decrypt_length_le h
    rw [inOperand_length] at hl
    have := hin rfl
    omega
  | derive =>
    simp only [commandBytes] at h
    cases hk : deriveRoundKeys Config.params s.keyOperand s.rounds.toNat with
    | error e => rw [hk] at h; cases h
    | ok k => rw [hk] at h; cases h; exact Nat.zero_le _
  | encblk => have := encryptBlock_length h; omega
  | decblk => have := decryptBlock_length h; omega
  | pad =>
    cases h
    rw [pad_length, inOperand_length] at *
    have := hin rfl
    omega
  | unpad =>
    have hl := unpad_length_le h
    rw [inOperand_length] at hl
    have := hin rfl
    omega
  | mix => cases h; exact Nat.zero_le _

end Sys2Proof.Machine
end

section
/-! The storage part of the invariant: every store is canonical, inside its capacity and of a past draw, and OUT_LEN is
within CAP_OUT; every operation on the state keeps it (spec 10_state.md R22, R41; 20_memory.md R60, R67). -/

namespace Sys2Proof.Machine

/-- A store is canonical, its listed addresses lie below `cap` and its draw was made before the draw `n`. -/
structure Store.Fits {α : Type} (m : Store α) (cap n : Nat) : Prop where
  wf : m.wf = true
  below : ∀ c ∈ m.cells, c.1 < cap
  gen : m.gen < n

namespace Store.Fits

variable {α : Type} {m : Store α} {cap n : Nat}

theorem unspecified {g : Nat} (hg : g < n) : (Store.unspecified g : Store α).Fits cap n :=
  ⟨rfl, fun _ hc => (List.not_mem_nil hc).elim, hg⟩

theorem succ (h : m.Fits cap n) : m.Fits cap (n + 1) := ⟨h.wf, h.below, Nat.lt_succ_of_lt h.gen⟩

theorem write {a : Nat} (h : m.Fits cap n) (ha : a < cap) (v : α) : (m.write a v).Fits cap n where
  wf := Store.wf_write a v h.wf
  below c hc := by
    obtain rfl | hc := Cells.mem_write hc
    · exact ha
    · exact h.below c hc
  gen := h.gen

theorem writeSeq {a : Nat} {vs : List α} (h : m.Fits cap n) (ha : a + vs.length ≤ cap) :
    (m.writeSeq a vs).Fits cap n where
  wf := Store.wf_writeSeq a vs h.wf
  below c hc := by
    obtain ⟨-, hlt⟩ | hc := Cells.mem_writeSeq hc
    · omega
    · exact h.below c hc
  gen := h.gen

theorem forgetFrom {g : Nat} (h : m.Fits cap n) (a : Nat) (hg : g < n) : (m.forgetFrom a g).Fits cap n where
  wf := Store.wf_forgetFrom a g h.wf
  below c hc := h.below c (Cells.mem_keepBelow.1 hc).1
  gen := hg

/-- Redrawing the store with the next draw. -/
theorem forgetFrom_succ (h : m.Fits cap n) (a : Nat) : (m.forgetFrom a n).Fits cap (n + 1) :=
  h.succ.forgetFrom a (Nat.lt_succ_self n)

end Store.Fits

/-- The storage clauses of `State.Inv`. -/
structure State.Fits (s : State) : Prop where
  key : s.key.Fits Config.capKey s.draws
  inp : s.inp.Fits Config.capIn s.draws
  out : s.out.Fits Config.capOut s.draws
  rk : s.rk.Fits Config.capRk s.draws
  outLen : s.outLen.toNat ≤ Config.capOut

namespace State.Fits

variable {s t : State} {i : Instr}

theorem memWriteOut {a : Nat} {v : List Byte} (h : s.Fits) (hv : a + v.length ≤ Config.capOut) :
    (s.memWriteOut a v).Fits := ⟨h.key, h.inp, h.out.writeSeq hv, h.rk, h.outLen⟩

theorem writeRk {n : Nat} {k : List Word} (h : s.Fits) (hk : n + k.length ≤ Config.capRk) : (s.writeRk n k).Fits :=
  ⟨h.key, h.inp, h.out, h.rk.writeSeq hk, h.outLen⟩

theorem setOutLen {n : Nat} (h : s.Fits) (hn : n ≤ Config.capOut) : (s.setOutLen n).Fits :=
  ⟨h.key, h.inp, h.out, h.rk, by
    rw [State.setOutLen_outLen, BitVec.toNat_ofNat]
    exact Nat.le_trans (Nat.mod_le _ _) hn⟩

theorem putResult {v : List Byte} (h : s.Fits) (hv : v.length ≤ Config.capOut) : (s.putResult v).Fits :=
  (h.memWriteOut (by omega)).setOutLen hv

theorem putRoundKeys {k : List Word} (h : s.Fits) (hk : k.length ≤ Config.capRk) : (s.putRoundKeys k).Fits :=
  have hw := h.writeRk (n := 0) (k := k) (by omega)
  ⟨hw.key, hw.inp, hw.out, hw.rk, hw.outLen⟩

theorem goto (h : s.Fits) (p : Position) : (s.goto p).Fits := ⟨h.key, h.inp, h.out, h.rk, h.outLen⟩

theorem putMix (h : s.Fits) : s.putMix.Fits := ⟨h.key, h.inp, h.out, h.rk, Nat.zero_le _⟩

/-- Inside the domain what a command writes fits. -/
theorem putCommand {v : List Byte} (h : s.Fits) (hd : inDomain i s = true) (hv : v.length ≤ Config.capOut) :
    (s.putCommand i v).Fits := by
  obtain ⟨hrk, -⟩ := (inDomain_iff i s).1 hd
  cases i with
  | encrypt | decrypt | derive =>
    have hk := roundKeyWords_length_le Config.params s.keyOperand s.rounds.toNat
    obtain ⟨-, hr⟩ := hrk rfl
    exact (h.putRoundKeys (Nat.le_trans hk hr)).putResult hv
  | encblk | decblk | pad | unpad => exact h.putResult hv
  | mix => exact h.putMix

theorem endCommand (h : s.Fits) (d k : Bool) : (s.endCommand d k).Fits where
  key := h.key.succ
  inp := h.inp.succ
  out := h.out.forgetFrom_succ _
  rk := by
    cases d with
    | false => exact h.rk.succ
    | true => exact h.rk.forgetFrom_succ _
  outLen := h.outLen

theorem failCommand (h : s.Fits) (d : Bool) (k : ErrorKind) : (s.failCommand d k).Fits where
  key := h.key.succ
  inp := h.inp.succ
  out := h.out.forgetFrom_succ _
  rk := by
    cases d with
    | false => exact h.rk.succ
    | true => exact h.rk.forgetFrom_succ _
  outLen := Nat.zero_le _

theorem applyReset (s : State) : s.applyReset.Fits :=
  have hg := Nat.lt_succ_self s.draws
  ⟨.unspecified hg, .unspecified hg, .unspecified hg, .unspecified hg, Nat.zero_le _⟩

/-- A whole command keeps the storage clauses. -/
theorem exec (h : s.Fits) (he : exec i s = .next t) : t.Fits := by
  obtain ⟨hd, ⟨u, hu, rfl⟩ | ⟨k, -, rfl⟩⟩ := exec_next_cases he
  · obtain ⟨v, hv, rfl⟩ := commandResult_eq_ok hu
    exact (h.putCommand hd (commandBytes_length_le hd hv)).endCommand _ _
  · exact h.failCommand _ _

/-! ## The micro-steps -/

theorem stepCheck (h : s.Fits) (he : stepCheck i s = .next t) : t.Fits := by
  unfold Machine.stepCheck at he
  split at he <;> cases he
  · exact h.failCommand _ _
  · cases i with
    | encrypt | decrypt | derive | encblk | decblk => exact ⟨h.key, h.inp, h.out, h.rk, h.outLen⟩
    | pad | unpad => exact h.goto _
    | mix => exact h.putMix.goto _

/-- KS-STEP writes round keys below ROUNDS only, the digest's words past it being dropped (R126). -/
theorem stepKs (h : s.Fits) (hd : inDomain i s = true) (he : stepKs i s = .next t) : t.Fits := by
  unfold Machine.stepKs at he
  split at he
  · rename_i hdk
    split at he
    · rename_i hlt
      cases he
      obtain ⟨hrk, -⟩ := (inDomain_iff i s).1 hd
      obtain ⟨-, hr⟩ := hrk hdk
      have hw := h.writeRk (n := s.seq.nw)
        (k := (digestWords (Config.params.hash (hashMessage s.keyOperand s.seq.ctr))).take (s.rounds.toNat - s.seq.nw))
        (by rw [List.length_take]; omega)
      exact ⟨hw.key, hw.inp, hw.out, hw.rk, hw.outLen⟩
    · split at he <;> cases he
      · exact ⟨h.key, h.inp, h.out, h.rk, Nat.zero_le _⟩
      · exact ⟨h.key, h.inp, h.out, h.rk, h.outLen⟩
  · cases he

/-- Inside the domain the blocks of a command fit OUT (R41, R220). -/
theorem blockCount_le {nb : Nat} (hd : inDomain i s = true) (hb : blockCount i s = some nb) :
    8 * nb ≤ Config.capOut := by
  obtain ⟨-, hin, -⟩ := (inDomain_iff i s).1 hd
  have hcap : Config.capOut = Config.capIn + 8 := rfl
  have h16 := Config.sixteen_le_capOut
  cases i with
  | encrypt | decrypt => cases hb; have := hin rfl; omega
  | encblk | decblk => cases hb; omega
  | derive | pad | unpad | mix => cases hb

theorem stepLoad (h : s.Fits) (hd : inDomain i s = true) (he : stepLoad i s = .next t) : t.Fits := by
  unfold Machine.stepLoad at he
  split at he
  · cases he
  · rename_i nb hnb
    split at he
    · cases he; exact ⟨h.key, h.inp, h.out, h.rk, h.outLen⟩
    · split at he
      · split at he <;> cases he
        · exact h.goto _
        · exact (h.setOutLen (blockCount_le hd hnb)).goto _
      · cases he

theorem stepRound (h : s.Fits) (he : stepRound i s = .next t) : t.Fits := by
  unfold Machine.stepRound at he
  split at he
  · cases he
  · split at he
    · cases he; exact ⟨h.key, h.inp, h.out, h.rk, h.outLen⟩
    · split at he <;> cases he
      exact h.goto _

theorem stepStore (h : s.Fits) (hd : inDomain i s = true) (he : stepStore i s = .next t) : t.Fits := by
  unfold Machine.stepStore at he
  split at he
  · cases he
  · rename_i nb hnb
    split at he <;> cases he
    have hw := h.memWriteOut (a := 8 * s.seq.blk) (v := pack (s.l, s.r))
      (by have := blockCount_le hd hnb; rw [pack_length]; omega)
    exact ⟨hw.key, hw.inp, hw.out, hw.rk, hw.outLen⟩

theorem stepUnpad (h : s.Fits) (hd : inDomain i s = true) (he : stepUnpad i s = .next t) : t.Fits := by
  unfold Machine.stepUnpad at he
  split at he
  · rename_i hi
    subst hi
    obtain ⟨-, hin, -⟩ := (inDomain_iff _ s).1 hd
    have hin := hin rfl
    have hcap : Config.capOut = Config.capIn + 8 := rfl
    split at he <;> cases he
    · exact (h.setOutLen (by omega)).goto _
    · exact h.failCommand _ _
  · cases he

theorem stepCopy (h : s.Fits) (hd : inDomain i s = true) (he : stepCopy i s = .next t) : t.Fits := by
  cases i with
  | pad =>
    rw [← Host.Outcome.next.inj he]
    exact (h.putResult (commandBytes_length_le hd rfl)).goto _
  | unpad =>
    rw [← Host.Outcome.next.inj he]
    obtain ⟨-, hin, -⟩ := (inDomain_iff _ s).1 hd
    have hin := hin rfl
    have hcap : Config.capOut = Config.capIn + 8 := rfl
    refine (h.putResult ?_).goto _
    rw [List.length_take, inOperand_length]
    omega
  | encrypt | decrypt | derive | encblk | decblk | mix => cases he

theorem microStepOf (h : s.Fits) (he : microStepOf i s = .next t) : t.Fits := by
  unfold Machine.microStepOf at he
  split at he
  · rename_i hd
    split at he
    · exact h.stepCheck he
    · exact h.stepKs hd he
    · exact h.stepLoad hd he
    · exact h.stepRound he
    · exact h.stepStore hd he
    · exact h.stepUnpad hd he
    · exact h.stepCopy hd he
    · cases he; exact h.endCommand _ _
  · cases he

end State.Fits

end Sys2Proof.Machine
end

section
/-! The invariant `State.Inv`: the storage clauses beside the flags, and that every event keeps both (spec 10_state.md R32,
R36, R41; 20_memory.md R60, R67; 60_exceptions.md R240, R250, R252). -/

namespace Sys2Proof.Machine

variable {s t : State} {i : Instr}

theorem State.Inv.fits (h : s.Inv) : s.Fits := by
  obtain ⟨hk, hi, ho, hr⟩ := h.fresh
  exact ⟨⟨h.keyWf, h.keyIn, hk⟩, ⟨h.inpWf, h.inpIn, hi⟩, ⟨h.outWf, h.outIn, ho⟩, ⟨h.rkWf, h.rkIn, hr⟩, h.outLen⟩

/-- The invariant is its storage clauses, its flag clauses and its domain clause. -/
theorem State.Fits.inv (h : s.Fits) (running : s.phase = .run → s.done = false ∧ s.err = false)
    (errCode : s.err = true ↔ s.errCode ≠ 0) (errKind : s.errCode.toNat ≤ 8) (errLen : s.err = true → s.outLen = 0)
    (domain : s.phase = .run → ∀ i, decode s.cmd = .ok i → inDomain i s = true) : s.Inv :=
  ⟨h.key.wf, h.key.below, h.inp.wf, h.inp.below, h.out.wf, h.out.below, h.rk.wf, h.rk.below, running, errCode, errKind,
    errLen, h.outLen, domain, h.key.gen, h.inp.gen, h.out.gen, h.rk.gen⟩

/-- Without an error the flag clauses come down to DONE. -/
theorem State.Fits.inv_of_noError (h : s.Fits) (he : s.err = false) (hc : s.errCode = 0)
    (hd : s.phase = .run → s.done = false)
    (domain : s.phase = .run → ∀ i, decode s.cmd = .ok i → inDomain i s = true) : s.Inv :=
  h.inv (fun hr => ⟨hd hr, he⟩) (by simp [he, hc]) (by simp [hc]) (by simp [he]) domain

theorem ErrorKind.code_ne_zero (k : ErrorKind) : k.code ≠ 0 := by cases k <;> decide

theorem ErrorKind.code_le (k : ErrorKind) : k.code.toNat ≤ 8 := by cases k <;> decide

/-- An idle state whose error fields are those of a state that meets the invariant. -/
theorem State.Inv.of_idle (h : s.Inv) (hf : t.Fits) (hp : t.phase = .idle) (he : t.err = s.err)
    (hc : t.errCode = s.errCode) (hl : t.outLen = s.outLen) : t.Inv :=
  have hrun : t.phase ≠ .run := by rw [hp]; decide
  hf.inv (fun hr => absurd hr hrun) (by rw [he, hc]; exact h.errCode) (by rw [hc]; exact h.errKind)
    (by rw [he, hl]; exact h.errLen) (fun hr => absurd hr hrun)

theorem State.Succeeded.inv (h : t.Succeeded) (hf : t.Fits) : t.Inv :=
  have hrun : t.phase ≠ .run := by rw [h.phase]; decide
  hf.inv_of_noError h.err h.errCode (fun hr => absurd hr hrun) (fun hr => absurd hr hrun)

theorem State.FailedWith.inv {k : ErrorKind} (h : t.FailedWith k) (hf : t.Fits) : t.Inv :=
  have hrun : t.phase ≠ .run := by rw [h.phase]; decide
  hf.inv (fun hr => absurd hr hrun) (by rw [h.err, h.errCode]; exact iff_of_true rfl k.code_ne_zero)
    (by rw [h.errCode]; exact k.code_le) (fun _ => h.outLen) (fun hr => absurd hr hrun)

/-- Only the delivered value, the draw counter, upwards, and the events to come differ. -/
theorem State.Inv.of_read (h : s.Inv) {inputs : List Event} {bus : Option BusData} {n : Nat} (hn : s.draws ≤ n) :
    ({ s with inputs := inputs, bus := bus, draws := n } : State).Inv := by
  obtain ⟨hk, hi, ho, hr⟩ := h.fresh
  exact { h with fresh := ⟨Nat.lt_of_lt_of_le hk hn, Nat.lt_of_lt_of_le hi hn, Nat.lt_of_lt_of_le ho hn,
    Nat.lt_of_lt_of_le hr hn⟩ }

/-- A running command's micro-steps touch no flag and no length its domain is judged by. -/
theorem State.Inv.of_microFrame (h : s.Inv) (hm : MicroFrame i s t) (hp : s.phase = .run) (hi : decode s.cmd = .ok i)
    (hd : inDomain i s = true) (hf : t.Fits) : t.Inv := by
  obtain ⟨hdone, herr⟩ := h.running hp
  have hcode : s.errCode = 0 := Decidable.byContradiction fun hne => by
    rw [h.errCode.2 hne] at herr
    cases herr
  have e := hm.eq
  refine hf.inv_of_noError (by rw [e]; exact herr) (by rw [e]; exact hcode) (fun _ => by rw [e]; exact hdone) ?_
  intro _ j hj
  have hj : decode s.cmd = .ok j := by rw [e] at hj; exact hj
  rw [hi] at hj
  cases hj
  rw [inDomain_congr hm.sameOperands]
  exact hd

theorem State.Inv.start (h : s.Inv) {v : Word} (hd : ∀ i, decode v = .ok i → inDomain i s = true) :
    (s.start v).Inv :=
  have hf := h.fits
  State.Fits.inv_of_noError ⟨hf.key, hf.inp, hf.out, hf.rk, hf.outLen⟩ rfl rfl (fun _ => rfl) (fun _ => hd)

theorem State.Inv.writeRegIdle (h : s.Inv) {r : Reg} {v : Word} (hp : s.phase = .idle)
    (he : writeRegIdle r v s = .next t) : t.Inv := by
  have hf := h.fits
  obtain ha | ⟨hfr, hrk⟩ := writeRegIdle_next_cases he
  · obtain ⟨rfl, hd⟩ := acceptCommand_next ha
    exact h.start hd
  · have hrk' : t.rk.Fits Config.capRk s.draws := by
      obtain hrk | ⟨hx, hrk⟩ := hrk <;> rw [hrk]
      · exact hf.rk
      · exact hf.rk.write hx v
    rw [hfr]
    exact h.of_idle ⟨hf.key, hf.inp, hf.out, hrk', hf.outLen⟩ hp rfl rfl rfl

theorem State.Inv.hostAccess (h : s.Inv) {x : Access} (he : hostAccess x s = .next t) : t.Inv := by
  have hf := h.fits
  cases hostAccess_effect he with
  | ignored => exact h
  | delivered d => exact h.of_read (Nat.le_refl _)
  | deliveredFree d => exact h.of_read (Nat.le_succ _)
  | regWritten r v _ hp hw => exact h.writeRegIdle hp hw
  | keyWritten a v hp ha => exact h.of_idle ⟨hf.key.write ha v, hf.inp, hf.out, hf.rk, hf.outLen⟩ hp rfl rfl rfl
  | inpWritten a v hp ha => exact h.of_idle ⟨hf.key, hf.inp.write ha v, hf.out, hf.rk, hf.outLen⟩ hp rfl rfl rfl

theorem State.Inv.failCommand (h : s.Inv) (d : Bool) (k : ErrorKind) : (s.failCommand d k).Inv :=
  (failedWith_failCommand s d k).inv (h.fits.failCommand d k)

theorem State.Inv.exec (h : s.Inv) (he : exec i s = .next t) : t.Inv := by
  have hf := h.fits.exec he
  obtain ⟨-, ⟨u, -, rfl⟩ | ⟨k, -, rfl⟩⟩ := exec_next_cases he
  · exact (succeeded_endCommand u _ _).inv hf
  · exact (failedWith_failCommand s _ k).inv hf

theorem State.Inv.microStepOf (h : s.Inv) (hp : s.phase = .run) (hi : decode s.cmd = .ok i)
    (he : microStepOf i s = .next t) : t.Inv := by
  have hf := h.fits.microStepOf he
  obtain ht | ⟨k, rfl⟩ | rfl := microStepOf_next_cases hp he
  · exact h.of_microFrame (microStepOf_frame he ht) hp hi (microStepOf_inDomain he) hf
  · exact (failedWith_failCommand s _ k).inv hf
  · exact (succeeded_endCommand s _ _).inv hf

theorem State.Inv.engineRun (h : s.Inv) (he : engineRun s = .next t) : t.Inv := by
  obtain ⟨-, rfl⟩ | ⟨i, -, he⟩ | rfl := engineRun_next_cases he
  · exact h
  · exact h.exec he
  · exact h.failCommand _ _

theorem State.Inv.engineStep (h : s.Inv) (he : engineStep s = .next t) : t.Inv := by
  obtain ⟨-, rfl⟩ | ⟨hp, i, hi, he⟩ | rfl := engineStep_next_cases he
  · exact h
  · exact h.microStepOf hp hi he
  · exact h.failCommand _ _

theorem State.Inv.applyReset (s : State) : s.applyReset.Inv :=
  (State.Fits.applyReset s).inv_of_noError rfl rfl (fun _ => rfl) nofun

theorem State.Inv.handle (e : Event) (h : s.Inv) (he : handle e s = .next t) : t.Inv := by
  cases e with
  | access x => exact h.hostAccess he
  | engineStep => exact h.engineStep he
  | engineRun => exact h.engineRun he
  | reset => cases he; exact State.Inv.applyReset s

/-- Settles O5: every event keeps the storage clauses, and the flag clauses by what it does to the command. -/
theorem everyStepKeepsStateConditions : Obligations.EveryStepKeepsStateConditions := fun _ _ =>
  step_keeps (P := State.Inv) (fun _ _ h => h.of_read (Nat.le_refl _)) (fun e _ _ h => h.handle e)

end Sys2Proof.Machine
end

section
/-! The outcome of a command on two states that agree on its operands (spec 10_state.md R46; 40_key_schedule.md R125;
60_exceptions.md R251). -/

namespace Sys2Proof.Machine

variable {s s' : State} {i : Instr} {v : List Byte}

theorem exec_of_commandBytes (hd : inDomain i s = true) (hv : commandBytes i s = .ok v) :
    exec i s = .next ((s.putCommand i v).endCommand (derivesKeys i) (keepsPair i)) :=
  exec_of_ok hd (by rw [commandResult_eq_map, hv]; rfl)

theorem putCommand_outLen (hv : commandBytes i s = .ok v) :
    (s.putCommand i v).outLen = BitVec.ofNat 32 v.length := by
  cases i with
  | encrypt | decrypt | derive | encblk | decblk | pad | unpad => rfl
  | mix => cases hv; rfl

/-- After a command has ended OUT holds its result bytes. -/
theorem outOperand_endCommand_putCommand (hd : inDomain i s = true) (hv : commandBytes i s = .ok v) (d k : Bool) :
    ((s.putCommand i v).endCommand d k).outOperand = v := by
  have hlt : v.length < 2 ^ 32 := Nat.lt_of_le_of_lt (commandBytes_length_le hd hv) Config.capOut_lt
  cases i with
  | encrypt | decrypt | derive | encblk | decblk | pad | unpad => exact outOperand_endCommand_putResult _ v hlt d k
  | mix => cases hv; rfl

/-- After a deriving command has ended RK holds the key schedule of its key, and RK_LEN its rounds (R42, R128, R208). -/
theorem roundKeys_endCommand_putCommand (hi : derivesKeys i = true) (s : State) (v : List Byte) (k : Bool) :
    ((s.putCommand i v).endCommand true k).rkLen = s.rounds ∧
    ((s.putCommand i v).endCommand true k).rkOperand =
      roundKeyWords Config.params s.keyOperand s.rounds.toNat := by
  have hput : s.putCommand i v = s.putCipherResult v := by
    cases i with
    | encrypt | decrypt | derive => rfl
    | encblk | decblk | pad | unpad | mix => cases hi
  have hlen := roundKeyWords_length Config.params s.keyOperand s.rounds.toNat
  rw [hput]
  refine ⟨rfl, rkOperand_of_writeSeq (m := s.rk) (g := s.draws) hlen.symm ?_⟩
  rw [hlen]
  rfl

theorem putCommand_mixY (s : State) (v : List Byte) :
    (s.putCommand .mix v).mixY = mix Config.params s.mixA s.mixK := rfl

theorem derivesKeys_of_derives (h : i = .derive ∨ i = .encrypt ∨ i = .decrypt) : derivesKeys i = true := by
  obtain rfl | rfl | rfl := h <;> rfl

/-- Settles O31: result bytes, round keys and MIX_Y are functions of the operands, and so is the kind of an error. -/
theorem operandsAloneDecideOutcome : Obligations.OperandsAloneDecideOutcome := by
  intro i s s' t h he
  obtain ⟨hd, ⟨u, hu, rfl⟩ | ⟨k, hk, rfl⟩⟩ := exec_next_cases he
  · obtain ⟨v, hv, rfl⟩ := commandResult_eq_ok hu
    have hd' : inDomain i s' = true := (inDomain_congr h).trans hd
    have hv' : commandBytes i s' = .ok v := h.commandBytes_eq.trans hv
    refine ⟨_, exec_of_commandBytes hd' hv', rfl, rfl, ?_, ?_, fun hi => ?_, fun hi => ?_⟩
    · rw [State.endCommand_outLen, State.endCommand_outLen, putCommand_outLen hv, putCommand_outLen hv']
    · rw [outOperand_endCommand_putCommand hd hv, outOperand_endCommand_putCommand hd' hv']
    · have hi := derivesKeys_of_derives hi
      rw [hi]
      obtain ⟨hl, hr⟩ := roundKeys_endCommand_putCommand hi s v (keepsPair i)
      obtain ⟨hl', hr'⟩ := roundKeys_endCommand_putCommand hi s' v (keepsPair i)
      rw [hl, hr, hl', hr', h.rounds (.inl hi), h.key hi]
      exact ⟨rfl, rfl⟩
    · subst hi
      rw [State.endCommand_mixY, State.endCommand_mixY, putCommand_mixY, putCommand_mixY, h.mixA rfl, h.mixK rfl]
  · have hd' : inDomain i s' = true := (inDomain_congr h).trans hd
    have hk' : commandResult i s' = .error k := by
      rw [commandResult_eq_map, h.commandBytes_eq]
      rw [commandResult_eq_map] at hk
      cases hb : commandBytes i s with
      | ok v => rw [hb] at hk; cases hk
      | error e => rw [hb] at hk; cases hk; rfl
    refine ⟨_, exec_of_error hd' hk', rfl, rfl, rfl, rfl, fun hi => ?_, fun hi => ?_⟩
    · rw [derivesKeys_of_derives hi]
      exact ⟨rfl, rfl⟩
    · subst hi; cases hk

end Sys2Proof.Machine
end

section
/-! Register accesses while BUSY = 0, the RK window and the reserved offsets (spec 10_state.md R24, R25, R43). -/

namespace Sys2Proof.Machine

variable {s : State} {off : Nat} {r : Reg}

theorem regValue_inputs (s : State) (rest : List Event) (r : Reg) :
    ({ s with inputs := rest } : State).regValue r = s.regValue r := by cases r <;> rfl

/-- While BUSY = 0 a register read delivers the register's value and changes nothing else (R61). -/
theorem step_readReg_of_idle (hp : s.phase = .idle) (hr : regAt off = some r) (rest : List Event) :
    step { s with inputs := .access (.readReg off) :: rest } =
      .next { s with inputs := rest, bus := some (.word (s.regValue r)) } := by
  have hb : ({ s with inputs := rest } : State).busy = false := busy_of_idle hp
  have hread : hostReadReg off { s with inputs := rest } =
      ({ s with inputs := rest } : State).deliver (.word (s.regValue r)) := by
    simp only [hostReadReg, hr, hb, regValue_inputs, Bool.false_and, Bool.false_eq_true, if_false]
  rw [step_event]
  exact congrArg Host.Outcome.next hread

/-- While BUSY = 0 a register write has the register's own effect (R62). -/
theorem step_writeReg_of_idle (hp : s.phase = .idle) (hr : regAt off = some r) (v : Word) (rest : List Event) :
    step { s with inputs := .access (.writeReg off v) :: rest } = writeRegIdle r v { s with inputs := rest } := by
  have hb : ({ s with inputs := rest } : State).busy = false := busy_of_idle hp
  have hwrite : hostWriteReg off v { s with inputs := rest } = writeRegIdle r v { s with inputs := rest } := by
    simp only [hostWriteReg, hr, hb, Bool.false_eq_true, if_false]
  exact hwrite

/-! ## The RK window -/

theorem windowRead_eq (s : State) :
    s.windowRead = if s.rkIdx.toNat < Config.capRk then s.readRk s.rkIdx.toNat else 0 := by
  simp only [State.windowRead, Config.hasEntry_iff]

theorem windowWrite_frame (s : State) (v : Word) : s.windowWrite v = { s with rk := (s.windowWrite v).rk } := by
  unfold State.windowWrite
  split <;> rfl

theorem windowWrite_of_le (h : Config.capRk ≤ s.rkIdx.toNat) (v : Word) : s.windowWrite v = s :=
  if_neg fun he => Nat.not_lt.2 h ((Config.hasEntry_iff _).1 he)

/-- The window's write reaches entry RK_IDX alone, and none at or above CAP_RK (R43). -/
theorem readRk_windowWrite (s : State) (v : Word) (j : Nat) :
    (s.windowWrite v).readRk j = if j = s.rkIdx.toNat ∧ j < Config.capRk then v else s.readRk j := by
  by_cases hx : s.rkIdx.toNat < Config.capRk
  · have hw : s.windowWrite v = { s with rk := s.rk.write s.rkIdx.toNat v } :=
      if_pos ((Config.hasEntry_iff _).2 hx)
    have hiff : (j = s.rkIdx.toNat ∧ j < Config.capRk) ↔ j = s.rkIdx.toNat := by omega
    rw [hw, if_congr hiff rfl rfl]
    exact Store.read_write _ _ _ _ _
  · rw [windowWrite_of_le (Nat.not_lt.1 hx), if_neg (by omega)]

theorem windowRead_windowWrite (s : State) (v : Word) :
    (s.windowWrite v).windowRead = if s.rkIdx.toNat < Config.capRk then v else 0 := by
  have hidx : (s.windowWrite v).rkIdx = s.rkIdx := by rw [windowWrite_frame]
  rw [windowRead_eq, hidx, readRk_windowWrite]
  by_cases hx : s.rkIdx.toNat < Config.capRk
  · rw [if_pos hx, if_pos ⟨rfl, hx⟩, if_pos hx]
  · rw [if_neg hx, if_neg hx]

/-- Settles O19: below CAP_RK the window is one store entry, at and above it there is none. -/
theorem roundKeyWindow : Obligations.RoundKeyWindow := by
  intro s v rest hp
  let u : State := { s with inputs := .access (.readReg 0x28) :: rest }
  have hframe := windowWrite_frame u v
  have hphase : (u.windowWrite v).phase = .idle := by rw [hframe]; exact hp
  refine ⟨u.windowWrite v, step_writeReg_of_idle (r := .rkData) hp rfl v _, by rw [hframe], by rw [hframe],
    fun j hj => ?_, fun hx => ?_, fun hx => ?_, ?_⟩
  · rw [readRk_windowWrite, if_neg fun h => hj h.1]; rfl
  · rw [readRk_windowWrite, if_pos ⟨rfl, hx⟩]
  · rw [windowWrite_of_le (s := u) hx]
  · have hread := step_readReg_of_idle (r := .rkData) (off := 0x28) hphase rfl rest
    have hu : { u.windowWrite v with inputs := .access (.readReg 0x28) :: rest } = u.windowWrite v := by
      conv => rhs; rw [hframe]
      rw [hframe]
    rw [hu, State.regValue, windowRead_windowWrite] at hread
    exact hread

/-! ## The status words -/

theorem errCodeWord_eq (s : State) : s.errCodeWord = BitVec.ofNat 32 s.errCode.toNat := by
  rw [BitVec.ofNat_toNat, BitVec.setWidth_eq_append (by decide)]
  rfl

theorem ctrlWord_eq (s : State) : s.ctrlWord = BitVec.ofNat 32 s.ie.toNat := by
  rw [State.ctrlWord]
  cases s.ie <;> decide

theorem statusWord_of_idle (hp : s.phase = .idle) :
    s.statusWord = BitVec.ofNat 32 (2 * s.done.toNat + 4 * s.err.toNat) := by
  rw [State.statusWord, busy_of_idle hp]
  cases s.done <;> cases s.err <;> decide

/-- Settles O16: each offset's register is read through `step_readReg_of_idle`. -/
theorem registerReadsWhileIdle : Obligations.RegisterReadsWhileIdle := by
  intro s rest hp
  have reads : ∀ {off : Nat} {r : Reg} {v : Word}, regAt off = some r → s.regValue r = v →
      step { s with inputs := .access (.readReg off) :: rest } =
        .next { s with inputs := rest, bus := some (.word v) } := by
    intro off r v hr hv
    rw [step_readReg_of_idle hp hr, hv]
  refine ⟨reads (r := .cmd) rfl rfl, reads (r := .status) rfl (statusWord_of_idle hp),
    reads (r := .errCode) rfl (errCodeWord_eq s), reads (r := .ctrl) rfl (ctrlWord_eq s), reads (r := .rounds) rfl rfl,
    reads (r := .keyLen) rfl rfl, reads (r := .inLen) rfl rfl, reads (r := .outLen) rfl rfl,
    reads (r := .rkLen) rfl rfl, reads (r := .rkIdx) rfl rfl, reads (r := .rkData) rfl (windowRead_eq s),
    reads (r := .mixA) rfl rfl, reads (r := .mixK) rfl rfl, reads (r := .mixY) rfl rfl⟩

/-! ## Reserved offsets -/

/-- The registers' offsets are the multiples of 4 below 0x38 (R24). -/
theorem Reg.offset_lt_and_aligned (r : Reg) : r.offset < 0x38 ∧ r.offset % 4 = 0 := by cases r <;> decide

theorem regAt_of_reserved (h : 0x38 ≤ off ∨ off % 4 ≠ 0) : regAt off = none := by
  refine List.find?_eq_none.2 fun r _ hr => ?_
  obtain ⟨hlt, hal⟩ := r.offset_lt_and_aligned
  have heq : r.offset = off := of_decide_eq_true hr
  omega

/-- Settles O18: no register stands at such an offset, and the zero fields are the high parts of the words. -/
theorem reservedOffsetsReadZero : Obligations.ReservedOffsetsReadZero := by
  intro s off rest
  refine ⟨fun h => ?_, ?_, BitVec.extractLsb'_append_eq_left, BitVec.extractLsb'_append_eq_left⟩
  · have hnone := regAt_of_reserved h
    refine ⟨?_, fun v => ?_⟩
    · have hread : hostReadReg off { s with inputs := rest } =
          ({ s with inputs := rest } : State).deliver (.word 0) := by simp only [hostReadReg, hnone]
      exact congrArg Host.Outcome.next hread
    · have hwrite : hostWriteReg off v { s with inputs := rest } = .next { s with inputs := rest } := by
        simp only [hostWriteReg, hnone, ite_self]
      exact hwrite
  · rw [State.statusWord]
    generalize s.err = e, s.done = d, s.busy = b
    cases e <;> cases d <;> cases b <;> decide

end Sys2Proof.Machine
end

section
/-! The state after reset (spec 10_state.md R50). -/

namespace Sys2Proof.Machine

/-- Settles O1: every field of R50, and stores that list nothing. -/
theorem resetGivesStatedValues : Obligations.ResetGivesStatedValues :=
  ⟨rfl, rfl, rfl, rfl, rfl, rfl, rfl, rfl, rfl, rfl, rfl, rfl, rfl, rfl, rfl, fun _ => ⟨rfl, rfl, rfl, rfl⟩⟩

theorem State.Fits.reset : State.reset.Fits :=
  have hg : 0 < State.reset.draws := Nat.one_pos
  ⟨.unspecified hg, .unspecified hg, .unspecified hg, .unspecified hg, Nat.zero_le _⟩

/-- Settles O4: the stores are empty, there is no error and no command runs. -/
theorem resetMeetsStateConditions : Obligations.ResetMeetsStateConditions :=
  ⟨State.Fits.reset.inv_of_noError rfl rfl (fun _ => rfl) nofun, State.onSequence_of_idle rfl⟩

end Sys2Proof.Machine
end

section
/-! Host reads of registers and buffers, host writes to the buffers and host writes while BUSY = 1: what one access gives
as a step (spec 10_state.md R24 to R45; 20_memory.md R61 to R65). -/

namespace Sys2Proof.Machine

variable {s : State} {off a : Nat} {r : Reg} {b : Buffer}

theorem busy_of_run (h : s.phase = .run) : s.busy = true := by simp [State.busy, h]

/-! ## Registers -/

/-- A read of a register that R65 does not hide delivers its value, whatever the engine does. -/
theorem step_readReg_of_shown (hr : regAt off = some r) (hshown : r.hiddenWhileBusy = false) (s : State)
    (rest : List Event) :
    step { s with inputs := .access (.readReg off) :: rest } =
      .next { s with inputs := rest, bus := some (.word (s.regValue r)) } := by
  have hread : hostReadReg off { s with inputs := rest } =
      ({ s with inputs := rest } : State).deliver (.word (s.regValue r)) := by
    simp only [hostReadReg, hr, hshown, regValue_inputs, Bool.and_false, Bool.false_eq_true, if_false]
  exact congrArg Host.Outcome.next hread

/-- While BUSY = 1 a read of a register that R65 hides delivers the next free draw. -/
theorem step_readReg_of_hidden (hp : s.phase = .run) (hr : regAt off = some r) (hhidden : r.hiddenWhileBusy = true)
    (rest : List Event) :
    step { s with inputs := .access (.readReg off) :: rest } =
      .next { s with
        inputs := rest, bus := some (.word (Config.freeReadWord s.draws)), draws := s.draws + 1 } := by
  have hb : ({ s with inputs := rest } : State).busy = true := busy_of_run hp
  have hread : hostReadReg off { s with inputs := rest } =
      ({ s with inputs := rest } : State).deliverFree (.word (Config.freeReadWord s.draws)) := by
    simp only [hostReadReg, hr, hb, hhidden, Bool.and_self, if_true]
  exact congrArg Host.Outcome.next hread

/-- A register read changes the delivered value and the draw counter at most (R61). -/
theorem hostReadReg_frame (off : Nat) (s : State) :
    ∃ d n, hostReadReg off s = { s with bus := some (.word d), draws := n } := by
  unfold hostReadReg
  split
  · exact ⟨_, _, rfl⟩
  · split <;> exact ⟨_, _, rfl⟩

/-- While BUSY = 1 a register write is ignored (R64). -/
theorem hostWriteReg_of_run (hp : s.phase = .run) (off : Nat) (v : Word) : hostWriteReg off v s = .next s :=
  if_pos (busy_of_run hp)

/-! ## Buffers -/

/-- The capacity of a buffer in bytes (R10, R60). -/
def Buffer.capacity : Buffer → Nat
  | .key => Config.capKey
  | .inp => Config.capIn
  | .out => Config.capOut

theorem hasAddress_iff : Config.hasAddress b a = true ↔ a < b.capacity := by
  cases b with
  | key => exact Config.hasAddress_key a
  | inp => exact Config.hasAddress_inp a
  | out => exact Config.hasAddress_out a

theorem readByte_inputs (s : State) (rest : List Event) (b : Buffer) (a : Nat) :
    ({ s with inputs := rest } : State).readByte b a = s.readByte b a := by cases b <;> rfl

/-- Inside the buffer a read is the host's read of a byte (R63). -/
theorem step_readBuf (h : a < b.capacity) (s : State) (rest : List Event) :
    step { s with inputs := .access (.readBuf b a) :: rest } = .next (hostReadBuf b a { s with inputs := rest }) :=
  if_pos (hasAddress_iff.2 h)

/-- At and above the capacity there is no storage, so no access (R63). -/
theorem step_readBuf_outside (h : b.capacity ≤ a) (s : State) (rest : List Event) :
    step { s with inputs := .access (.readBuf b a) :: rest } = .refused .outsideInterface :=
  if_neg fun ha => Nat.not_lt.2 h (hasAddress_iff.1 ha)

theorem step_writeBuf_outside (h : b.capacity ≤ a) (s : State) (v : Byte) (rest : List Event) :
    step { s with inputs := .access (.writeBuf b a v) :: rest } = .refused .outsideInterface :=
  if_neg fun ha => Nat.not_lt.2 h (hasAddress_iff.1 ha)

/-- A buffer read delivers the byte, unless it is of OUT while BUSY = 1 (R63, R65). -/
theorem step_readBuf_of_shown (h : a < b.capacity) (hshown : s.phase = .idle ∨ b ≠ .out) (rest : List Event) :
    step { s with inputs := .access (.readBuf b a) :: rest } =
      .next { s with inputs := rest, bus := some (.byte (s.readByte b a)) } := by
  have hb : (({ s with inputs := rest } : State).busy && b.hiddenWhileBusy) = false := by
    obtain hp | hne := hshown
    · rw [busy_of_idle (s := { s with inputs := rest }) hp, Bool.false_and]
    · cases b with
      | key | inp => exact Bool.and_false _
      | out => exact absurd rfl hne
  have hread : hostReadBuf b a { s with inputs := rest } =
      ({ s with inputs := rest } : State).deliver (.byte (s.readByte b a)) := by
    simp only [hostReadBuf, hb, readByte_inputs, Bool.false_eq_true, if_false]
  exact (step_readBuf h s rest).trans (congrArg Host.Outcome.next hread)

/-- While BUSY = 1 a read of OUT delivers the next free draw (R65). -/
theorem step_readBuf_out_of_run (hp : s.phase = .run) (h : a < Config.capOut) (rest : List Event) :
    step { s with inputs := .access (.readBuf .out a) :: rest } =
      .next { s with
        inputs := rest, bus := some (.byte (Config.freeReadByte s.draws)), draws := s.draws + 1 } := by
  have hb : ({ s with inputs := rest } : State).busy = true := busy_of_run hp
  have hread : hostReadBuf .out a { s with inputs := rest } =
      ({ s with inputs := rest } : State).deliverFree (.byte (Config.freeReadByte s.draws)) := by
    simp only [hostReadBuf, hb, Buffer.hiddenWhileBusy, Bool.and_self, if_true]
  exact (step_readBuf (b := .out) h s rest).trans (congrArg Host.Outcome.next hread)

/-- A buffer read changes the delivered value and the draw counter at most (R61). -/
theorem hostReadBuf_frame (b : Buffer) (a : Nat) (s : State) :
    ∃ d n, hostReadBuf b a s = { s with bus := some (.byte d), draws := n } := by
  unfold hostReadBuf
  split <;> exact ⟨_, _, rfl⟩

/-- The state with `v` stored at address `a` of the buffer; OUT is not the host's to write (R23). -/
def State.storeByte (s : State) (v : Byte) : Buffer → Nat → State
  | .key, a => { s with key := s.key.write a v }
  | .inp, a => { s with inp := s.inp.write a v }
  | .out, _ => s

theorem hostWriteBuf_eq (b : Buffer) (a : Nat) (v : Byte) (s : State) :
    hostWriteBuf b a v s = if s.busy then s else s.storeByte v b a := by cases b <;> rfl

/-- While BUSY = 0 a write inside the buffer stores the byte (R63). -/
theorem step_writeBuf_of_idle (hp : s.phase = .idle) (h : a < b.capacity) (v : Byte) (rest : List Event) :
    step { s with inputs := .access (.writeBuf b a v) :: rest } =
      .next (({ s with inputs := rest } : State).storeByte v b a) := by
  have hb : ({ s with inputs := rest } : State).busy = false := busy_of_idle hp
  have hwrite : hostWriteBuf b a v { s with inputs := rest } =
      ({ s with inputs := rest } : State).storeByte v b a := by
    rw [hostWriteBuf_eq, hb, if_neg Bool.false_ne_true]
  exact (if_pos (hasAddress_iff.2 h)).trans (congrArg Host.Outcome.next hwrite)

/-- While BUSY = 1 a write inside the buffer is ignored (R64). -/
theorem step_writeBuf_of_run (hp : s.phase = .run) (h : a < b.capacity) (v : Byte) (rest : List Event) :
    step { s with inputs := .access (.writeBuf b a v) :: rest } = .next { s with inputs := rest } := by
  have hb : ({ s with inputs := rest } : State).busy = true := busy_of_run hp
  have hwrite : hostWriteBuf b a v { s with inputs := rest } = { s with inputs := rest } := by
    rw [hostWriteBuf_eq, hb, if_pos rfl]
  exact (if_pos (hasAddress_iff.2 h)).trans (congrArg Host.Outcome.next hwrite)

end Sys2Proof.Machine
end

section
/-! The statements about host accesses: reads and writes while BUSY = 1, the buffers, and the register writes while
BUSY = 0 (spec 20_memory.md R61 to R65). -/

namespace Sys2Proof.Machine

variable {s : State}

/-- A running command has raised no error yet (R32, R36). -/
theorem State.Inv.errCode_of_run (h : s.Inv) (hp : s.phase = .run) : s.errCode = 0 := by
  obtain ⟨-, herr⟩ := h.running hp
  refine Decidable.byContradiction fun hne => ?_
  rw [h.errCode.2 hne] at herr
  cases herr

/-- While a command runs STATUS reads 1: BUSY alone is set (R32). -/
theorem State.Inv.statusWord_of_run (h : s.Inv) (hp : s.phase = .run) : s.statusWord = 1 := by
  obtain ⟨hdone, herr⟩ := h.running hp
  rw [State.statusWord, hdone, herr, busy_of_run hp]
  decide

theorem State.Inv.errCodeWord_of_run (h : s.Inv) (hp : s.phase = .run) : s.errCodeWord = 0 := by
  rw [State.errCodeWord, h.errCode_of_run hp]
  decide

/-- Settles O17: a shown register or byte reads as it is, a hidden one as the next draw. -/
theorem readsWhileBusy : Obligations.ReadsWhileBusy := by
  intro s rest hp hinv
  have shown : ∀ {off : Nat} {r : Reg} {v : Word}, regAt off = some r → r.hiddenWhileBusy = false →
      s.regValue r = v →
      step { s with inputs := .access (.readReg off) :: rest } =
        .next { s with inputs := rest, bus := some (.word v) } := by
    intro off r v hr hshown hv
    rw [step_readReg_of_shown hr hshown, hv]
  refine ⟨shown (r := .cmd) rfl rfl rfl, shown (r := .status) rfl rfl (hinv.statusWord_of_run hp),
    shown (r := .errCode) rfl rfl (hinv.errCodeWord_of_run hp), shown (r := .ctrl) rfl rfl (ctrlWord_eq s),
    shown (r := .rounds) rfl rfl rfl, shown (r := .keyLen) rfl rfl rfl, shown (r := .inLen) rfl rfl rfl,
    shown (r := .rkIdx) rfl rfl rfl, shown (r := .mixA) rfl rfl rfl, shown (r := .mixK) rfl rfl rfl,
    fun a ha => step_readBuf_of_shown (b := .key) ha (.inr nofun) rest,
    fun a ha => step_readBuf_of_shown (b := .inp) ha (.inr nofun) rest, ?_,
    fun a ha => step_readBuf_out_of_run hp ha rest⟩
  rintro off (rfl | rfl | rfl | rfl)
  · exact step_readReg_of_hidden (r := .outLen) hp rfl rfl rest
  · exact step_readReg_of_hidden (r := .rkLen) hp rfl rfl rest
  · exact step_readReg_of_hidden (r := .rkData) hp rfl rfl rest
  · exact step_readReg_of_hidden (r := .mixY) hp rfl rfl rest

/-- Settles O20: below the capacity an access is the buffer's own, at and above it there is none. -/
theorem bufferAccesses : Obligations.BufferAccesses := by
  intro s a v rest capacity write read
  have hcap : ∀ b, capacity b = b.capacity := fun b => by cases b <;> rfl
  refine ⟨fun hp => ⟨fun ha => ?_, fun ha => ?_, fun ha => ?_⟩, ?_, ?_, fun b ha hshown => ?_, fun b ha => ⟨?_, ?_⟩⟩
  · exact step_writeBuf_of_idle (b := .key) hp ha v rest
  · exact step_writeBuf_of_idle (b := .inp) hp ha v rest
  · exact step_writeBuf_of_idle (b := .out) hp ha v rest
  · rintro t rfl x
    exact Store.read_write _ _ _ _ _
  · rintro t rfl x
    exact Store.read_write _ _ _ _ _
  · exact step_readBuf_of_shown (by rwa [← hcap]) hshown rest
  · exact step_writeBuf_outside (by rwa [← hcap]) s v rest
  · exact step_readBuf_outside (by rwa [← hcap]) s rest

/-- Settles O14: no write is accepted while BUSY = 1, inside the interface. -/
theorem writesWhileBusyIgnored : Obligations.WritesWhileBusyIgnored := fun s rest hp =>
  ⟨fun off v => hostWriteReg_of_run (s := { s with inputs := rest }) hp off v,
    fun _ _ v ha => step_writeBuf_of_run hp (hasAddress_iff.1 ha) v rest⟩

/-- Settles O15: every read is a delivery, of a value or of a draw. -/
theorem hostReadsHaveNoSideEffect : Obligations.HostReadsHaveNoSideEffect := by
  intro s rest
  refine ⟨fun off => ?_, fun b a ha => ?_⟩
  · obtain ⟨d, n, h⟩ := hostReadReg_frame off { s with inputs := rest }
    exact ⟨d, n, congrArg Host.Outcome.next h⟩
  · obtain ⟨d, n, h⟩ := hostReadBuf_frame b a { s with inputs := rest }
    exact ⟨d, n, (step_readBuf (hasAddress_iff.1 ha) s rest).trans (congrArg Host.Outcome.next h)⟩

/-- The W1C write to STATUS, as one assignment to DONE (R34). -/
theorem writeRegIdle_status (v : Word) (s : State) :
    writeRegIdle .status v s = .next { s with done := s.done && !v.getLsbD 1 } := by
  unfold writeRegIdle
  cases v.getLsbD 1 with
  | true => rw [Bool.not_true, Bool.and_false]; rfl
  | false => rw [Bool.not_false, Bool.and_true]; rfl

theorem windowWrite_of_lt (h : s.rkIdx.toNat < Config.capRk) (v : Word) :
    s.windowWrite v = { s with rk := s.rk.write s.rkIdx.toNat v } :=
  if_pos ((Config.hasEntry_iff _).2 h)

/-- Settles O13: each offset's register is written through `step_writeReg_of_idle`. -/
theorem registerWritesWhileIdle : Obligations.RegisterWritesWhileIdle := by
  intro s v rest hp s' write
  have writes : ∀ {off : Nat} {r : Reg} {t : State}, regAt off = some r → writeRegIdle r v s' = .next t →
      write off = .next t := fun hr ht => (step_writeReg_of_idle hp hr v rest).trans ht
  refine ⟨writes (r := .status) rfl (writeRegIdle_status v s'), writes (r := .errCode) rfl rfl,
    writes (r := .ctrl) rfl rfl, writes (r := .rounds) rfl rfl, writes (r := .keyLen) rfl rfl,
    writes (r := .inLen) rfl rfl, writes (r := .outLen) rfl rfl, writes (r := .rkLen) rfl rfl,
    writes (r := .rkIdx) rfl rfl, fun hx => writes (r := .rkData) rfl ?_, fun hx => writes (r := .rkData) rfl ?_,
    writes (r := .mixA) rfl rfl, writes (r := .mixK) rfl rfl, writes (r := .mixY) rfl rfl⟩
  · exact congrArg Host.Outcome.next (windowWrite_of_lt (s := s') hx v)
  · exact congrArg Host.Outcome.next (windowWrite_of_le (s := s') hx v)

end Sys2Proof.Machine
end

section
/-! The idle engine, the domain of every command and its frame (spec 20_memory.md R67, R72, R77; 44_engine.md R230). -/

namespace Sys2Proof.Machine

variable {s t : State} {i : Instr}

theorem engineRun_of_idle (hp : s.phase = .idle) : engineRun s = .next s := by simp only [engineRun, hp]

theorem engineStep_of_idle (hp : s.phase = .idle) : engineStep s = .next s := by simp only [engineStep, hp]

/-- Settles O10: the idle engine's run and its micro-step leave the state as it is. -/
theorem idleEngineChangesNothing : Obligations.IdleEngineChangesNothing := by
  intro s hp
  refine ⟨fun hin => ?_, fun rest hin => ?_⟩
  · simp only [step, cycle, hin]
    exact engineRun_of_idle hp
  · obtain hin | hin := hin <;> simp only [step, cycle, hin, handle]
    · exact engineRun_of_idle (s := { s with inputs := rest }) hp
    · exact engineStep_of_idle (s := { s with inputs := rest }) hp

/-! ## The domain -/

theorem derivesKeys_iff : derivesKeys i = true ↔ i = .derive ∨ i = .encrypt ∨ i = .decrypt := by
  cases i <;> decide

theorem readsIn_iff : readsIn i = true ↔
    i = .encblk ∨ i = .decblk ∨ i = .pad ∨ i = .unpad ∨ i = .encrypt ∨ i = .decrypt := by
  cases i <;> decide

theorem readsStore_iff : readsStore i = true ↔ i = .encblk ∨ i = .decblk := by cases i <;> decide

/-- `exec` refuses a command where it is outside the domain, and nowhere else. -/
theorem exec_refused_iff : exec i s = .refused .outsideDomain ↔ ¬inDomain i s = true := by
  refine ⟨fun he hd => ?_, fun hd => exec_outside (Bool.eq_false_iff.2 hd)⟩
  cases hr : commandResult i s with
  | ok u => rw [exec_of_ok hd hr] at he; cases he
  | error k => rw [exec_of_error hd hr] at he; cases he

/-- Outside the domain: one of the lengths the command uses exceeds its storage (R67). -/
theorem not_inDomain_iff : ¬inDomain i s = true ↔
    derivesKeys i = true ∧ (Config.capKey < s.keyLen.toNat ∨ Config.capRk < s.rounds.toNat) ∨
      readsIn i = true ∧ Config.capIn < s.inLen.toNat ∨ readsStore i = true ∧ Config.capRk < s.rkLen.toNat := by
  simp only [inDomain_iff, Classical.not_and_iff_not_or_not, Classical.not_imp, Nat.not_le]

/-- Settles O25: the domain's inequalities, negated. -/
theorem refusedExactlyOutsideDomain : Obligations.RefusedExactlyOutsideDomain := by
  intro i s
  rw [exec_refused_iff, not_inDomain_iff, derivesKeys_iff, readsIn_iff, readsStore_iff]

/-! ## The frame -/

theorem derivesKeys_eq_false (h : i = .mix ∨ i = .encblk ∨ i = .decblk ∨ i = .pad ∨ i = .unpad) :
    derivesKeys i = false := by
  obtain rfl | rfl | rfl | rfl | rfl := h <;> rfl

/-- No command changes what the host owns (R72). -/
theorem hostStateKept_of_exec (he : exec i s = .next t) : HostStateKept s t := by
  obtain ⟨-, ⟨u, hu, rfl⟩ | ⟨k, -, rfl⟩⟩ := exec_next_cases he
  · exact hostStateKept_endCommand hu _ _
  · exact hostStateKept_failCommand s _ k

/-- A command that does not derive round keys leaves them as they are (R72). -/
theorem roundKeysKept_of_exec (hi : derivesKeys i = false) (he : exec i s = .next t) : RoundKeysKept s t := by
  obtain ⟨-, ⟨u, hu, rfl⟩ | ⟨k, -, rfl⟩⟩ := exec_next_cases he <;> rw [hi]
  · obtain ⟨-, hkept, -⟩ := commandResult_frame hu
    obtain ⟨hrk, hlen⟩ := hkept hi
    exact roundKeysKept_of_eq hlen hrk
  · exact roundKeysKept_of_eq rfl rfl

/-- Only MIX writes MIX_Y (R72). -/
theorem mixY_of_exec (hi : i ≠ .mix) (he : exec i s = .next t) : t.mixY = s.mixY := by
  obtain ⟨-, ⟨u, hu, rfl⟩ | ⟨k, -, rfl⟩⟩ := exec_next_cases he
  · obtain ⟨-, -, hmixY⟩ := commandResult_frame hu
    exact hmixY hi
  · rfl

/-- MIX leaves the working pair as it is (R145). -/
theorem pair_of_exec_mix (he : exec .mix s = .next t) : t.l = s.l ∧ t.r = s.r := by
  obtain ⟨-, ⟨u, hu, rfl⟩ | ⟨k, hk, -⟩⟩ := exec_next_cases he
  · cases hu; exact ⟨rfl, rfl⟩
  · cases hk

/-- A command takes no event and delivers no value. -/
theorem inputs_bus_of_exec (he : exec i s = .next t) : t.inputs = s.inputs ∧ t.bus = s.bus := by
  obtain ⟨-, ⟨u, hu, rfl⟩ | ⟨k, -, rfl⟩⟩ := exec_next_cases he
  · obtain ⟨hframe, -⟩ := commandResult_frame hu
    rw [hframe]
    exact ⟨rfl, rfl⟩
  · exact ⟨rfl, rfl⟩

/-- Settles O27: each clause is a frame lemma of `exec`. -/
theorem commandsLeaveTheRestUnchanged : Obligations.CommandsLeaveTheRestUnchanged := fun _ _ _ he =>
  ⟨hostStateKept_of_exec he, fun hi => roundKeysKept_of_exec (derivesKeys_eq_false hi) he, fun hi => mixY_of_exec hi he,
    fun hi => pair_of_exec_mix (hi ▸ he), inputs_bus_of_exec he⟩

end Sys2Proof.Machine
end

section
/-! The decoder: a word by its two fields, the inverse of the encoder, and the illegal words (spec 30_encoding.md R91 to
R95). -/

namespace Sys2Proof

variable {w : Word} {i : Instr}

theorem zeroField_append_opcodeField (w : Word) : zeroField w ++ opcodeField w = w :=
  BitVec.extractLsb'_append_extractLsb'_eq_extractLsb' rfl |>.trans BitVec.extractLsb'_eq_self

theorem eq_append_opcodeField (h : zeroField w = 0) : w = 0#28 ++ opcodeField w := by
  conv => lhs; rw [← zeroField_append_opcodeField w, h]
  rfl

@[simp] theorem decode_encode (i : Instr) : decode (encode i) = .ok i := by cases i <;> rfl

/-- Every row of the opcode map compares the whole word with its command's word (R92). -/
theorem eq_of_mem_opcodeTable {row : OpcodeRow} (h : row ∈ opcodeTable) :
    row = ⟨encode row.instr, 0xFFFFFFFF#32, row.instr⟩ := by
  simp only [opcodeTable, List.mem_cons, List.not_mem_nil, or_false] at h
  obtain rfl | rfl | rfl | rfl | rfl | rfl | rfl | rfl := h <;> rfl

theorem eq_encode_of_decode (h : decode w = .ok i) : w = encode i := by
  unfold decode at h
  split at h
  · split at h
    · rename_i row hrow
      cases h
      have hmatch : w &&& row.maskBits = row.matchBits := by simpa using List.find?_some hrow
      rw [eq_of_mem_opcodeTable (List.mem_of_find?_eq_some hrow)] at hmatch
      exact BitVec.and_allOnes.symm.trans hmatch
    · cases h
  · cases h

theorem decode_eq_ok_iff : decode w = .ok i ↔ w = encode i :=
  ⟨eq_encode_of_decode, fun h => h ▸ decode_encode i⟩

theorem decode_eq_zeroField_iff : decode w = .error .zeroField ↔ zeroField w ≠ 0 := by
  unfold decode
  split
  · rename_i hz
    split <;> simp [hz]
  · rename_i hz
    exact iff_of_true rfl hz

theorem decode_append_eq_reservedOpcode_iff : ∀ op : BitVec 4,
    decode (0#28 ++ op) = .error .reservedOpcode ↔ op.toNat = 0 ∨ 9 ≤ op.toNat := by decide

theorem decode_eq_reservedOpcode_iff : decode w = .error .reservedOpcode ↔
    zeroField w = 0 ∧ ((opcodeField w).toNat = 0 ∨ 9 ≤ (opcodeField w).toNat) := by
  by_cases hz : zeroField w = 0
  · conv => lhs; rw [eq_append_opcodeField hz]
    rw [decode_append_eq_reservedOpcode_iff, and_iff_right hz]
  · rw [decode_eq_zeroField_iff.2 hz]
    exact iff_of_false nofun fun h => hz h.1

/-- Settles O7: the decoder inverts the encoder, and each rejection is read off the field it is named for. -/
theorem decodeAndEncodeAgree : Obligations.DecodeAndEncodeAgree := fun _ =>
  ⟨fun _ => decode_eq_ok_iff, decode_eq_zeroField_iff, decode_eq_reservedOpcode_iff⟩

/-- Settles O8: the table's words are the encoder's, and the four others have an illegal field. -/
theorem tableWordsDecode : Obligations.TableWordsDecode :=
  ⟨decode_encode .encrypt, decode_encode .decrypt, decode_encode .derive, decode_encode .encblk, decode_encode .decblk,
    decode_encode .pad, decode_encode .unpad, decode_encode .mix, decode_eq_reservedOpcode_iff.2 (by decide),
    decode_eq_reservedOpcode_iff.2 (by decide), decode_eq_zeroField_iff.2 (by decide),
    decode_eq_zeroField_iff.2 (by decide)⟩

/-- Every illegal word is rejected, under one of the two names (R95). -/
theorem exists_decode_eq_error
    (h : zeroField w ≠ 0 ∨ (opcodeField w).toNat = 0 ∨ 9 ≤ (opcodeField w).toNat) : ∃ e, decode w = .error e := by
  by_cases hz : zeroField w = 0
  · exact ⟨_, decode_eq_reservedOpcode_iff.2 ⟨hz, h.resolve_left (not_not_intro hz)⟩⟩
  · exact ⟨_, decode_eq_zeroField_iff.2 hz⟩

end Sys2Proof
end

section
/-! The accepted write to CMD, the completion of an illegal word, and START with WAIT (spec 30_encoding.md R95, R104;
44_engine.md R201, R221; 60_exceptions.md R248; 70_reset_and_hazards.md R291). -/

namespace Sys2Proof.Machine

variable {s : State} {i : Instr} {w : Word}

/-! ## Illegal words -/

theorem acceptCommand_of_error {e : DecodeReject} (hw : decode w = .error e) (s : State) :
    acceptCommand w s = .next (s.start w) := by simp only [acceptCommand, hw]

theorem engineRun_of_error {e : DecodeReject} (hp : s.phase = .run) (hw : decode s.cmd = .error e) :
    engineRun s = .next (s.failCommand false .illegalCommand) := by simp only [engineRun, hp, hw]

theorem engineStep_of_error {e : DecodeReject} (hp : s.phase = .run) (hw : decode s.cmd = .error e)
    (hsub : s.seq.sub = .sCheck) : engineStep s = .next (s.failCommand false .illegalCommand) := by
  simp only [engineStep, microStep, hp, hw, hsub]

/-- However the engine moves next, a started illegal word completes with IllegalCommand (R95, R221, R248). -/
theorem step_start_of_error {e : DecodeReject} {rest after : List Event} (hw : decode w = .error e) (s : State)
    (hafter : after = [] ∨ after = .engineRun :: rest ∨ after = .engineStep :: rest) :
    ∃ left, step (({ s with inputs := after } : State).start w) =
      .next ((({ s with inputs := left } : State).start w).failCommand false .illegalCommand) := by
  obtain rfl | rfl | rfl := hafter
  · exact ⟨[], engineRun_of_error (s := ({ s with inputs := [] } : State).start w) rfl hw⟩
  · exact ⟨rest, engineRun_of_error (s := ({ s with inputs := rest } : State).start w) rfl hw⟩
  · exact ⟨rest, engineStep_of_error (s := ({ s with inputs := rest } : State).start w) rfl hw rfl⟩

/-- Settles O12: the write starts the word, and the engine's next move is the completion with IllegalCommand. -/
theorem illegalWordCompletesWithIllegalCommand : Obligations.IllegalWordCompletesWithIllegalCommand := by
  intro s w rest hp hill after hafter
  obtain ⟨e, hw⟩ := exists_decode_eq_error hill
  obtain ⟨left, hstep⟩ := step_start_of_error hw s hafter
  have hstart : step { s with inputs := .access (.writeReg 0x00 w) :: after } =
      .next (({ s with inputs := after } : State).start w) :=
    (step_writeReg_of_idle (r := .cmd) hp rfl w after).trans (acceptCommand_of_error hw _)
  exact ⟨_, _, hstart, rfl, rfl, rfl, hstep, failedWith_failCommand _ _ _, rfl, rfl, roundKeysKept_of_eq rfl rfl, rfl,
    hostStateKept_of_eq rfl rfl rfl rfl rfl rfl rfl rfl rfl rfl⟩

/-! ## START and WAIT -/

theorem with_inputs_eq {inputs : List Event} (h : s.inputs = inputs) : { s with inputs := inputs } = s := by
  subst h; rfl

theorem acceptCommand_encode (hd : inDomain i s = true) : acceptCommand (encode i) s = .next (s.start (encode i)) := by
  simp only [acceptCommand, decode_encode, hd, if_true]

theorem engineRun_of_ok (hp : s.phase = .run) (hw : decode s.cmd = .ok i) : engineRun s = exec i s := by
  simp only [engineRun, hp, hw]

/-- START of a command inside the domain starts it (R104, R201). -/
theorem step_startOf (hp : s.phase = .idle) (hd : inDomain i s = true) (rest : List Event) :
    step { s with inputs := startOf i ++ rest } = .next (({ s with inputs := rest } : State).start (encode i)) :=
  (step_writeReg_of_idle (r := .cmd) hp rfl (encode i) rest).trans
    (acceptCommand_encode (s := { s with inputs := rest }) hd)

/-- The engine's run after START is `exec` of the started command (R202). -/
theorem step_engineRun_start (i : Instr) (s : State) (rest : List Event) :
    step (({ s with inputs := .engineRun :: rest } : State).start (encode i)) =
      exec i { s.start (encode i) with inputs := rest } :=
  engineRun_of_ok (s := { s.start (encode i) with inputs := rest }) rfl (decode_encode i)

/-- Inside the domain a command completes, with success or with one error kind (R203). -/
theorem exec_completes_of_inDomain (hd : inDomain i s = true) :
    ∃ t, exec i s = .next t ∧ (t.Succeeded ∨ ∃ k, t.FailedWith k) := by
  cases hr : commandResult i s with
  | ok u => exact ⟨_, exec_of_ok hd hr, .inl (succeeded_endCommand u _ _)⟩
  | error k => exact ⟨_, exec_of_error hd hr, .inr ⟨k, failedWith_failCommand s _ k⟩⟩

/-- The bits of STATUS: BUSY at 0, DONE at 1, ERR at 2 (R32). -/
theorem statusWord_bits (s : State) :
    s.statusWord.getLsbD 0 = s.busy ∧ s.statusWord.getLsbD 1 = s.done ∧ s.statusWord.getLsbD 2 = s.err := by
  rw [State.statusWord]
  generalize s.err = e, s.done = d, s.busy = b
  cases e <;> cases d <;> cases b <;> decide

/-- Settles O24: the write starts the command, the run completes it, and the read shows the completion's flags. -/
theorem waitSeesCompletion : Obligations.WaitSeesCompletion := by
  intro i s rest hp hd
  obtain ⟨b, hexec, hb⟩ :=
    exec_completes_of_inDomain (i := i) (s := { s.start (encode i) with inputs := rd .status ++ rest }) hd
  obtain ⟨hphase, hdone⟩ : b.phase = .idle ∧ b.done = true := by
    obtain h | ⟨k, h⟩ := hb <;> exact ⟨h.phase, h.done⟩
  have hread : step b = .next { b with inputs := rest, bus := some (.word b.statusWord) } := by
    have hinputs : b.inputs = .access (.readReg 0x04) :: rest := (inputs_bus_of_exec hexec).left
    have h := step_readReg_of_idle (r := .status) (off := 0x04) hphase rfl rest
    rwa [with_inputs_eq hinputs] at h
  obtain ⟨hbusy, hdone', herr⟩ := statusWord_bits b
  exact ⟨_, b, _, b.statusWord, step_startOf hp hd (wait ++ rest), (step_engineRun_start i s _).trans hexec, hread,
    hexec, rfl, rfl, hbusy.trans (busy_of_idle hphase), hdone'.trans hdone, herr, rfl⟩

end Sys2Proof.Machine
end

section
/-! The closed form of the key schedule (spec 40_key_schedule.md R121, R124, R127): the round keys are the first words of
one sequence that does not depend on how many are asked for. -/

namespace Sys2Proof.Machine

variable {p : Params} {key : List Byte} {rounds : Nat}

/-- Word `i` of the key's word sequence: word `i mod 8` of the digest under the counter `i div 8` (R122 to R124). -/
def scheduleWord (p : Params) (key : List Byte) (i : Nat) : Word :=
  fromBe32 (slice (p.hash (hashMessage key (BitVec.ofNat 32 (i / 8)))).toList (4 * (i % 8)) (4 * (i % 8) + 4))

theorem getElem?_slice {α : Type} (l : List α) {i j k : Nat} (h : k < j - i) : (slice l i j)[k]? = l[i + k]? := by
  rw [slice, List.getElem?_take_of_lt h, List.getElem?_drop]

/-- Item `i` of a concatenation of blocks stands in block `i / 8`. -/
theorem getElem?_flatMap_blocks {α : Type} {g : Nat → List α} (hg : ∀ j, (g j).length = 8) {n i : Nat}
    (h : i / 8 < n) : ((List.range n).flatMap g)[i]? = (g (i / 8))[i % 8]? := by
  have hlt : i % 8 < 8 * (i / 8) + 8 - 8 * (i / 8) := by omega
  rw [← slice_flatMap_blocks hg h, getElem?_slice _ hlt, Nat.div_add_mod]

theorem getElem?_digestWords (d : Digest) {j : Nat} (h : j < 8) :
    (digestWords d)[j]? = some (fromBe32 (slice d.toList (4 * j) (4 * j + 4))) := by
  rw [digestWords, List.getElem?_map, List.getElem?_range h, Option.map_some]

theorem getElem?_roundKeyWords (p : Params) (key : List Byte) {i : Nat} (h : i < rounds) :
    (roundKeyWords p key rounds)[i]? = some (scheduleWord p key i) := by
  rw [roundKeyWords_eq, List.getElem?_take_of_lt h, getElem?_flatMap_blocks (fun _ => digestWords_length _) (by omega),
    getElem?_digestWords _ (Nat.mod_lt i (by decide)), scheduleWord]

/-- The closed form of R124 as one equation. -/
theorem roundKeyWords_eq_map (p : Params) (key : List Byte) (rounds : Nat) :
    roundKeyWords p key rounds = (List.range rounds).map (scheduleWord p key) := by
  refine List.ext_getElem? fun i => ?_
  by_cases hi : i < rounds
  · rw [getElem?_roundKeyWords p key hi, List.getElem?_map, List.getElem?_range hi, Option.map_some]
  · rw [List.getElem?_eq_none (by rw [roundKeyWords_length]; omega), List.getElem?_eq_none (by simpa using hi)]

theorem deriveRoundKeys_nil (p : Params) (rounds : Nat) : deriveRoundKeys p [] rounds = .error .emptyKey := rfl

theorem deriveRoundKeys_zero (p : Params) (h : key ≠ []) : deriveRoundKeys p key 0 = .error .invalidRounds := by
  rw [deriveRoundKeys, if_neg (mt List.length_eq_zero_iff.1 h), if_pos Nat.zero_lt_one]

/-- Settles O43: the two checks in order, then each word of the schedule read off `getElem?_roundKeyWords`. -/
theorem roundKeyClosedForm : Obligations.RoundKeyClosedForm := by
  intro p key rounds
  refine ⟨fun hkey => ?_, fun hkey hr => ?_, fun hkey hr => ?_⟩
  · rw [hkey, deriveRoundKeys_nil]
  · rw [hr, deriveRoundKeys_zero p hkey]
  · exact ⟨_, deriveRoundKeys_ok hkey hr, roundKeyWords_length p key rounds, fun _ hi => getElem?_roundKeyWords p key hi⟩

/-- Settles O44: `m` and `n` round keys are the first `m` and the first `n` words of the same sequence. -/
theorem roundKeysArePrefixClosed : Obligations.RoundKeysArePrefixClosed := by
  intro p key m n hkey hm hmn
  refine ⟨_, _, deriveRoundKeys_ok hkey hm, deriveRoundKeys_ok hkey (Nat.le_trans hm hmn), ?_⟩
  rw [roundKeyWords_eq_map, roundKeyWords_eq_map, ← List.map_take, List.take_range, Nat.min_eq_left hmn]

end Sys2Proof.Machine
end

section
/-! What the deriving commands leave in RK, and DERIVE's result (spec 20_memory.md R72; 40_key_schedule.md R128;
60_exceptions.md R250). -/

namespace Sys2Proof.Machine

variable {s : State} {i : Instr}

theorem keyOperand_eq_nil_iff : s.keyOperand = [] ↔ s.keyLen = 0 := by
  rw [← List.length_eq_zero_iff, keyOperand_length]
  exact BitVec.toNat_inj (y := 0#32)

theorem inDomain_derive (hkey : s.keyLen.toNat ≤ Config.capKey) (hrounds : s.rounds.toNat ≤ Config.capRk) :
    inDomain .derive s = true :=
  (inDomain_iff .derive s).2 ⟨fun _ => ⟨hkey, hrounds⟩, nofun, nofun⟩

/-- After a deriving command has ended no entry from ROUNDS up is specified (R72). -/
theorem lookup_rk_endCommand_putCommand (hi : derivesKeys i = true) (s : State) (v : List Byte) (k : Bool) {a : Nat}
    (ha : s.rounds.toNat ≤ a) : Cells.lookup ((s.putCommand i v).endCommand true k).rk.cells a = none := by
  obtain ⟨hlen, -⟩ := roundKeys_endCommand_putCommand hi s v k
  rw [State.endCommand_rkLen] at hlen
  exact lookup_forgetFrom _ _ _ a (hlen ▸ ha)

/-- A deriving command that fails leaves no round key, and keeps MIX_Y and what the host wrote (R72, R250). -/
theorem exec_deriving_of_error {k : ErrorKind} (hi : derivesKeys i = true) (hd : inDomain i s = true)
    (hk : commandResult i s = .error k) :
    ∃ t, exec i s = .next t ∧ t.FailedWith k ∧ t.rkLen = 0 ∧ (∀ a, Cells.lookup t.rk.cells a = none) ∧
      t.mixY = s.mixY ∧ HostStateKept s t := by
  refine ⟨_, exec_of_error hd hk, failedWith_failCommand s _ k, ?_, fun a => ?_, rfl, hostStateKept_failCommand s _ k⟩
  · rw [State.failCommand_rkLen, if_pos hi]
  · rw [State.failCommand_rk, if_pos hi]
    exact lookup_forgetFrom _ _ _ a (Nat.zero_le a)

/-- Settles O33: each of the three cases of `deriveRoundKeys` carried through the shared frame. -/
theorem deriveResult : Obligations.DeriveResult := by
  intro s hkey hrounds
  have hd := inDomain_derive hkey hrounds
  have fails {k : ErrorKind} (hk : deriveRoundKeys Config.params s.keyOperand s.rounds.toNat = .error k) :=
    exec_deriving_of_error rfl hd ((raises_iff (i := .derive)).1 hk)
  refine ⟨fun hk hr => ?_, fun hk => fails ?_, fun hk hr => fails ?_⟩
  · have hne : s.keyOperand ≠ [] := List.ne_nil_of_length_pos (by rwa [keyOperand_length])
    have hok := deriveRoundKeys_ok (p := Config.params) hne hr
    have hbytes : commandBytes .derive s = .ok [] := by rw [commandBytes, hok]; rfl
    have hexec := exec_of_commandBytes hd hbytes
    obtain ⟨hlen, hkeys⟩ := roundKeys_endCommand_putCommand (i := .derive) rfl s [] false
    exact ⟨_, _, hok, hexec, succeeded_endCommand _ _ _, hlen, hkeys,
      fun _ ha => lookup_rk_endCommand_putCommand (i := .derive) rfl s [] false ha, rfl,
      fun _ => lookup_out_endCommand_putResult _ (by decide) _ _ (Nat.zero_le _),
      mixY_of_exec (i := .derive) nofun hexec, hostStateKept_of_exec hexec⟩
  · rw [keyOperand_eq_nil_iff.2 hk, deriveRoundKeys_nil]
  · rw [hr]
    exact deriveRoundKeys_zero _ (mt keyOperand_eq_nil_iff.1 hk)

end Sys2Proof.Machine
end

section
/-! The word primitives of the round function against their defining formulas, and MIX's result (spec
41_round_function.md R141, R142, R145). -/

namespace Sys2Proof.Machine

theorem and32_31_toNat (a : Word) : (and32 a 31).toNat = a.toNat % 32 :=
  Nat.and_two_pow_sub_one_eq_mod a.toNat 5

/-- The two parts of a rotation share no bit: the left one is 0 below bit `s`, the right one from bit `s` up. -/
theorem shiftLeft_and_ushiftRight_eq_zero (a : Word) (s : Nat) : a <<< s &&& a >>> (32 - s) = 0#32 := by
  ext n hn
  rw [BitVec.getElem_and, BitVec.getElem_shiftLeft, BitVec.getElem_ushiftRight, BitVec.getElem_zero]
  by_cases hlow : n < s
  · simp [hlow]
  · rw [BitVec.getLsbD_of_ge a (32 - s + n) (by omega), Bool.and_false]

/-- So the sum of R141's definition does not overflow. -/
theorem rotl32_toNat (a : Word) (s : Nat) :
    (rotl32 a s).toNat = (a.toNat * 2 ^ s) % 2 ^ 32 + a.toNat / 2 ^ (32 - s) := by
  rw [rotl32, BitVec.toNat_add_of_and_eq_zero (shiftLeft_and_ushiftRight_eq_zero a s), BitVec.toNat_shiftLeft,
    BitVec.toNat_ushiftRight, Nat.shiftLeft_eq, Nat.shiftRight_eq_div_pow]

/-- And the sum is the library's rotation, whose bits are known. -/
theorem rotl32_eq_rotateLeft (a : Word) {s : Nat} (hs : s < 32) : rotl32 a s = a.rotateLeft s := by
  rw [rotl32, BitVec.add_eq_or_of_and_eq_zero _ _ (shiftLeft_and_ushiftRight_eq_zero a s), BitVec.rotateLeft_def,
    Nat.mod_eq_of_lt hs]

theorem rotl32_zero (a : Word) : rotl32 a 0 = a := by
  apply BitVec.eq_of_toNat_eq
  have := a.isLt
  rw [rotl32_toNat]
  omega

/-- Bit `n` moves to bit `(n + s) mod 32`: without wrapping where `n + s < 32`, else to a bit below `s`. -/
theorem getLsbD_rotl32 (a : Word) {s n : Nat} (hs : s < 32) (hn : n < 32) :
    (rotl32 a s).getLsbD ((n + s) % 32) = a.getLsbD n := by
  rw [rotl32_eq_rotateLeft a hs, BitVec.getLsbD_rotateLeft_of_le hs]
  by_cases hwrap : n + s < 32
  · have hbit : (n + s) % 32 = n + s := Nat.mod_eq_of_lt hwrap
    simp [hbit, hwrap]
  · have hbit : (n + s) % 32 = n + s - 32 := by omega
    have hlow : n + s - 32 < s := by omega
    have hback : 32 - s + (n + s - 32) = n := by omega
    simp [hbit, hlow, hback]

theorem swap16_toNat (a : Word) : (swap16 a).toNat = a.toNat % 2 ^ 16 * 2 ^ 16 + a.toNat / 2 ^ 16 := by
  have hhigh : (a.extractLsb' 16 16).toNat = a.toNat / 2 ^ 16 := by
    rw [BitVec.extractLsb'_toNat, Nat.shiftRight_eq_div_pow]
    have := a.isLt
    omega
  rw [swap16, BitVec.toNat_append, Nat.shiftLeft_eq, Nat.mul_comm,
    ← Nat.two_pow_add_eq_or_of_lt (a.extractLsb' 16 16).isLt, hhigh, BitVec.extractLsb'_toNat, Nat.shiftRight_zero,
    Nat.mul_comm]

theorem swap16_eq_rotl32 (a : Word) : swap16 a = rotl32 a 16 := by
  apply BitVec.eq_of_toNat_eq
  rw [swap16_toNat, rotl32_toNat]
  omega

/-- Settles O45: each clause is a lemma about its primitive. -/
theorem arithmeticPrimitives : Obligations.ArithmeticPrimitives := fun a b =>
  ⟨BitVec.toNat_add a b, BitVec.toNat_mul a b, fun _ => BitVec.getLsbD_xor, fun _ => BitVec.getLsbD_and,
    and32_31_toNat a, fun s _ => rotl32_toNat a s, fun _ _ hs hn => getLsbD_rotl32 a hs hn, rotl32_zero a,
    swap16_toNat a, swap16_eq_rotl32 a⟩

theorem swap16_eq_ofNat (a : Word) :
    swap16 a = BitVec.ofNat 32 (a.toNat % 2 ^ 16 * 2 ^ 16 + a.toNat / 2 ^ 16) := by
  rw [← swap16_toNat, BitVec.ofNat_toNat, BitVec.setWidth_eq]

/-- `Mix` in the terms of R141: the rotation's count as a remainder and the exchanged halves as a number. -/
theorem mix_eq (p : Params) (half k : Word) :
    mix p half k =
      rotl32 ((half + k) ^^^ p.cXor) ((k ^^^ ((half + k) ^^^ p.cXor)).toNat % 32) * p.cMul ^^^
        BitVec.ofNat 32 (k.toNat % 2 ^ 16 * 2 ^ 16 + k.toNat / 2 ^ 16) := by
  rw [← swap16_eq_ofNat, ← and32_31_toNat]
  rfl

/-- MIX is inside the domain in every state and completes with MIX_Y written (R67, R145). -/
theorem exec_mix (s : State) : exec .mix s = .next (s.putMix.endCommand false true) :=
  exec_of_ok rfl rfl

/-- Settles O32: `Mix`'s formula, and the frame of a command that neither fails nor derives. -/
theorem mixResult : Obligations.MixResult := by
  intro s
  obtain ⟨hl, hr⟩ := pair_of_exec_mix (exec_mix s)
  exact ⟨_, exec_mix s, succeeded_endCommand _ _ _, mix_eq Config.params s.mixA s.mixK, rfl,
    fun a => lookup_forgetFrom s.out 0 s.draws a (Nat.zero_le a), roundKeysKept_of_exec rfl (exec_mix s), hl, hr,
    hostStateKept_of_exec (exec_mix s)⟩

end Sys2Proof.Machine
end

section
/-! The two block functions for every function in the place of `Mix`: the checks they share, that each undoes the other,
and the degenerate cases of no round and of one (spec 42_feistel_core.md R155 to R161, R165, R166). -/

namespace Sys2Proof.Machine

variable {f : Word → Word → Word} {p : Params} {b : List Byte} {k : List Word} {rounds : Nat}

/-- A fold whose every step `h` takes back over the same list, the last step first. -/
theorem foldl_reverse_foldl {α β : Type} {g h : β → α → β} (hinv : ∀ x a, h (g x a) a = x) (l : List α) (x : β) :
    l.reverse.foldl h (l.foldl g x) = x := by
  induction l generalizing x with
  | nil => rfl
  | cons a l ih => rw [List.foldl_cons, List.reverse_cons, List.foldl_append, ih, List.foldl_cons, List.foldl_nil, hinv]

theorem encryptBlockWith_ok (f : Word → Word → Word) (k : List Word) (hb : b.length = 8) :
    encryptBlockWith f b k k.length = .ok (pack (k.foldl (roundStep f) (unpack b))) := by
  rw [encryptBlockWith, if_neg (not_not_intro hb), if_neg (not_not_intro rfl)]

theorem decryptBlockWith_ok (f : Word → Word → Word) (k : List Word) (hb : b.length = 8) :
    decryptBlockWith f b k k.length = .ok (pack (k.reverse.foldl (invRoundStep f) (unpack b))) := by
  rw [decryptBlockWith, if_neg (not_not_intro hb), if_neg (not_not_intro rfl)]

/-- Settles O46: the inverse rounds take the rounds back in reverse order, and the rounds the inverse rounds. -/
theorem blockFunctionsAreInverse : Obligations.BlockFunctionsAreInverse := by
  intro f b k hb
  refine ⟨⟨_, encryptBlockWith_ok f k hb, pack_length _, ?_⟩, ⟨_, decryptBlockWith_ok f k hb, pack_length _, ?_⟩⟩
  · rw [decryptBlockWith_ok f k (pack_length _), unpack_pack, foldl_reverse_foldl (invRoundStep_roundStep f),
      pack_unpack hb]
  · have hundo := foldl_reverse_foldl (roundStep_invRoundStep f) k.reverse (unpack b)
    rw [List.reverse_reverse] at hundo
    rw [encryptBlockWith_ok f k (pack_length _), unpack_pack, hundo, pack_unpack hb]

/-- The two checks that stand before both block functions (R159, R161) raise exactly when one of them fails. -/
theorem blockChecks_eq_error_iff {c : List Byte} {e : ErrorKind} :
    (if b.length ≠ 8 then .error e else if k.length ≠ rounds then .error e else .ok c : Except ErrorKind (List Byte)) =
      .error e ↔ b.length ≠ 8 ∨ k.length ≠ rounds := by
  by_cases hb : b.length = 8
  · by_cases hk : k.length = rounds <;> simp [hb, hk]
  · simp [hb]

theorem encryptBlock_eq_error_iff :
    encryptBlock p b k rounds = .error .invalidBlockLength ↔ b.length ≠ 8 ∨ k.length ≠ rounds :=
  blockChecks_eq_error_iff

theorem decryptBlock_eq_error_iff :
    decryptBlock p b k rounds = .error .invalidBlockLength ↔ b.length ≠ 8 ∨ k.length ≠ rounds :=
  blockChecks_eq_error_iff

/-- Settles O47: the functions share their checks. -/
theorem blockPreconditions : Obligations.BlockPreconditions := fun _ _ _ _ =>
  ⟨encryptBlock_eq_error_iff, decryptBlock_eq_error_iff⟩

/-- With no round key a block function only unpacks the block and packs it again. -/
theorem encryptBlock_nil (p : Params) (hb : b.length = 8) : encryptBlock p b [] 0 = .ok b :=
  (encryptBlock_ok p [] hb).trans (congrArg Except.ok (pack_unpack hb))

theorem decryptBlock_nil (p : Params) (hb : b.length = 8) : decryptBlock p b [] 0 = .ok b :=
  (decryptBlock_ok p [] hb).trans (congrArg Except.ok (pack_unpack hb))

/-- The second half of a block, unpacked and packed again. -/
theorem be32_unpack_snd (hb : b.length = 8) : be32 (unpack b).2 = b.drop 4 := by
  have hdrop : (b.drop 4).length = 4 := by rw [List.length_drop, hb]
  have hslice : slice b 4 8 = b.drop 4 := List.take_of_length_le (Nat.le_of_eq hdrop)
  rw [unpack, hslice, be32_fromBe32 hdrop]

/-- Settles O48: a round moves `R` to the place of `L`, and the block's first four bytes are `L`'s. -/
theorem oneRoundKeepsSecondHalf : Obligations.OneRoundKeepsSecondHalf := fun p _ k hb =>
  ⟨_, encryptBlock_ok p [k] hb, be32_unpack_snd hb⟩

end Sys2Proof.Machine
end

section
/-! ENCBLK and DECBLK, the two commands that read the round-key store as given: they share domain, errors and frame, and
differ in the block function alone (spec 42_feistel_core.md R163, R164, R166). -/

namespace Sys2Proof.Machine

variable {s : State} {i : Instr} {b : List Byte}

/-- The block commands' domain (R67). -/
theorem inDomain_of_readsStore (hi : readsStore i = true) (hin : s.inLen.toNat ≤ Config.capIn)
    (hrk : s.rkLen.toNat ≤ Config.capRk) : inDomain i s = true := by
  refine (inDomain_iff i s).2 ⟨?_, fun _ => hin, fun _ => hrk⟩
  obtain rfl | rfl := readsStore_iff.1 hi <;> nofun

/-- The operands of a block command fit its block function exactly when IN_LEN = 8 and RK_LEN = ROUNDS. -/
theorem block_operands_iff (s : State) :
    s.inOperand.length ≠ 8 ∨ s.rkOperand.length ≠ s.rounds.toNat ↔ s.inLen ≠ 8 ∨ s.rkLen ≠ s.rounds := by
  rw [inOperand_length, rkOperand_length]
  exact or_congr (not_congr (BitVec.toNat_inj (y := 8#32))) (not_congr BitVec.toNat_inj)

theorem commandBytes_eq_error_of_readsStore (hi : readsStore i = true) (h : s.inLen ≠ 8 ∨ s.rkLen ≠ s.rounds) :
    commandBytes i s = .error .invalidBlockLength := by
  have h := (block_operands_iff s).2 h
  obtain rfl | rfl := readsStore_iff.1 hi
  · exact encryptBlock_eq_error_iff.2 h
  · exact decryptBlock_eq_error_iff.2 h

theorem exists_commandBytes_of_readsStore (hi : readsStore i = true) (hin : s.inLen = 8) (hrk : s.rkLen = s.rounds) :
    ∃ b, commandBytes i s = .ok b := by
  have hb : s.inOperand.length = 8 := by rw [inOperand_length, hin]; rfl
  have hrounds : s.rounds.toNat = s.rkOperand.length := by rw [rkOperand_length, hrk]
  obtain rfl | rfl := readsStore_iff.1 hi <;> rw [commandBytes, hrounds]
  · exact ⟨_, encryptBlock_ok _ _ hb⟩
  · exact ⟨_, decryptBlock_ok _ _ hb⟩

theorem commandBytes_length_of_readsStore (hi : readsStore i = true) (hv : commandBytes i s = .ok b) : b.length = 8 := by
  obtain rfl | rfl := readsStore_iff.1 hi
  · exact encryptBlock_length hv
  · exact decryptBlock_length hv

/-- A block command on operands that fit its function: the block in OUT, nothing above it, all else as it was (R72). -/
theorem exec_of_readsStore_of_ok (hi : readsStore i = true) (hd : inDomain i s = true) (hin : s.inLen = 8)
    (hrk : s.rkLen = s.rounds) :
    ∃ t b, commandBytes i s = .ok b ∧ exec i s = .next t ∧ t.Succeeded ∧ t.outLen = 8 ∧ t.memReadOut 0 8 = b ∧
      (∀ a, 8 ≤ a → Cells.lookup t.out.cells a = none) ∧
      RoundKeysKept s t ∧ t.mixY = s.mixY ∧ HostStateKept s t := by
  obtain ⟨b, hv⟩ := exists_commandBytes_of_readsStore hi hin hrk
  have hlen := commandBytes_length_of_readsStore hi hv
  have hexec := exec_of_commandBytes hd hv
  have hout := outOperand_endCommand_putCommand hd hv (derivesKeys i) (keepsPair i)
  have houtLen : ((s.putCommand i b).endCommand (derivesKeys i) (keepsPair i)).outLen = 8 := by
    rw [State.endCommand_outLen, putCommand_outLen hv, hlen]
    rfl
  rw [State.outOperand, houtLen] at hout
  refine ⟨_, b, hv, hexec, succeeded_endCommand _ _ _, houtLen, hout, fun a ha => ?_, roundKeysKept_of_exec ?_ hexec,
    mixY_of_exec ?_ hexec, hostStateKept_of_exec hexec⟩
  · rw [State.endCommand_out]
    rw [State.endCommand_outLen] at houtLen
    exact lookup_forgetFrom _ _ _ a (houtLen ▸ ha)
  · obtain rfl | rfl := readsStore_iff.1 hi <;> rfl
  · obtain rfl | rfl := readsStore_iff.1 hi <;> nofun

/-- A block command on operands that do not fit its function (R250). -/
theorem exec_of_readsStore_of_error (hi : readsStore i = true) (hd : inDomain i s = true)
    (h : s.inLen ≠ 8 ∨ s.rkLen ≠ s.rounds) :
    ∃ t, exec i s = .next t ∧ t.FailedWith .invalidBlockLength ∧
      RoundKeysKept s t ∧ t.mixY = s.mixY ∧ HostStateKept s t := by
  have hexec := exec_of_error hd (k := .invalidBlockLength)
    (by rw [commandResult_eq_map, commandBytes_eq_error_of_readsStore hi h]; rfl)
  refine ⟨_, hexec, failedWith_failCommand _ _ _, roundKeysKept_of_exec ?_ hexec, rfl, hostStateKept_of_exec hexec⟩
  obtain rfl | rfl := readsStore_iff.1 hi <;> rfl

theorem inOperand_eq_block (hin : s.inLen = 8) : s.inOperand = s.memReadIn 0 8 := by rw [State.inOperand, hin]; rfl

/-- Settles O34: the block function of ENCBLK is `EncryptBlock` on the operands. -/
theorem encblkResult : Obligations.EncblkResult := by
  intro s hcap hcapRk
  have hd := inDomain_of_readsStore (i := .encblk) rfl hcap hcapRk
  refine ⟨fun hin hrk => ?_, exec_of_readsStore_of_error rfl hd⟩
  rw [← inOperand_eq_block hin]
  exact exec_of_readsStore_of_ok rfl hd hin hrk

/-- Settles O35: the block function of DECBLK is `DecryptBlock` on the operands. -/
theorem decblkResult : Obligations.DecblkResult := by
  intro s hcap hcapRk
  have hd := inDomain_of_readsStore (i := .decblk) rfl hcap hcapRk
  refine ⟨fun hin hrk => ?_, exec_of_readsStore_of_error rfl hd⟩
  rw [← inOperand_eq_block hin]
  exact exec_of_readsStore_of_ok rfl hd hin hrk

/-- With no round keys a block command gives the block as it stands in IN. -/
theorem commandBytes_of_zero_rounds (hi : readsStore i = true) (hin : s.inLen = 8) (hrk : s.rkLen = 0)
    (hrounds : s.rounds = 0) : commandBytes i s = .ok (s.memReadIn 0 8) := by
  have hkeys : s.rkOperand = [] := by rw [State.rkOperand, hrk]; rfl
  obtain rfl | rfl := readsStore_iff.1 hi <;> rw [commandBytes, inOperand_eq_block hin, hkeys, hrounds]
  · exact encryptBlock_nil _ (memReadIn_length s 0 8)
  · exact decryptBlock_nil _ (memReadIn_length s 0 8)

/-- Equal buffer reads from address 0 are equal byte by byte. -/
theorem readOut_eq_of_memRead {t : State} {n a : Nat} (h : t.memReadOut 0 n = s.memReadIn 0 n) (ha : a < n) :
    t.readOut a = s.readIn a := by
  have hbyte := List.map_inj_left.1 h a (List.mem_range.2 ha)
  rwa [Nat.zero_add] at hbyte

/-- Settles O36: the block of IN is the result, and the operands lie inside the domain whatever the capacities are. -/
theorem zeroRoundBlockIsIdentity : Obligations.ZeroRoundBlockIsIdentity := by
  intro s i hi hin hrk hrounds
  have hi := readsStore_iff.2 hi
  have hd : inDomain i s = true :=
    inDomain_of_readsStore hi (hin ▸ Config.eight_le_capIn) (hrk ▸ Nat.zero_le Config.capRk)
  obtain ⟨t, b, hb, hexec, hdone, hlen, hout, -⟩ := exec_of_readsStore_of_ok hi hd hin (hrk.trans hrounds.symm)
  obtain rfl := Except.ok.inj (hb.symm.trans (commandBytes_of_zero_rounds hi hin hrk hrounds))
  exact ⟨t, hexec, hdone, hlen, fun _ => readOut_eq_of_memRead hout⟩

end Sys2Proof.Machine
end

section
/-! `Pad` and `Unpad` on byte sequences: the three checks of `Unpad` in their order, what `Pad` appends, and a padded
buffer with one byte changed (spec 43_padding.md R181 to R186; 30_encoding.md R100). -/

namespace Sys2Proof.Machine

variable {p q d m : List Byte} {v : Byte}

/-! ## The checks of `Unpad` -/

/-- `Unpad` as its three checks in the order of R185. -/
theorem unpad_eq_checks (p : List Byte) : unpad p =
    if p = [] ∨ p.length % 8 ≠ 0 then .error .invalidPaddingInputLength
    else if lastByte p = 0 ∨ 8 < lastByte p then .error .invalidPaddingLength
    else if ∃ b ∈ p.drop (p.length - lastByte p), b.toNat ≠ lastByte p then .error .invalidPaddingBytes
    else .ok (p.take (p.length - lastByte p)) := by
  simp only [unpad, checkPadding, List.length_eq_zero_iff, List.any_eq_true, decide_eq_true_eq]
  split_ifs <;> rfl

theorem unpad_eq_invalidPaddingInputLength_iff :
    unpad p = .error .invalidPaddingInputLength ↔ p = [] ∨ p.length % 8 ≠ 0 := by
  simp [unpad_eq_checks, ite_eq_iff, or_iff_not_imp_left]

theorem unpad_eq_invalidPaddingLength_iff : unpad p = .error .invalidPaddingLength ↔
    p ≠ [] ∧ p.length % 8 = 0 ∧ (lastByte p = 0 ∨ 8 < lastByte p) := by
  simp [unpad_eq_checks, ite_eq_iff, and_assoc, or_iff_not_imp_left]

theorem unpad_eq_invalidPaddingBytes_iff : unpad p = .error .invalidPaddingBytes ↔
    p ≠ [] ∧ p.length % 8 = 0 ∧ 1 ≤ lastByte p ∧ lastByte p ≤ 8 ∧
      ∃ b ∈ p.drop (p.length - lastByte p), b.toNat ≠ lastByte p := by
  simp [unpad_eq_checks, ite_eq_iff, and_assoc, Nat.one_le_iff_ne_zero]

theorem unpad_eq_ok_iff : unpad p = .ok m ↔
    p ≠ [] ∧ p.length % 8 = 0 ∧ 1 ≤ lastByte p ∧ lastByte p ≤ 8 ∧
      (∀ b ∈ p.drop (p.length - lastByte p), b.toNat = lastByte p) ∧ m = p.take (p.length - lastByte p) := by
  simp [unpad_eq_checks, ite_eq_iff, and_assoc, Nat.one_le_iff_ne_zero, @eq_comm _ m]

/-- Settles O51: each outcome read off the chain of checks. -/
theorem unpadAcceptsExactlyPadded : Obligations.UnpadAcceptsExactlyPadded := fun _ =>
  ⟨fun _ => unpad_eq_ok_iff, unpad_eq_invalidPaddingInputLength_iff, unpad_eq_invalidPaddingLength_iff,
    unpad_eq_invalidPaddingBytes_iff⟩

/-! ## What `Pad` appends -/

theorem pad_length_eq_blocks (d : List Byte) : (pad d).length = 8 * (d.length / 8 + 1) := by
  rw [pad_length, padCount]
  omega

theorem getElem?_pad_of_lt {a : Nat} (h : a < d.length) : (pad d)[a]? = d[a]? := List.getElem?_append_left h

theorem getElem?_pad_of_ge {a : Nat} (h : d.length ≤ a) (h' : a < d.length + padCount d.length) :
    (pad d)[a]? = some (BitVec.ofNat 8 (padCount d.length)) := by
  rw [pad, List.getElem?_append_right h, List.getElem?_replicate_of_lt (by omega)]

theorem pad_length_sub_lastByte (d : List Byte) : (pad d).length - lastByte (pad d) = d.length := by
  rw [pad_length, lastByte_pad, Nat.add_sub_cancel]

/-- The trailing bytes the padding count speaks of are the appended ones. -/
theorem drop_pad (d : List Byte) : (pad d).drop d.length =
    List.replicate (padCount d.length) (BitVec.ofNat 8 (padCount d.length)) := List.drop_left

theorem padByte_toNat (n : Nat) : (BitVec.ofNat 8 (padCount n)).toNat = padCount n := by
  rw [BitVec.toNat_ofNat, Nat.mod_eq_of_lt (Nat.lt_of_le_of_lt (padCount_le n) (by decide))]

/-- The trailing bytes of a padded buffer have the value of the last one (R182). -/
theorem pad_trailing (d : List Byte) :
    ∀ b ∈ (pad d).drop ((pad d).length - lastByte (pad d)), b.toNat = lastByte (pad d) := by
  intro b hb
  rw [pad_length_sub_lastByte, drop_pad] at hb
  rw [List.eq_of_mem_replicate hb, padByte_toNat, lastByte_pad]

theorem pad_of_aligned (h : d.length % 8 = 0) : pad d = d ++ List.replicate 8 8 := by
  rw [pad, padCount, h]
  rfl

theorem pad_aligned (d : List Byte) : (pad d).length % 8 = 0 := by
  rw [pad_length_eq_blocks, Nat.mul_mod_right]

theorem lastByte_pad_pos (d : List Byte) : 1 ≤ lastByte (pad d) := lastByte_pad d ▸ padCount_pos _

theorem lastByte_pad_le (d : List Byte) : lastByte (pad d) ≤ 8 := lastByte_pad d ▸ padCount_le _

/-- Settles O49: the lengths follow from the closed form, and the trailing bytes are the appended ones. -/
theorem paddedLengths : Obligations.PaddedLengths := by
  intro d
  have hlen := pad_length d
  have hblocks := pad_length_eq_blocks d
  have hpos := padCount_pos d.length
  exact ⟨hlen, hblocks, pad_aligned d, by omega, by omega, by omega, lastByte_pad_pos d, lastByte_pad_le d,
    pad_trailing d, pad_of_aligned⟩

/-- Settles O50: a padded buffer passes the three checks, and what is left of it is the data. -/
theorem unpadInvertsPad : Obligations.UnpadInvertsPad := by
  intro d
  have hne : pad d ≠ [] := List.ne_nil_of_length_pos (by rw [pad_length_eq_blocks]; omega)
  refine unpad_eq_ok_iff.2 ⟨hne, pad_aligned d, lastByte_pad_pos d, lastByte_pad_le d, pad_trailing d, ?_⟩
  rw [pad_length_sub_lastByte]
  exact List.take_left.symm

/-! ## One byte changed -/

theorem lastByte_concat (q : List Byte) (v : Byte) : lastByte (q ++ [v]) = v.toNat := by simp [lastByte]

/-- Counting `k` bytes back from the end of `q ++ [v]` counts one byte less back from the end of `q`. -/
theorem concat_length_sub {k : Nat} (q : List Byte) (v : Byte) (hk : 1 ≤ k) :
    (q ++ [v]).length - k = q.length - (k - 1) := by
  rw [List.length_append, List.length_singleton]
  omega

theorem take_concat {k : Nat} (q : List Byte) (v : Byte) (hk : 1 ≤ k) :
    (q ++ [v]).take ((q ++ [v]).length - k) = q.take (q.length - (k - 1)) := by
  rw [concat_length_sub q v hk, List.take_append_of_le_length (Nat.sub_le _ _)]

theorem drop_concat {k : Nat} (q : List Byte) (v : Byte) (hk : 1 ≤ k) :
    (q ++ [v]).drop ((q ++ [v]).length - k) = q.drop (q.length - (k - 1)) ++ [v] := by
  rw [concat_length_sub q v hk, List.drop_append_of_le_length (Nat.sub_le _ _)]

theorem concat_aligned (hq : (q.length + 1) % 8 = 0) (v : Byte) : q ++ [v] ≠ [] ∧ (q ++ [v]).length % 8 = 0 :=
  ⟨List.concat_ne_nil v q, by rwa [List.length_append, List.length_singleton]⟩

theorem unpad_concat_of_count (hq : (q.length + 1) % 8 = 0) (hv : v.toNat = 0 ∨ 8 < v.toNat) :
    unpad (q ++ [v]) = .error .invalidPaddingLength := by
  obtain ⟨hne, haligned⟩ := concat_aligned hq v
  exact unpad_eq_invalidPaddingLength_iff.2 ⟨hne, haligned, by rwa [lastByte_concat]⟩

theorem unpad_concat_of_all (hq : (q.length + 1) % 8 = 0) (h1 : 1 ≤ v.toNat) (h8 : v.toNat ≤ 8)
    (hb : ∀ b ∈ q.drop (q.length - (v.toNat - 1)), b = v) :
    unpad (q ++ [v]) = .ok (q.take (q.length - (v.toNat - 1))) := by
  obtain ⟨hne, haligned⟩ := concat_aligned hq v
  rw [unpad_eq_ok_iff, lastByte_concat, take_concat q v h1, drop_concat q v h1]
  refine ⟨hne, haligned, h1, h8, fun b hmem => congrArg BitVec.toNat ?_, rfl⟩
  obtain hmem | hmem := List.mem_append.1 hmem
  · exact hb b hmem
  · exact List.mem_singleton.1 hmem

theorem unpad_concat_of_mem (hq : (q.length + 1) % 8 = 0) (h1 : 1 ≤ v.toNat) (h8 : v.toNat ≤ 8)
    {b : Byte} (hb : b ∈ q.drop (q.length - (v.toNat - 1))) (hne : b ≠ v) :
    unpad (q ++ [v]) = .error .invalidPaddingBytes := by
  obtain ⟨hnil, haligned⟩ := concat_aligned hq v
  rw [unpad_eq_invalidPaddingBytes_iff, lastByte_concat, drop_concat q v h1]
  exact ⟨hnil, haligned, h1, h8, b, List.mem_append_left _ hb, mt BitVec.eq_of_toNat_eq hne⟩

/-- A padded buffer without its last byte. -/
def padFront (d : List Byte) : List Byte :=
  d ++ List.replicate (padCount d.length - 1) (BitVec.ofNat 8 (padCount d.length))

theorem pad_eq_concat (d : List Byte) : pad d = padFront d ++ [BitVec.ofNat 8 (padCount d.length)] := by
  rw [pad, padFront, List.append_assoc, ← List.replicate_succ', Nat.sub_add_cancel (padCount_pos _)]

theorem padFront_length (d : List Byte) : (padFront d).length = d.length + (padCount d.length - 1) := by
  rw [padFront, List.length_append, List.length_replicate]

theorem padFront_aligned (d : List Byte) : ((padFront d).length + 1) % 8 = 0 := by
  rw [padFront_length, padCount]
  omega

theorem padFront_of_padCount_one (h : padCount d.length = 1) : padFront d = d := by
  rw [padFront, h]
  exact List.append_nil d

theorem getElem?_padFront {j : Nat} (h : j < padCount d.length - 1) :
    (padFront d)[d.length + j]? = some (BitVec.ofNat 8 (padCount d.length)) := by
  rw [padFront, List.getElem?_append_right (Nat.le_add_right _ _), Nat.add_sub_cancel_left,
    List.getElem?_replicate_of_lt h]

/-- A change of the last byte leaves the rest of a padded buffer. -/
theorem set_pad_last {j : Nat} (d : List Byte) (v : Byte) (hj : j + 1 = padCount d.length) :
    (pad d).set (d.length + j) v = padFront d ++ [v] := by
  have hlast : d.length + j = (padFront d).length := by rw [padFront_length]; omega
  rw [pad_eq_concat, hlast, List.set_append_right _ _ (Nat.le_refl _), Nat.sub_self, List.set_cons_zero]

/-- A change of an earlier padding byte leaves the last byte. -/
theorem set_pad_inner {j : Nat} (d : List Byte) (v : Byte) (hj : j + 1 < padCount d.length) :
    (pad d).set (d.length + j) v =
      (padFront d).set (d.length + j) v ++ [BitVec.ofNat 8 (padCount d.length)] := by
  rw [pad_eq_concat, List.set_append_left _ _ (by rw [padFront_length]; omega)]

theorem mem_drop_of_getElem? {l : List Byte} {i k : Nat} {b : Byte} (h : l[i]? = some b) (hk : k ≤ i) :
    b ∈ l.drop k := by
  refine List.mem_of_getElem? (i := i - k) ?_
  rw [List.getElem?_drop, Nat.add_sub_cancel' hk, h]

/-- A padding byte before the last one that does not have the value of the count fails the third check. -/
theorem unpad_set_pad_inner {j : Nat} (hj : j + 1 < padCount d.length) (hv : v.toNat ≠ padCount d.length) :
    unpad ((pad d).set (d.length + j) v) = .error .invalidPaddingBytes := by
  have hbyte := padByte_toNat d.length
  have hlen := padFront_length d
  rw [set_pad_inner d v hj]
  refine unpad_concat_of_mem (b := v) ?_ ?_ ?_ (mem_drop_of_getElem? (List.getElem?_set_self ?_) ?_) ?_
  · rw [List.length_set]; exact padFront_aligned d
  · rw [hbyte]; exact padCount_pos _
  · rw [hbyte]; exact padCount_le _
  · omega
  · rw [List.length_set, hbyte]; omega
  · exact fun h => hv (h ▸ hbyte)

/-- With at least two padding bytes the one before the last tells a changed last byte from the count. -/
theorem unpad_set_pad_last {j : Nat} (hj : j + 1 = padCount d.length) (hv : v.toNat ≠ padCount d.length)
    (h2 : 2 ≤ v.toNat) (h8 : v.toNat ≤ 8) (hn : 2 ≤ padCount d.length) :
    unpad ((pad d).set (d.length + j) v) = .error .invalidPaddingBytes := by
  have hbyte := padByte_toNat d.length
  have hlen := padFront_length d
  rw [set_pad_last d v hj]
  refine unpad_concat_of_mem (padFront_aligned d) (by omega) h8
    (mem_drop_of_getElem? (getElem?_padFront (j := padCount d.length - 2) (by omega)) (by omega)) ?_
  exact fun h => hv (h ▸ hbyte)

/-- Settles O52: the changed buffer is a sequence and its last byte, which decides what `Unpad` looks for before it. -/
theorem tamperDetection : Obligations.TamperDetection := by
  intro d j v hj hv
  have haligned := padFront_aligned d
  refine ⟨fun hin => unpad_set_pad_inner hin hv, fun hlast hcount => ?_, fun hlast h1 => ?_,
    fun hlast h2 h8 hn => unpad_set_pad_last hlast hv h2 h8 hn,
    fun hlast h2 h8 hn => ⟨fun hdiff => ?_, fun hall => ?_⟩⟩
  · rw [set_pad_last d v hlast]
    exact unpad_concat_of_count haligned hcount
  · rw [set_pad_last d v hlast, pad_eq_concat, take_concat _ _ (Nat.le_refl 1)]
    have hall : ∀ b ∈ (padFront d).drop ((padFront d).length - (v.toNat - 1)), b = v := by simp [h1]
    rw [unpad_concat_of_all haligned (by omega) (by omega) hall, h1]
  · rw [set_pad_last d v hlast]
    rw [padFront_of_padCount_one hn] at haligned ⊢
    obtain ⟨b, hmem, hne⟩ : ∃ b ∈ d.drop (d.length - (v.toNat - 1)), b ≠ v := by simpa using hdiff
    exact unpad_concat_of_mem haligned (by omega) h8 hmem hne
  · rw [set_pad_last d v hlast, pad_eq_concat, take_concat _ _ (by omega)]
    rw [padFront_of_padCount_one hn] at haligned ⊢
    exact unpad_concat_of_all haligned (by omega) h8 hall

end Sys2Proof.Machine
end

section
/-! PAD and UNPAD, the two commands that copy IN to OUT: they share domain and frame, and differ in the padding function
alone (spec 43_padding.md R184, R187; 60_exceptions.md R253). -/

namespace Sys2Proof.Machine

variable {s : State} {i : Instr} {v : List Byte} {a k : Nat}

theorem inDomain_of_padding (hi : i = .pad ∨ i = .unpad) (hin : s.inLen.toNat ≤ Config.capIn) :
    inDomain i s = true := by
  obtain rfl | rfl := hi <;> exact (inDomain_iff _ s).2 ⟨nofun, fun _ => hin, nofun⟩

/-- PAD or UNPAD whose function returns: the bytes in OUT, nothing above them, all else as it was (R72). -/
theorem exec_padding_of_ok (hi : i = .pad ∨ i = .unpad) (hin : s.inLen.toNat ≤ Config.capIn)
    (hv : commandBytes i s = .ok v) :
    ∃ t, exec i s = .next t ∧ t.Succeeded ∧ t.outLen.toNat = v.length ∧
      (∀ a, a < v.length → some (t.readOut a) = v[a]?) ∧
      (∀ a, v.length ≤ a → Cells.lookup t.out.cells a = none) ∧
      RoundKeysKept s t ∧ t.mixY = s.mixY ∧ HostStateKept s t := by
  have hd := inDomain_of_padding hi hin
  have hlt : v.length < 2 ^ 32 := Nat.lt_of_le_of_lt (commandBytes_length_le hd hv) Config.capOut_lt
  have hexec := exec_of_commandBytes hd hv
  refine ⟨_, hexec, succeeded_endCommand _ _ _, ?_, fun a ha => ?_, fun a ha => ?_, roundKeysKept_of_exec ?_ hexec,
    mixY_of_exec ?_ hexec, hostStateKept_of_exec hexec⟩
  · rw [State.endCommand_outLen, putCommand_outLen hv, toNat_ofNat_of_lt hlt]
  · rw [List.getElem?_eq_getElem ha]
    obtain rfl | rfl := hi <;> exact congrArg some (readOut_endCommand_putResult s hlt _ _ ha)
  · obtain rfl | rfl := hi <;> exact lookup_out_endCommand_putResult s hlt _ _ ha
  · obtain rfl | rfl := hi <;> rfl
  · obtain rfl | rfl := hi <;> nofun

/-- Settles O37: the result bytes are the padded operand's. -/
theorem padResult : Obligations.PadResult := by
  intro s hin
  obtain ⟨t, hexec, hdone, hlen, hout, hfree, hkept⟩ := exec_padding_of_ok (i := .pad) (.inl rfl) hin rfl
  rw [pad_length, inOperand_length] at hlen hout hfree
  refine ⟨t, hexec, hdone, hlen, fun a ha => ?_, fun a ha ha' => ?_, hfree, hkept⟩ <;> refine Option.some.inj ?_
  · rw [hout a (by omega), getElem?_pad_of_lt (by rwa [inOperand_length]), inOperand_getElem? s ha]
  · rw [hout a ha', getElem?_pad_of_ge (by rwa [inOperand_length]) (by rwa [inOperand_length]), inOperand_length]
    rfl

/-! ## The operand of UNPAD -/

theorem inOperand_ne_nil (h : s.inLen ≠ 0) : s.inOperand ≠ [] := fun hnil =>
  h (BitVec.eq_of_toNat_eq (by rw [← inOperand_length, hnil]; rfl))

/-- The bytes of the input operand from `k` up, by their addresses. -/
theorem mem_drop_inOperand_iff {b : Byte} :
    b ∈ s.inOperand.drop k ↔ ∃ a, k ≤ a ∧ a < s.inLen.toNat ∧ s.readIn a = b := by
  refine ⟨fun hb => ?_, fun ⟨a, ha, ha', hb⟩ => mem_drop_of_getElem? (hb ▸ inOperand_getElem? s ha') ha⟩
  obtain ⟨j, hj⟩ := List.mem_iff_getElem?.1 hb
  rw [List.getElem?_drop] at hj
  have hlt : k + j < s.inLen.toNat := by
    rw [← inOperand_length]
    exact (List.getElem?_eq_some_iff.1 hj).1
  rw [inOperand_getElem? s hlt] at hj
  exact ⟨k + j, Nat.le_add_right k j, hlt, Option.some.inj hj⟩

theorem lastByte_inOperand (h : s.inLen ≠ 0) :
    lastByte s.inOperand = (s.readIn (s.inLen.toNat - 1)).toNat := by
  have hpos : 0 < s.inLen.toNat := List.length_pos_iff.2 (inOperand_ne_nil h) |>.trans_eq (inOperand_length s)
  rw [lastByte, inOperand_length, List.getD_eq_getElem?_getD, inOperand_getElem? s (Nat.sub_one_lt_of_lt hpos)]
  rfl

/-- Settles O38: the operand is correctly padded, and what is left of it are its first bytes. -/
theorem unpadResult : Obligations.UnpadResult := by
  intro s n hin hne haligned h1 h8 hbytes
  have hlen := inOperand_length s
  have hpos : 0 < s.inLen.toNat := Nat.pos_of_ne_zero (mt (BitVec.eq_of_toNat_eq (y := 0#32)) hne)
  have hlast : lastByte s.inOperand = n := (lastByte_inOperand hne).trans (hbytes _ (by omega) (by omega))
  have hok : commandBytes .unpad s = .ok (s.inOperand.take (s.inLen.toNat - n)) := by
    refine unpad_eq_ok_iff.2 ?_
    rw [hlast, hlen]
    refine ⟨inOperand_ne_nil hne, haligned, h1, h8, fun b hb => ?_, rfl⟩
    obtain ⟨a, ha, ha', rfl⟩ := mem_drop_inOperand_iff.1 hb
    exact hbytes a ha ha'
  obtain ⟨t, hexec, hdone, htlen, hout, hfree, hkept⟩ := exec_padding_of_ok (.inr rfl) hin hok
  rw [List.length_take, hlen, Nat.min_eq_left (Nat.sub_le _ _)] at htlen hout hfree
  refine ⟨t, hexec, hdone, htlen, fun a ha => Option.some.inj ?_, hfree, hkept⟩
  rw [hout a ha, List.getElem?_take_of_lt ha, inOperand_getElem? s (by omega)]

/-- UNPAD of an operand `Unpad` rejects fails with the kind `Unpad` raises (R187, R250). -/
theorem exec_unpad_of_error {e : ErrorKind} (hin : s.inLen.toNat ≤ Config.capIn)
    (he : unpad s.inOperand = .error e) :
    ∃ t, exec .unpad s = .next t ∧ t.FailedWith e ∧ RoundKeysKept s t := by
  have hexec := exec_of_error (inDomain_of_padding (.inr rfl) hin) (raises_iff.1 he)
  exact ⟨_, hexec, failedWith_failCommand _ _ _, roundKeysKept_of_exec rfl hexec⟩

/-- Settles O39: each clause is one of the three errors of `Unpad` on the operand. -/
theorem unpadErrors : Obligations.UnpadErrors := by
  intro s hin
  refine ⟨fun h => exec_unpad_of_error hin ?_, fun hne haligned hcount => exec_unpad_of_error hin ?_,
    fun hne haligned h1 h8 ⟨a, ha, ha', hdiff⟩ => exec_unpad_of_error hin ?_⟩
  · rw [unpad_eq_invalidPaddingInputLength_iff, inOperand_length]
    exact h.imp_left fun h => List.eq_nil_of_length_eq_zero (by rw [inOperand_length, h]; rfl)
  · rw [unpad_eq_invalidPaddingLength_iff, inOperand_length, lastByte_inOperand hne]
    exact ⟨inOperand_ne_nil hne, haligned, hcount⟩
  · rw [unpad_eq_invalidPaddingBytes_iff, inOperand_length, lastByte_inOperand hne]
    exact ⟨inOperand_ne_nil hne, haligned, h1, h8, _, mem_drop_inOperand_iff.2 ⟨a, ha, ha', rfl⟩, hdiff⟩

end Sys2Proof.Machine
end


section
/-! The engine's moves on a running command: the run is `exec` of the decoded command, the accepted CMD write starts it,
and no move stops where the invariant holds (spec 44_engine.md R201 to R203, R205, R220 to R230; 20_memory.md R67). -/

namespace Sys2Proof.Machine

variable {s : State} {i : Instr} {w : Word}

/-! ## The run -/

theorem step_eq_engineRun_of_no_inputs (hin : s.inputs = []) : step s = engineRun s := by
  simp only [step, cycle, hin]

theorem step_eq_handle {e : Event} {rest : List Event} (hin : s.inputs = e :: rest) :
    step s = handle e { s with inputs := rest } := by
  simp only [step, cycle, hin]

/-- A word written as a number of 32 bits is that word. -/
theorem withFetchWord_toNat (s : State) (w : Word) :
    s.withFetchWord 32 w.toNat = { s.start w with inputs := .engineRun :: s.inputs } := by
  rw [State.withFetchWord, placeCommand, Nat.mod_eq_of_lt w.isLt, BitVec.ofNat_toNat, BitVec.setWidth_eq]

/-- Settles O9: the engine's run of a legal word is `exec`, and placing a word is its start with the run to come. -/
theorem stepRunsDecodedCommand : Obligations.StepRunsDecodedCommand := by
  refine ⟨fun s i hp hw => ⟨fun hin => ?_, fun rest hin => ?_⟩, fun s i => ?_⟩
  · rw [step_eq_engineRun_of_no_inputs hin, engineRun_of_ok hp hw]
  · rw [step_eq_handle hin]
    exact engineRun_of_ok (s := { s with inputs := rest }) hp hw
  · rw [withFetchWord_toNat]
    exact engineRun_of_ok (s := s.start (encode i)) rfl (decode_encode i)

/-- Settles O26: a command's function returns or raises. -/
theorem everyCommandCompletes : Obligations.EveryCommandCompletes := fun _ _ => exec_completes_of_inDomain

/-! ## The start -/

theorem acceptCommand_of_inDomain (hd : ∀ i, decode w = .ok i → inDomain i s = true) :
    acceptCommand w s = .next (s.start w) := by
  cases hw : decode w with
  | ok i => simp only [acceptCommand, hw, hd i hw, if_true]
  | error e => exact acceptCommand_of_error hw s

theorem acceptCommand_outside (hw : decode w = .ok i) (hd : inDomain i s = false) :
    acceptCommand w s = .refused .outsideDomain := by
  simp only [acceptCommand, hw, hd, Bool.false_eq_true, if_false]

/-- Settles O11: the write to offset 0 is CMD's, and it starts the word or refuses it by the domain of its command. -/
theorem acceptedWriteStartsCommand : Obligations.AcceptedWriteStartsCommand := by
  intro s w rest hp
  have hstep := step_writeReg_of_idle (r := .cmd) (off := 0x00) hp rfl w rest
  exact ⟨fun hd => hstep.trans (acceptCommand_of_inDomain (s := { s with inputs := rest }) hd),
    fun i hw hd => hstep.trans (acceptCommand_outside (s := { s with inputs := rest }) hw hd)⟩

/-! ## No move stops -/

/-- Under the invariant the engine's run gives a next state: an accepted command is inside its domain. -/
theorem State.Inv.engineRun_next (h : s.Inv) : ∃ t, Machine.engineRun s = .next t := by
  cases hp : s.phase with
  | idle => exact ⟨s, engineRun_of_idle hp⟩
  | run =>
    cases hw : decode s.cmd with
    | ok i =>
      obtain ⟨t, ht, -⟩ := exec_completes_of_inDomain (h.domain hp i hw)
      exact ⟨t, (engineRun_of_ok hp hw).trans ht⟩
    | error e => exact ⟨_, engineRun_of_error hp hw⟩

theorem stepCheck_next (i : Instr) (s : State) : ∃ t, stepCheck i s = .next t := by
  unfold stepCheck
  split <;> exact ⟨_, rfl⟩

theorem stepKs_next (hi : derivesKeys i = true) (s : State) : ∃ t, stepKs i s = .next t := by
  rw [stepKs, if_pos hi]
  split
  · exact ⟨_, rfl⟩
  · split <;> exact ⟨_, rfl⟩

theorem stepLoad_next {nb : Nat} (hnb : blockCount i s = some nb) (hblk : s.seq.blk ≤ nb) :
    ∃ t, stepLoad i s = .next t := by
  simp only [stepLoad, hnb]
  by_cases hlt : s.seq.blk < nb
  · exact ⟨_, if_pos hlt⟩
  · rw [if_neg hlt, if_pos (by omega)]
    split <;> exact ⟨_, rfl⟩

theorem stepRound_next {dir : Bool} {n : Nat} (hplan : roundPlan i s = some (dir, n)) (hrnd : s.seq.rnd ≤ n) :
    ∃ t, stepRound i s = .next t := by
  simp only [stepRound, hplan]
  by_cases hlt : s.seq.rnd < n
  · exact ⟨_, if_pos hlt⟩
  · exact ⟨_, (if_neg hlt).trans (if_pos (by omega))⟩

theorem stepStore_next {nb : Nat} (hnb : blockCount i s = some nb) (hblk : s.seq.blk < nb) :
    stepStore i s = .next s.storeBlock := by
  simp only [stepStore, hnb, if_pos hblk]

theorem stepUnpad_next (s : State) : ∃ t, stepUnpad .decrypt s = .next t := by
  rw [stepUnpad, if_pos rfl]
  split <;> exact ⟨_, rfl⟩

/-- A command at a position of its canonical sequence has a next micro-step there (R221 to R228). -/
theorem AtPosition.microStepOf_next (h : AtPosition i s) (hd : inDomain i s = true) :
    ∃ t, microStepOf i s = .next t := by
  unfold AtPosition at h
  rw [microStepOf, if_pos hd]
  cases hsub : s.seq.sub <;> rw [hsub] at h <;> simp only at h ⊢
  case sCheck => exact stepCheck_next i s
  case sKs => exact stepKs_next h.left s
  case sLoad =>
    obtain ⟨nb, hnb, hblk⟩ := h
    exact stepLoad_next hnb hblk
  case sRound =>
    obtain ⟨nb, dir, n, -, -, hplan, hrnd⟩ := h
    exact stepRound_next hplan hrnd
  case sStore =>
    obtain ⟨nb, hnb, hblk⟩ := h
    exact ⟨_, stepStore_next hnb hblk⟩
  case sUnpad =>
    subst h
    exact stepUnpad_next s
  case sCopy => obtain rfl | rfl := h <;> exact ⟨_, rfl⟩
  case sEnd => exact ⟨_, rfl⟩

theorem engineStep_of_ok (hp : s.phase = .run) (hw : decode s.cmd = .ok i) : engineStep s = microStepOf i s := by
  simp only [engineStep, hp, microStep, hw]

/-- Under the invariant and on the canonical sequence the engine's micro-step gives a next state. -/
theorem State.Inv.engineStep_next (h : s.Inv) (hq : s.OnSequence) : ∃ t, Machine.engineStep s = .next t := by
  cases hp : s.phase with
  | idle => exact ⟨s, engineStep_of_idle hp⟩
  | run =>
    have hq := hq hp
    cases hw : decode s.cmd with
    | ok i =>
      rw [hw] at hq
      rw [engineStep_of_ok hp hw]
      exact AtPosition.microStepOf_next hq (h.domain hp i hw)
    | error e =>
      rw [hw] at hq
      exact ⟨_, engineStep_of_error hp hw hq⟩

/-- Settles O23: each of the engine's moves gives a next state, and taking the event changes neither hypothesis. -/
theorem engineNeverStops : Obligations.EngineNeverStops := by
  intro s h
  have hrest (rest : List Event) : ({ s with inputs := rest } : State).Inv := h.of_read (Nat.le_refl _)
  refine ⟨?_, fun hq ⟨rest, hin⟩ => ?_⟩
  · rintro (hin | ⟨rest, hin⟩ | ⟨rest, hin⟩)
    · rw [State.StepsSafely, step_eq_engineRun_of_no_inputs hin]
      exact h.engineRun_next
    · rw [State.StepsSafely, step_eq_handle hin]
      exact (hrest rest).engineRun_next
    · rw [State.StepsSafely, step_eq_handle hin]
      exact ⟨_, rfl⟩
  · rw [State.StepsSafely, step_eq_handle hin]
    exact (hrest rest).engineStep_next (hq.of_same rfl rfl rfl rfl rfl rfl)

end Sys2Proof.Machine
end

section
/-! Sequences of blocks under a block function, and the whole cipher on byte sequences as such sequences (spec
42_feistel_core.md R158 to R161; 44_engine.md R206, R210, R214, R215). -/

namespace Sys2Proof.Machine

variable {p : Params} {pt ct key : List Byte} {rounds : Nat}

/-! ## The two directions of a block function -/

/-- ROUND forward, INV-ROUND backward (R158, R160). -/
def directedRound (p : Params) (forward : Bool) : Word × Word → Word → Word × Word :=
  if forward then roundStep (mix p) else invRoundStep (mix p)

/-- The round keys in the order a block takes them: as they stand, or in reverse (R161). -/
def keyOrder (forward : Bool) (k : List Word) : List Word := if forward then k else k.reverse

/-- What the block function makes of a block: `EncryptBlock` forward, `DecryptBlock` backward (`encryptBlock_eq`,
`decryptBlock_eq`). -/
def blockBytes (p : Params) (forward : Bool) (k : List Word) (b : List Byte) : List Byte :=
  pack ((keyOrder forward k).foldl (directedRound p forward) (unpack b))

theorem encryptBlock_eq {k : List Word} {b : List Byte} (hb : b.length = 8) (hk : k.length = rounds) :
    encryptBlock p b k rounds = .ok (blockBytes p true k b) := by
  rw [← hk, encryptBlock_ok p k hb]
  rfl

theorem decryptBlock_eq {k : List Word} {b : List Byte} (hb : b.length = 8) (hk : k.length = rounds) :
    decryptBlock p b k rounds = .ok (blockBytes p false k b) := by
  rw [← hk, decryptBlock_ok p k hb]
  rfl

@[simp] theorem blockBytes_length (p : Params) (forward : Bool) (k : List Word) (b : List Byte) :
    (blockBytes p forward k b).length = 8 := pack_length _

/-- Decryption of a block undoes its encryption (R165). -/
theorem blockBytes_false_true (p : Params) (k : List Word) {b : List Byte} (hb : b.length = 8) :
    blockBytes p false k (blockBytes p true k b) = b := by
  have hundo := foldl_reverse_foldl (invRoundStep_roundStep (mix p)) k (unpack b)
  rw [blockBytes, blockBytes, unpack_pack]
  exact (congrArg pack hundo).trans (pack_unpack hb)

/-! ## Consecutive blocks -/

theorem block_length {d : List Byte} {i : Nat} (h : 8 * i + 8 ≤ d.length) :
    (slice d (8 * i) (8 * i + 8)).length = 8 := by
  rw [slice_length]
  omega

/-- The first `n` blocks of `d`, each under the block function. -/
def blocksBytes (p : Params) (forward : Bool) (k : List Word) (n : Nat) (d : List Byte) : List Byte :=
  (List.range n).flatMap fun i => blockBytes p forward k (slice d (8 * i) (8 * i + 8))

@[simp] theorem blocksBytes_length (p : Params) (forward : Bool) (k : List Word) (n : Nat) (d : List Byte) :
    (blocksBytes p forward k n d).length = 8 * n := flatMap_blocks_length (fun _ => blockBytes_length _ _ _ _) n

theorem blocksBytes_succ (p : Params) (forward : Bool) (k : List Word) (n : Nat) (d : List Byte) :
    blocksBytes p forward k (n + 1) d =
      blocksBytes p forward k n d ++ blockBytes p forward k (slice d (8 * n) (8 * n + 8)) := by
  rw [blocksBytes, List.range_succ, List.flatMap_append, List.flatMap_singleton, blocksBytes]

theorem blocksBytes_one (p : Params) (forward : Bool) (k : List Word) {d : List Byte} (hd : d.length = 8) :
    blocksBytes p forward k 1 d = blockBytes p forward k d := by
  have hslice : slice d (8 * 0) (8 * 0 + 8) = d := List.take_of_length_le (Nat.le_of_eq hd)
  rw [blocksBytes_succ, hslice]
  rfl

/-- Block `i` of the result is the block function of block `i` alone (R215). -/
theorem slice_blocksBytes (p : Params) (forward : Bool) (k : List Word) {n i : Nat} (d : List Byte) (h : i < n) :
    slice (blocksBytes p forward k n d) (8 * i) (8 * i + 8) = blockBytes p forward k (slice d (8 * i) (8 * i + 8)) :=
  slice_flatMap_blocks (fun _ => blockBytes_length _ _ _ _) h

/-- Decryption block by block undoes encryption block by block. -/
theorem blocksBytes_false_true (p : Params) (k : List Word) {n : Nat} {d : List Byte} (hd : d.length = 8 * n) :
    blocksBytes p false k n (blocksBytes p true k n d) = d := by
  conv_rhs => rw [← flatMap_slices n d hd]
  refine List.flatMap_congr fun i hi => ?_
  have hi := List.mem_range.1 hi
  rw [slice_blocksBytes p true k d hi, blockBytes_false_true p k (block_length (by omega))]

/-- `mapBlocks` of a block function that gives `blockBytes`. -/
theorem mapBlocks_eq_blocksBytes {f : List Byte → Except ErrorKind (List Byte)} {forward : Bool} {k : List Word}
    (hf : ∀ b, b.length = 8 → f b = .ok (blockBytes p forward k b)) {n : Nat} {d : List Byte} (hd : 8 * n ≤ d.length) :
    mapBlocks f n d = .ok (blocksBytes p forward k n d) := mapBlocks_ok hf n d hd

/-! ## The cipher -/

/-- `Encrypt` inside its preconditions (R206). -/
theorem encrypt_eq (p : Params) (pt : List Byte) (hkey : key ≠ []) (hr : 1 ≤ rounds) :
    encrypt p pt key rounds =
      .ok (blocksBytes p true (roundKeyWords p key rounds) (pt.length / 8 + 1) (pad pt)) := by
  have hlen := pad_length_eq_blocks pt
  have hn : (pad pt).length / 8 = pt.length / 8 + 1 := by omega
  rw [encrypt, if_neg (by omega), deriveRoundKeys_ok hkey hr]
  simp only
  rw [mapBlocks_eq_blocksBytes (fun b hb => encryptBlock_eq hb (roundKeyWords_length p key rounds)) (by omega), hn]

/-- The blocks of a ciphertext, decrypted (R210). -/
theorem mapBlocks_decryptBlock (p : Params) (key : List Byte) (rounds : Nat) {n : Nat} (hct : 8 * n ≤ ct.length) :
    mapBlocks (fun b => decryptBlock p b (roundKeyWords p key rounds) rounds) n ct =
      .ok (blocksBytes p false (roundKeyWords p key rounds) n ct) :=
  mapBlocks_eq_blocksBytes (fun _ hb => decryptBlock_eq hb (roundKeyWords_length p key rounds)) hct

/-- `Decrypt` inside its preconditions: what `Unpad` makes of the decrypted blocks (R210). -/
theorem decrypt_eq (p : Params) (hct : ct ≠ []) (haligned : ct.length % 8 = 0) (hkey : key ≠ []) (hr : 1 ≤ rounds) :
    decrypt p ct key rounds =
      unpad (blocksBytes p false (roundKeyWords p key rounds) (ct.length / 8) ct) := by
  have hcheck : ¬(ct.length = 0 ∨ ct.length % 8 ≠ 0) := by
    rw [List.length_eq_zero_iff]
    exact not_or_intro hct (not_not_intro haligned)
  rw [decrypt, if_neg (by omega), if_neg hcheck, deriveRoundKeys_ok hkey hr]
  simp only
  rw [mapBlocks_decryptBlock p key rounds (by omega)]

/-- Settles O53: the padded plaintext comes back block by block, and `Unpad` takes the padding off. -/
theorem cipherRoundTrip : Obligations.CipherRoundTrip := by
  intro p pt key rounds hkey hr
  have hlen := blocksBytes_length p true (roundKeyWords p key rounds) (pt.length / 8 + 1) (pad pt)
  refine ⟨_, encrypt_eq p pt hkey hr, hlen, ?_⟩
  rw [decrypt_eq p (List.ne_nil_of_length_pos (by omega)) (by omega) hkey hr, hlen,
    Nat.mul_div_cancel_left _ (by decide), blocksBytes_false_true _ _ (pad_length_eq_blocks pt), unpadInvertsPad]

/-- Settles O55: each block of the ciphertext is `blockBytes` of the padded block, and inside the data that is the
plaintext's block. -/
theorem blocksAreIndependent : Obligations.BlocksAreIndependent := by
  intro p pt key rounds hkey hr
  refine ⟨_, _, deriveRoundKeys_ok hkey hr, encrypt_eq p pt hkey hr, fun i hi => ⟨?_, fun hin => ⟨slice_pad hin, ?_⟩⟩⟩
  · have hlen := pad_length_eq_blocks pt
    rw [slice_blocksBytes p true _ _ hi]
    exact encryptBlock_eq (block_length (by omega)) (roundKeyWords_length p key rounds)
  · intro pt' c' hin' hsame hc'
    rw [encrypt_eq p pt' hkey hr] at hc'
    obtain rfl := Except.ok.inj hc'
    rw [slice_blocksBytes p true _ _ hi, slice_blocksBytes p true _ _ (Nat.lt_succ_of_lt hin'), slice_pad hin',
      hsame, slice_pad hin]

end Sys2Proof.Machine
end

section
/-! ENCRYPT and DECRYPT: their result bytes as sequences of blocks, and what they leave in OUT and in RK (spec
44_engine.md R207, R208, R210 to R212; 60_exceptions.md R246, R247). -/

namespace Sys2Proof.Machine

variable {s t : State} {i : Instr} {v data : List Byte} {k : List Word}

/-! ## A command whose function returns or raises -/

/-- Inside the domain a command whose function returns bytes completes with success and with these bytes in OUT. -/
theorem exec_of_bytes (hd : inDomain i s = true) (hv : commandBytes i s = .ok v) :
    ∃ t, exec i s = .next t ∧ t.Succeeded ∧ t.outLen = BitVec.ofNat 32 v.length ∧ t.outLen.toNat = v.length ∧
      t.outOperand = v ∧ ∀ a, t.outLen.toNat ≤ a → Cells.lookup t.out.cells a = none := by
  have hlen : ((s.putCommand i v).endCommand (derivesKeys i) (keepsPair i)).outLen = BitVec.ofNat 32 v.length :=
    putCommand_outLen hv
  have hlt : v.length < 2 ^ 32 := Nat.lt_of_le_of_lt (commandBytes_length_le hd hv) Config.capOut_lt
  exact ⟨_, exec_of_commandBytes hd hv, succeeded_endCommand _ _ _, hlen, by rw [hlen, toNat_ofNat_of_lt hlt],
    outOperand_endCommand_putCommand hd hv _ _, fun a ha => lookup_forgetFrom _ _ _ a ha⟩

/-- Inside the domain a command whose function raises completes with the kind it raises. -/
theorem exec_of_bytes_error {e : ErrorKind} (hd : inDomain i s = true) (he : commandBytes i s = .error e) :
    exec i s = .next (s.failCommand (derivesKeys i) e) :=
  exec_of_error hd (by rw [commandResult_eq_map, he]; rfl)

/-- A deriving command that succeeds leaves the key schedule in RK and nothing above it (R72, R208). -/
theorem roundKeys_of_exec (hi : derivesKeys i = true) (he : exec i s = .next t) (hok : t.err = false) :
    t.rkLen = s.rounds ∧ t.rkOperand = roundKeyWords Config.params s.keyOperand s.rounds.toNat ∧
      ∀ a, s.rounds.toNat ≤ a → Cells.lookup t.rk.cells a = none := by
  obtain ⟨-, ⟨u, hu, rfl⟩ | ⟨e, -, rfl⟩⟩ := exec_next_cases he
  · obtain ⟨v, -, rfl⟩ := commandResult_eq_ok hu
    rw [hi]
    obtain ⟨hlen, hkeys⟩ := roundKeys_endCommand_putCommand hi s v (keepsPair i)
    exact ⟨hlen, hkeys, fun a => lookup_rk_endCommand_putCommand hi s v _⟩
  · cases hok

/-! ## The operands of the cipher commands -/

theorem keyOperand_ne_nil (h : 1 ≤ s.keyLen.toNat) : s.keyOperand ≠ [] :=
  List.ne_nil_of_length_pos (by rwa [keyOperand_length])

theorem toNat_pos_of_ne_zero {w : Word} (h : w ≠ 0) : 0 < w.toNat :=
  Nat.pos_of_ne_zero (mt (BitVec.eq_of_toNat_eq (y := 0#32)) h)

theorem inDomain_of_cipher (hi : i = .encrypt ∨ i = .decrypt) (hin : s.inLen.toNat ≤ Config.capIn)
    (hkey : s.keyLen.toNat ≤ Config.capKey) (hr : s.rounds.toNat ≤ Config.capRk) : inDomain i s = true := by
  obtain rfl | rfl := hi <;> exact (inDomain_iff _ s).2 ⟨fun _ => ⟨hkey, hr⟩, fun _ => hin, nofun⟩

/-- ENCRYPT's bytes: the blocks of the padded operand under the derived keys (R206). -/
theorem commandBytes_encrypt (hkey : 1 ≤ s.keyLen.toNat) (hr : 1 ≤ s.rounds.toNat) :
    commandBytes .encrypt s =
      .ok (blocksBytes Config.params true (roundKeyWords Config.params s.keyOperand s.rounds.toNat)
        (s.inLen.toNat / 8 + 1) (pad s.inOperand)) := by
  rw [commandBytes, encrypt_eq _ _ (keyOperand_ne_nil hkey) hr, inOperand_length]

/-- The blocks of the operand, decrypted under the derived keys: DECRYPT's data before `Unpad` (R210). -/
def State.decryptedData (s : State) : List Byte :=
  blocksBytes Config.params false (roundKeyWords Config.params s.keyOperand s.rounds.toNat) (s.inLen.toNat / 8)
    s.inOperand

theorem decryptedData_length (haligned : s.inLen.toNat % 8 = 0) : s.decryptedData.length = s.inLen.toNat := by
  rw [State.decryptedData, blocksBytes_length, Nat.mul_div_cancel' (Nat.dvd_of_mod_eq_zero haligned)]

/-- The blocks of the operand all decrypt, to `decryptedData`. -/
theorem mapBlocks_inOperand (s : State) :
    mapBlocks (fun b => decryptBlock Config.params b (roundKeyWords Config.params s.keyOperand s.rounds.toNat)
      s.rounds.toNat) (s.inLen.toNat / 8) s.inOperand = .ok s.decryptedData :=
  mapBlocks_decryptBlock _ _ _ (by rw [inOperand_length]; omega)

/-- DECRYPT's bytes: what `Unpad` makes of the decrypted data (R210). -/
theorem commandBytes_decrypt (hne : s.inLen ≠ 0) (haligned : s.inLen.toNat % 8 = 0) (hkey : 1 ≤ s.keyLen.toNat)
    (hr : 1 ≤ s.rounds.toNat) : commandBytes .decrypt s = unpad s.decryptedData := by
  rw [commandBytes, decrypt_eq _ (inOperand_ne_nil hne) (by rwa [inOperand_length]) (keyOperand_ne_nil hkey) hr,
    inOperand_length, State.decryptedData]

/-! ## The results -/

/-- Settles O40: the ciphertext is one block longer than the whole blocks of the plaintext, and the two errors are those
of `Encrypt`'s checks. -/
theorem encryptResult : Obligations.EncryptResult := by
  intro s hin hcapKey hcapRk
  have hd := inDomain_of_cipher (i := .encrypt) (.inl rfl) hin hcapKey hcapRk
  have fails {e : ErrorKind} (he : encrypt Config.params s.inOperand s.keyOperand s.rounds.toNat = .error e) :=
    exec_deriving_of_error rfl hd ((raises_iff (i := .encrypt)).1 he)
  refine ⟨fun hkey hr => ?_, fun hr => fails ?_, fun hr hkey => fails ?_⟩
  · have hv := commandBytes_encrypt hkey hr
    obtain ⟨t, hexec, hdone, -, hlen, hout, hfree⟩ := exec_of_bytes hd hv
    obtain ⟨hrkLen, hrk, hrkFree⟩ := roundKeys_of_exec rfl hexec hdone.err
    rw [blocksBytes_length] at hlen
    exact ⟨t, _, _, deriveRoundKeys_ok (keyOperand_ne_nil hkey) hr, hv, hexec, hdone, hrkLen, hrk, hrkFree, hlen, hout,
      hfree, mixY_of_exec (i := .encrypt) nofun hexec, hostStateKept_of_exec hexec⟩
  · rw [hr]
    rfl
  · have hr : 0 < s.rounds.toNat := toNat_pos_of_ne_zero hr
    rw [encrypt, if_neg (by omega), keyOperand_eq_nil_iff.2 hkey, deriveRoundKeys_nil]

/-- Settles O41: `Unpad` of the decrypted data is DECRYPT's function, and it takes off as many bytes as the last one
says. -/
theorem decryptResult : Obligations.DecryptResult := by
  intro s k data m hin hne haligned hkey hcapKey hr hcapRk hk hdata hm
  obtain rfl := deriveRoundKeys_eq_ok hk
  obtain rfl := Except.ok.inj ((mapBlocks_inOperand s).symm.trans hdata)
  have hd := inDomain_of_cipher (i := .decrypt) (.inr rfl) hin hcapKey hcapRk
  obtain ⟨t, hexec, hdone, -, hlen, hout, hfree⟩ :=
    exec_of_bytes hd ((commandBytes_decrypt hne haligned hkey hr).trans hm)
  obtain ⟨hrkLen, hrk, hrkFree⟩ := roundKeys_of_exec rfl hexec hdone.err
  refine ⟨t, hexec, hdone, hrkLen, hrk, hrkFree, hlen.trans ?_, hout, hfree,
    mixY_of_exec (i := .decrypt) nofun hexec, hostStateKept_of_exec hexec⟩
  obtain ⟨-, -, -, -, -, rfl⟩ := unpad_eq_ok_iff.1 hm
  rw [List.length_take, decryptedData_length haligned, Nat.min_eq_left (Nat.sub_le _ _)]

/-- Settles O42: the decrypted data are as long as IN, so their first failing check is one of `Unpad`'s last two. -/
theorem decryptPaddingErrors : Obligations.DecryptPaddingErrors := by
  intro s hin hne haligned hkey hcapKey hr hcapRk
  have hd := inDomain_of_cipher (i := .decrypt) (.inr rfl) hin hcapKey hcapRk
  have hlen := decryptedData_length haligned
  have hdata : s.decryptedData ≠ [] := List.ne_nil_of_length_pos (hlen ▸ toNat_pos_of_ne_zero hne)
  have haligned' : s.decryptedData.length % 8 = 0 := hlen ▸ haligned
  have fails {e : ErrorKind} (he : unpad s.decryptedData = .error e) :
      ∃ t, exec .decrypt s = .next t ∧ t.FailedWith e ∧ t.rkLen = 0 :=
    have hbytes := (commandBytes_decrypt hne haligned hkey hr).trans he
    ⟨_, exec_of_bytes_error hd hbytes, failedWith_failCommand _ _ _, rfl⟩
  exact ⟨_, _, deriveRoundKeys_ok (keyOperand_ne_nil hkey) hr, mapBlocks_inOperand s, hlen,
    fun hcount => fails (unpad_eq_invalidPaddingLength_iff.2 ⟨hdata, haligned', hcount⟩),
    fun h1 h8 hdiff => fails (unpad_eq_invalidPaddingBytes_iff.2 ⟨hdata, haligned', h1, h8, hdiff⟩)⟩

end Sys2Proof.Machine
end

section
/-! ENCRYPT and DECRYPT against other commands: the round trip through OUT and IN, and the commands they are composed of
(spec 44_engine.md R214, R216). -/

namespace Sys2Proof.Machine

variable {s t : State} {i : Instr} {v : List Byte}

/-! ## Operands of one command after another -/

theorem HostStateKept.keyOperand_eq (h : HostStateKept s t) : t.keyOperand = s.keyOperand := by
  simp only [State.keyOperand, State.memReadKey, h.keyLen, h.key]

theorem HostStateKept.inOperand_eq (h : HostStateKept s t) : t.inOperand = s.inOperand := by
  simp only [State.inOperand, State.memReadIn, h.inLen, h.inp]

theorem RoundKeysKept.rkOperand_eq (h : RoundKeysKept s t) : t.rkOperand = s.rkOperand := by
  rw [State.rkOperand, State.rkOperand, h.rkLen, funext h.rk]

/-- A sequence copied to IN from address 0 up, with its length in IN_LEN, is the input operand. -/
theorem inOperand_of_writeSeq {m : Memory} (hin : s.inp = m.writeSeq 0 v) (hlen : s.inLen.toNat = v.length) :
    s.inOperand = v := by
  rw [State.inOperand, hlen]
  refine map_range_read _ v fun a ha => ?_
  rw [Nat.zero_add, State.readIn, hin, Store.read_writeSeq, dif_pos ⟨Nat.zero_le a, by rwa [Nat.zero_add]⟩]
  rfl

/-- Settles O54: the operands of DECRYPT are ENCRYPT's result, key and rounds, so `cipherRoundTrip` says what it
gives. -/
theorem engineRoundTrip : Obligations.EngineRoundTrip := by
  intro s hin hkey hcapKey hr hcapRk
  obtain ⟨c, hc, hclen, hm⟩ := cipherRoundTrip Config.params s.inOperand s.keyOperand s.rounds.toNat
    (keyOperand_ne_nil hkey) hr
  rw [inOperand_length] at hclen
  have hd := inDomain_of_cipher (i := .encrypt) (.inl rfl) (by omega) hcapKey hcapRk
  obtain ⟨t, hexec, hdone, -, hlen, hout, -⟩ := exec_of_bytes hd hc
  have hkept := hostStateKept_of_exec hexec
  refine ⟨t, hexec, hdone, fun u hu => ?_⟩
  have huLen : u.inLen.toNat = c.length := by rw [hu, ← hlen]
  have huIn : u.inOperand = c := inOperand_of_writeSeq (m := t.inp) (by rw [hu, ← hout]) huLen
  have huKey : u.keyOperand = s.keyOperand := by
    rw [← hkept.keyOperand_eq, hu]
    rfl
  have huKeyLen : u.keyLen = s.keyLen := by rw [hu, ← hkept.keyLen]
  have huRounds : u.rounds = s.rounds := by rw [hu, ← hkept.rounds]
  have hud := inDomain_of_cipher (i := .decrypt) (s := u) (.inr rfl) (by omega) (by rwa [huKeyLen]) (by rwa [huRounds])
  have hv : commandBytes .decrypt u = .ok s.inOperand := by
    rw [commandBytes, huIn, huKey, huRounds, hm]
  obtain ⟨v, hexec', hdone', hlen', -, hout', -⟩ := exec_of_bytes hud hv
  refine ⟨v, hexec', hdone', ?_, hout'⟩
  rw [hlen', inOperand_length, BitVec.ofNat_toNat, BitVec.setWidth_eq]

/-! ## ENCRYPT and DECRYPT as DERIVE, PAD or UNPAD, and a block command for each block -/

/-- DERIVE on a nonempty key and at least one round: the key schedule in RK. -/
theorem exec_derive_of_ok (hkey : 1 ≤ s.keyLen.toNat) (hcapKey : s.keyLen.toNat ≤ Config.capKey)
    (hr : 1 ≤ s.rounds.toNat) (hcapRk : s.rounds.toNat ≤ Config.capRk) :
    ∃ d, exec .derive s = .next d ∧ d.Succeeded ∧ d.rkLen = s.rounds ∧
      d.rkOperand = roundKeyWords Config.params s.keyOperand s.rounds.toNat := by
  have hv : commandBytes .derive s = .ok [] := by
    rw [commandBytes, deriveRoundKeys_ok (keyOperand_ne_nil hkey) hr]
    rfl
  obtain ⟨d, hexec, hdone, -⟩ := exec_of_bytes (inDomain_derive hcapKey hcapRk) hv
  obtain ⟨hrkLen, hrk, -⟩ := roundKeys_of_exec rfl hexec hdone.err
  exact ⟨d, hexec, hdone, hrkLen, hrk⟩

/-- A block command on a block in IN and as many round keys as rounds: the block function's bytes in OUT. -/
theorem exec_blockCommand {forward : Bool} {b : List Byte} (hi : i = if forward then .encblk else .decblk)
    (hin : s.inLen = 8) (hb : s.inOperand = b) (hrk : s.rkLen = s.rounds) (hcapRk : s.rounds.toNat ≤ Config.capRk) :
    ∃ t, exec i s = .next t ∧ t.Succeeded ∧ t.outOperand = blockBytes Config.params forward s.rkOperand b := by
  have hstore : readsStore i = true := by rw [hi]; cases forward <;> rfl
  have hd := inDomain_of_readsStore hstore (hin ▸ Config.eight_le_capIn) (hrk ▸ hcapRk)
  have hblen : b.length = 8 := by rw [← hb, inOperand_length, hin]; rfl
  have hklen : s.rkOperand.length = s.rounds.toNat := by rw [rkOperand_length, hrk]
  have hv : commandBytes i s = .ok (blockBytes Config.params forward s.rkOperand b) := by
    rw [hi]
    cases forward
    · exact (congrArg (decryptBlock _ · _ _) hb).trans (decryptBlock_eq hblen hklen)
    · exact (congrArg (encryptBlock _ · _ _) hb).trans (encryptBlock_eq hblen hklen)
  obtain ⟨t, hexec, hdone, -, -, hout, -⟩ := exec_of_bytes hd hv
  exact ⟨t, hexec, hdone, hout⟩

/-- Settles O56: PAD gives the padded operand, and ENCBLK on a block of it what ENCRYPT's block function gives. -/
theorem encryptEqualsItsComponents : Obligations.EncryptEqualsItsComponents := by
  intro s hin hkey hcapKey hr hcapRk
  obtain ⟨e, hexecE, hdoneE, hlenE, -, houtE, -⟩ :=
    exec_of_bytes (inDomain_of_cipher (.inl rfl) hin hcapKey hcapRk) (commandBytes_encrypt hkey hr)
  obtain ⟨hrkLenE, hrkE, -⟩ := roundKeys_of_exec rfl hexecE hdoneE.err
  obtain ⟨d, hexecD, -, hrkLenD, hrkD⟩ := exec_derive_of_ok hkey hcapKey hr hcapRk
  have hkeptD := hostStateKept_of_exec hexecD
  have hv : commandBytes .pad d = .ok (pad s.inOperand) := by rw [commandBytes, hkeptD.inOperand_eq]
  obtain ⟨p, hexecP, -, hlenP, -, houtP, -⟩ :=
    exec_of_bytes (inDomain_of_padding (.inl rfl) (by rwa [hkeptD.inLen])) hv
  have hkeptP := hostStateKept_of_exec hexecP
  have hrkP := roundKeysKept_of_exec rfl hexecP
  have hpad : (pad s.inOperand).length = 8 * (s.inLen.toNat / 8 + 1) := by
    rw [pad_length_eq_blocks, inOperand_length]
  refine ⟨e, d, p, hexecE, hexecD, hexecP, hrkLenD.trans hrkLenE.symm, hrkD.trans hrkE.symm, ?_, fun i hi u hu => ?_⟩
  · rw [hlenP, hlenE, hpad, blocksBytes_length]
  · have hblock := block_length (d := pad s.inOperand) (i := i) (by omega)
    have huIn : u.inOperand = slice (pad s.inOperand) (8 * i) (8 * i + 8) :=
      inOperand_of_writeSeq (m := p.inp) (by rw [hu, ← houtP]) (by rw [hblock, hu]; rfl)
    have huRounds : u.rounds = s.rounds := by rw [hu, ← hkeptD.rounds, ← hkeptP.rounds]
    have huRkLen : u.rkLen = s.rounds := by rw [hu, ← hrkLenD, ← hrkP.rkLen]
    have huRk : u.rkOperand = roundKeyWords Config.params s.keyOperand s.rounds.toNat := by
      rw [← hrkD, ← hrkP.rkOperand_eq, hu]
      rfl
    obtain ⟨b, hexec, hdone, hout⟩ := exec_blockCommand (i := .encblk) (forward := true) rfl (by rw [hu]) huIn
      (huRkLen.trans huRounds.symm) (huRounds ▸ hcapRk)
    exact ⟨b, hexec, hdone, by rw [hout, huRk, houtE, slice_blocksBytes _ _ _ _ hi]⟩

/-- Settles O57: DECBLK on a block gives a block of the decrypted data, and UNPAD on them makes of them what DECRYPT
does. -/
theorem decryptEqualsItsComponents : Obligations.DecryptEqualsItsComponents := by
  intro s hin hne haligned hkey hcapKey hr hcapRk
  have hd := inDomain_of_cipher (i := .decrypt) (.inr rfl) hin hcapKey hcapRk
  have hbytes := commandBytes_decrypt hne haligned hkey hr
  obtain ⟨e, hexecE, -⟩ := exec_completes_of_inDomain hd
  obtain ⟨d, hexecD, hdoneD, hrkLenD, hrkD⟩ := exec_derive_of_ok hkey hcapKey hr hcapRk
  refine ⟨e, d, s.decryptedData, hexecE, hexecD, hdoneD, decryptedData_length haligned,
    fun i hi u hku huRounds huLen huIn => ?_, fun v hvLen hvIn => ?_⟩
  · have huRkLen : u.rkLen = u.rounds := by rw [hku.rkLen, hrkLenD, huRounds]
    obtain ⟨b, hexec, hdone, hout⟩ := exec_blockCommand (i := .decblk) (forward := false) rfl huLen huIn huRkLen
      (huRounds ▸ hcapRk)
    exact ⟨b, hexec, hdone, by rw [hout, hku.rkOperand_eq, hrkD, State.decryptedData, slice_blocksBytes _ _ _ _ hi]⟩
  · have hdv := inDomain_of_padding (i := .unpad) (s := v) (.inr rfl) (by rwa [hvLen])
    have hbytesV : commandBytes .unpad v = unpad s.decryptedData := by rw [commandBytes, hvIn]
    cases hm : unpad s.decryptedData with
    | ok m =>
      obtain ⟨t, hexec, hdone, hlen, -, hout, -⟩ := exec_of_bytes hd (hbytes.trans hm)
      obtain rfl := Host.Outcome.next.inj (hexec.symm.trans hexecE)
      obtain ⟨p, hexecP, hdoneP, hlenP, -, houtP, -⟩ := exec_of_bytes hdv (hbytesV.trans hm)
      obtain ⟨hrkLen, hrk, -⟩ := roundKeys_of_exec rfl hexecE hdone.err
      exact ⟨p, hexecP, hdone.err.trans hdoneP.err.symm, hdone.errCode.trans hdoneP.errCode.symm, fun _ =>
        ⟨hlen.trans hlenP.symm, hout.trans houtP.symm, hrkLen.trans hrkLenD.symm, hrk.trans hrkD.symm⟩⟩
    | error k =>
      obtain rfl := Host.Outcome.next.inj ((exec_of_bytes_error hd (hbytes.trans hm)).symm.trans hexecE)
      exact ⟨_, exec_of_bytes_error hdv (hbytesV.trans hm), rfl, rfl, nofun⟩

end Sys2Proof.Machine
end

section
/-! Stores that list a sequence from address 0 up (spec 20_memory.md R63, R66). -/

namespace Sys2Proof.Machine

variable {α : Type} {cells : List (Nat × α)} {vs ws : List α} {m n : Store α}

/-- The cells list `vs`, its first item at address 0. -/
def Cells.Lists (cells : List (Nat × α)) (vs : List α) : Prop := ∀ a, a < vs.length → Cells.lookup cells a = vs[a]?

theorem Cells.lists_nil (cells : List (Nat × α)) : Cells.Lists cells [] := nofun

/-- A sequence written where the listed one ends prolongs it. -/
theorem Cells.Lists.append (h : Cells.Lists cells vs) (ws : List α) :
    Cells.Lists (Cells.writeSeq cells vs.length ws) (vs ++ ws) := by
  intro a ha
  rw [List.length_append] at ha
  rw [Cells.lookup_writeSeq]
  by_cases hlt : a < vs.length
  · rw [if_neg (by omega), h a hlt, List.getElem?_append_left hlt]
  · rw [if_pos ⟨by omega, ha⟩, List.getElem?_append_right (by omega)]

theorem Cells.lists_writeSeq (cells : List (Nat × α)) (vs : List α) : Cells.Lists (Cells.writeSeq cells 0 vs) vs :=
  (Cells.lists_nil cells).append vs

theorem Cells.Lists.take (h : Cells.Lists cells vs) (k : Nat) : Cells.Lists cells (vs.take k) := by
  intro a ha
  rw [List.length_take] at ha
  rw [h a (by omega), List.getElem?_take_of_lt (by omega)]

/-- A listed item is what its address reads. -/
theorem Store.read_of_lists (free : Nat → Nat → α) (h : Cells.Lists m.cells vs) {a : Nat} (ha : a < vs.length) :
    m.read free a = vs[a] := by
  rw [Store.read, h a ha, List.getElem?_eq_getElem ha, Option.getD_some]

/-- Canonical stores that list the same sequence are the same once what lies above it is drawn again. -/
theorem Store.forgetFrom_eq_of_lists (hm : m.wf = true) (hn : n.wf = true) (hmv : Cells.Lists m.cells vs)
    (hnv : Cells.Lists n.cells vs) (g : Nat) : m.forgetFrom vs.length g = n.forgetFrom vs.length g := by
  refine Store.ext_lookup (Store.wf_forgetFrom _ g hm) (Store.wf_forgetFrom _ g hn) rfl fun a => ?_
  rw [Store.forgetFrom, Store.forgetFrom, Cells.lookup_keepBelow, Cells.lookup_keepBelow]
  by_cases ha : a < vs.length
  · rw [if_pos ha, if_pos ha, hmv a ha, hnv a ha]
  · rw [if_neg ha, if_neg ha]

/-- Nothing is left of a store redrawn from address 0 up. -/
theorem Store.forgetFrom_zero (m n : Store α) (g : Nat) : m.forgetFrom 0 g = n.forgetFrom 0 g := by
  rw [Store.forgetFrom, Store.forgetFrom, Cells.keepBelow_zero, Cells.keepBelow_zero]

end Sys2Proof.Machine
end

section
/-! Running a command to its completion from the middle of its micro-steps: what they have written by then is written
again or drawn again, and nothing else has changed (spec 44_engine.md R205, R232; 20_memory.md R66, R77). -/

namespace Sys2Proof.Machine

variable {s t u : State} {i : Instr} {v : List Byte}

theorem keepsPair_iff : keepsPair i = true ↔ i = .mix := by cases i <;> decide

/-! ## The results in the state -/

/-- The results of command `i` stand in the state: `v` in OUT, the key schedule in RK if it derives, MIX_Y if it is
MIX. -/
structure State.HoldsResult (i : Instr) (v : List Byte) (s : State) : Prop where
  out : Cells.Lists s.out.cells v
  outLen : s.outLen = BitVec.ofNat 32 v.length
  rkLen : derivesKeys i = true → s.rkLen = s.rounds
  rk : derivesKeys i = true → Cells.Lists s.rk.cells (roundKeyWords Config.params s.keyOperand s.rounds.toNat)
  mixY : i = .mix → s.mixY = mix Config.params s.mixA s.mixK

/-- Writing a command's results is a change its micro-steps may make. -/
theorem putCommand_frame (hv : commandBytes i s = .ok v) : MicroFrame i s (s.putCommand i v) := by
  have hresult : commandResult i s = .ok (s.putCommand i v) := by rw [commandResult_eq_map, hv]; rfl
  obtain ⟨heq, hrk, hmixY⟩ := commandResult_frame hresult
  exact ⟨by rw [heq], hrk, hmixY, fun _ => by rw [heq]; exact ⟨rfl, rfl⟩⟩

theorem putCommand_out (hv : commandBytes i s = .ok v) : (s.putCommand i v).out = s.out.writeSeq 0 v := by
  cases i with
  | encrypt | decrypt | derive | encblk | decblk | pad | unpad => rfl
  | mix => cases hv; rfl

theorem putCommand_roundKeys (hi : derivesKeys i = true) (s : State) (v : List Byte) :
    (s.putCommand i v).rkLen = s.rounds ∧
      (s.putCommand i v).rk = s.rk.writeSeq 0 (roundKeyWords Config.params s.keyOperand s.rounds.toNat) := by
  obtain rfl | rfl | rfl := derivesKeys_iff.1 hi <;> exact ⟨rfl, rfl⟩

theorem putCommand_holdsResult (hv : commandBytes i s = .ok v) : (s.putCommand i v).HoldsResult i v := by
  obtain ⟨hkey, -, hrounds, -⟩ := (putCommand_frame hv).operands
  refine ⟨?_, putCommand_outLen hv, fun hi => ?_, fun hi => ?_, ?_⟩
  · rw [putCommand_out hv]
    exact Cells.lists_writeSeq _ v
  · rw [(putCommand_roundKeys hi s v).1, hrounds]
  · rw [hkey, hrounds, (putCommand_roundKeys hi s v).2]
    exact Cells.lists_writeSeq _ _
  · rintro rfl
    rfl

/-! ## The completions -/

theorem MicroFrame.phase_eq (h : MicroFrame i s u) : u.phase = s.phase := by rw [h.eq]

theorem MicroFrame.cmd_eq (h : MicroFrame i s u) : u.cmd = s.cmd := by rw [h.eq]

theorem MicroFrame.symm (h : MicroFrame i s u) : MicroFrame i u s where
  eq := by
    have e := h.eq
    rw [e]
  rk hi := ⟨(h.rk hi).1.symm, (h.rk hi).2.symm⟩
  mixY hi := (h.mixY hi).symm
  pair hi := ⟨(h.pair hi).1.symm, (h.pair hi).2.symm⟩

/-- The completion with success looks at the results and at what micro-steps leave alone. -/
theorem MicroFrame.endCommand_eq (h : MicroFrame i s u) (houtLen : u.outLen = s.outLen)
    (hout : u.out.forgetFrom s.outLen.toNat s.draws = s.out.forgetFrom s.outLen.toNat s.draws)
    (hrkLen : u.rkLen = s.rkLen)
    (hrk : derivesKeys i = true → u.rk.forgetFrom s.rkLen.toNat s.draws = s.rk.forgetFrom s.rkLen.toNat s.draws)
    (hmixY : u.mixY = s.mixY) :
    u.endCommand (derivesKeys i) (keepsPair i) = s.endCommand (derivesKeys i) (keepsPair i) := by
  have hl : keepsPair i = true → u.l = s.l := fun hk => (h.pair (keepsPair_iff.1 hk)).1
  have hr : keepsPair i = true → u.r = s.r := fun hk => (h.pair (keepsPair_iff.1 hk)).2
  have hrk' : derivesKeys i = false → u.rk = s.rk := fun hi => (h.rk hi).1
  rw [h.eq]
  simp only [State.endCommand, houtLen, hout, hrkLen, hmixY]
  cases hd : derivesKeys i <;> cases hk : keepsPair i <;> simp [*]

/-- The completion with an error looks at nothing the micro-steps of a command that can fail change. -/
theorem MicroFrame.failCommand_eq (h : MicroFrame i s u) (hi : i ≠ .mix) (e : ErrorKind) :
    u.failCommand (derivesKeys i) e = s.failCommand (derivesKeys i) e := by
  have hrk' : derivesKeys i = false → u.rk = s.rk ∧ u.rkLen = s.rkLen := h.rk
  rw [h.eq]
  simp only [State.failCommand, h.mixY hi, Store.forgetFrom_zero u.out s.out, Store.forgetFrom_zero u.rk s.rk]
  cases hd : derivesKeys i <;> simp [*]

/-- States that hold the same results of a command complete alike. -/
theorem MicroFrame.endCommand_eq_of_holdsResult (h : MicroFrame i s u) (hs : s.Fits) (hu : u.Fits)
    (hvs : s.HoldsResult i v) (hvu : u.HoldsResult i v) (hlt : v.length < 2 ^ 32) :
    u.endCommand (derivesKeys i) (keepsPair i) = s.endCommand (derivesKeys i) (keepsPair i) := by
  obtain ⟨hkey, -, hrounds, -, -, hmixA, hmixK, -⟩ := h.operands
  have hlen : s.outLen.toNat = v.length := by rw [hvs.outLen, toNat_ofNat_of_lt hlt]
  refine h.endCommand_eq (hvu.outLen.trans hvs.outLen.symm) ?_ ?_ (fun hi => ?_) ?_
  · rw [hlen]
    exact Store.forgetFrom_eq_of_lists hu.out.wf hs.out.wf hvu.out hvs.out _
  · cases hi : derivesKeys i with
    | true => rw [hvu.rkLen hi, hvs.rkLen hi, hrounds]
    | false => exact (h.rk hi).2
  · have hk := hvu.rk hi
    have heq := Store.forgetFrom_eq_of_lists hu.rk.wf hs.rk.wf (by rwa [hkey, hrounds] at hk) (hvs.rk hi) s.draws
    rwa [roundKeyWords_length, ← hvs.rkLen hi] at heq
  · by_cases hi : i = .mix
    · rw [hvu.mixY hi, hvs.mixY hi, hmixA, hmixK]
    · exact h.mixY hi

/-! ## The whole command -/

theorem commandBytes_ne_error_of_mix {e : ErrorKind} (he : commandBytes i s = .error e) : i ≠ .mix := by
  rintro rfl
  cases he

/-- A state that holds the command's results completes to what the whole command gives. -/
theorem exec_of_holdsResult (hs : s.Fits) (hd : inDomain i s = true) (hv : commandBytes i s = .ok v)
    (hvs : s.HoldsResult i v) : exec i s = .next (s.endCommand (derivesKeys i) (keepsPair i)) := by
  have hle := commandBytes_length_le hd hv
  rw [exec_of_commandBytes hd hv, (putCommand_frame hv).endCommand_eq_of_holdsResult hs (hs.putCommand hd hle) hvs
    (putCommand_holdsResult hv) (Nat.lt_of_le_of_lt hle Config.capOut_lt)]

/-- What micro-steps change does not change what the whole command gives. -/
theorem MicroFrame.exec_eq (h : MicroFrame i s u) (hs : s.Fits) (hu : u.Fits) (hd : inDomain i s = true) :
    exec i u = exec i s := by
  have hsame := h.sameOperands
  have hdu : inDomain i u = true := (inDomain_congr hsame).trans hd
  have hbytes := hsame.commandBytes_eq
  cases hv : commandBytes i s with
  | error e =>
    rw [exec_of_bytes_error hd hv, exec_of_bytes_error hdu (hbytes.trans hv),
      h.failCommand_eq (commandBytes_ne_error_of_mix hv)]
  | ok v =>
    have hvu := hbytes.trans hv
    have hle := commandBytes_length_le hd hv
    have hframe : MicroFrame i (s.putCommand i v) (u.putCommand i v) :=
      (putCommand_frame hv).symm.trans (h.trans (putCommand_frame hvu))
    rw [exec_of_commandBytes hd hv, exec_of_commandBytes hdu hvu,
      hframe.endCommand_eq_of_holdsResult (hs.putCommand hd hle) (hu.putCommand hdu hle) (putCommand_holdsResult hv)
        (putCommand_holdsResult hvu) (Nat.lt_of_le_of_lt hle Config.capOut_lt)]

/-! ## From any micro-step -/

theorem microSteps_succ (h : engineStep s = .next t) (m : Nat) : microSteps (m + 1) s = microSteps m t := by
  simp only [microSteps, h]

/-- While the command still runs its micro-steps have kept the frame and the invariant. -/
theorem microSteps_frame : ∀ (m : Nat) {s u : State}, s.Inv → s.phase = .run → decode s.cmd = .ok i →
    microSteps m s = .next u → u.phase = .run → MicroFrame i s u ∧ u.Inv
  | 0, s, _, hs, _, _, hm, _ => by
    cases hm
    exact ⟨MicroFrame.refl i s, hs⟩
  | m + 1, s, u, hs, hp, hw, hm, hu => by
    cases he : microStepOf i s with
    | fault f => simp only [microSteps, engineStep_of_ok hp hw, he] at hm; cases hm
    | refused r => simp only [microSteps, engineStep_of_ok hp hw, he] at hm; cases hm
    | next t =>
      rw [microSteps_succ ((engineStep_of_ok hp hw).trans he)] at hm
      cases ht : t.phase with
      | idle =>
        obtain rfl := microSteps_idle m ht hm
        rw [ht] at hu
        cases hu
      | run =>
        have hframe := microStepOf_frame he ht
        obtain ⟨hrest, hinv⟩ := microSteps_frame m (hs.microStepOf hp hw he) ht (hframe.cmd_eq ▸ hw) hm hu
        exact ⟨hframe.trans hrest, hinv⟩

/-- Settles O59: the micro-steps up to there keep the frame, and `exec` depends on nothing outside it. -/
theorem completionFromAnyMicroStep : Obligations.CompletionFromAnyMicroStep := by
  intro i s u m hs hp _ hw hm hu
  obtain ⟨hframe, hinv⟩ := microSteps_frame m hs hp hw hm hu
  exact hframe.exec_eq hs.fits hinv.fits (hs.domain hp i hw)

end Sys2Proof.Machine
end

section
/-! The run of a command as the canonical micro-steps take it: the checks at S_CHECK, the round keys, the source blocks
and the result blocks (spec 44_engine.md R220, R221; 42_feistel_core.md R157 to R162). -/

namespace Sys2Proof.Machine

variable {s t : State} {i : Instr}

/-! ## The checks at S_CHECK -/

theorem toNat_lt_one_iff {w : Word} : w.toNat < 1 ↔ w = 0 :=
  Nat.lt_one_iff.trans (BitVec.toNat_inj (y := 0#32))

theorem keyOperand_length_eq_zero_iff : s.keyOperand.length = 0 ↔ s.keyLen = 0 :=
  List.length_eq_zero_iff.trans keyOperand_eq_nil_iff

/-- The first check that fails at S_CHECK is the kind the command's function raises (R221, R253). -/
theorem commandBytes_of_startCheck {k : ErrorKind} (h : startCheck i s = some k) : commandBytes i s = .error k := by
  cases i <;> simp only [startCheck] at h
  case encrypt =>
    simp only [commandBytes, encrypt, deriveRoundKeys, toNat_lt_one_iff, keyOperand_length_eq_zero_iff]
    split_ifs at h ⊢ <;> cases h <;> rfl
  case decrypt =>
    simp only [commandBytes, decrypt, deriveRoundKeys, toNat_lt_one_iff, keyOperand_length_eq_zero_iff,
      inOperand_length]
    split_ifs at h ⊢ <;> cases h <;> rfl
  case derive =>
    simp only [commandBytes, deriveRoundKeys, toNat_lt_one_iff, keyOperand_length_eq_zero_iff]
    split_ifs at h ⊢ <;> cases h <;> rfl
  case encblk | decblk =>
    refine (commandBytes_eq_error_of_readsStore rfl ?_).trans ?_
    · split_ifs at h with hin hrk
      · exact .inl hin
      · exact .inr hrk
    · split_ifs at h <;> cases h <;> rfl
  case unpad =>
    rw [commandBytes]
    cases hm : unpad s.inOperand with
    | ok m => rw [hm] at h; cases h
    | error e => rw [hm] at h; cases h; rfl
  case pad | mix => cases h

/-- A deriving command that passed its checks has a key and rounds. -/
theorem key_and_rounds_of_checked (hi : derivesKeys i = true) (h : startCheck i s = none) :
    1 ≤ s.keyLen.toNat ∧ 1 ≤ s.rounds.toNat := by
  obtain rfl | rfl | rfl := derivesKeys_iff.1 hi <;> simp only [startCheck] at h
  · split_ifs at h with hkey hr
    exact ⟨toNat_pos_of_ne_zero hkey, toNat_pos_of_ne_zero hr⟩
  · split_ifs at h with hr hkey
    exact ⟨toNat_pos_of_ne_zero hkey, toNat_pos_of_ne_zero hr⟩
  · split_ifs at h with hr hin hkey
    exact ⟨toNat_pos_of_ne_zero hkey, toNat_pos_of_ne_zero hr⟩

/-- DECRYPT that passed its checks has a whole number of blocks, not none. -/
theorem inLen_of_decrypt_checked (h : startCheck .decrypt s = none) : s.inLen ≠ 0 ∧ s.inLen.toNat % 8 = 0 := by
  simp only [startCheck] at h
  split_ifs at h with h1 h2
  obtain ⟨hne, haligned⟩ := not_or.1 h2
  exact ⟨fun h0 => hne (by rw [h0]; rfl), not_not.1 haligned⟩

/-- A block command that passed its checks has one block and as many keys as rounds. -/
theorem block_operands_of_checked (hi : readsStore i = true) (h : startCheck i s = none) :
    s.inLen = 8 ∧ s.rkLen = s.rounds := by
  obtain rfl | rfl := readsStore_iff.1 hi <;> simp only [startCheck] at h <;> split_ifs at h with h1 h2 <;>
    exact ⟨not_not.1 h1, not_not.1 h2⟩

theorem MicroFrame.startCheck_eq (h : MicroFrame i s t) : startCheck i t = startCheck i s := by
  obtain ⟨-, hin, hrounds, hinLen, hkeyLen, -⟩ := h.operands
  cases i with
  | encrypt | decrypt | derive => simp only [startCheck, hrounds, hinLen, hkeyLen]
  | encblk | decblk => simp only [startCheck, hrounds, hinLen, (h.rk rfl).2]
  | unpad => simp only [startCheck, hin]
  | pad | mix => rfl

/-! ## Keys and blocks -/

/-- Does command `i` take its blocks through ROUND (R220)? -/
def isForward (i : Instr) : Bool := i = .encrypt || i = .encblk

/-- The round keys of the run of `i`: derived, or as they stand in RK (R220). -/
def runKeys (i : Instr) (s : State) : List Word :=
  if derivesKeys i then roundKeyWords Config.params s.keyOperand s.rounds.toNat else s.rkOperand

/-- The bytes whose blocks the run of `i` takes (R220). -/
def runData (i : Instr) (s : State) : List Byte := if i = .encrypt then pad s.inOperand else s.inOperand

/-- The first `n` result blocks of the run of `i`. -/
def runBlocks (i : Instr) (s : State) (n : Nat) : List Byte :=
  blocksBytes Config.params (isForward i) (runKeys i s) n (runData i s)

/-- The working pair after `j` rounds on block `b` (R157, R158, R160). -/
def runPair (i : Instr) (s : State) (b j : Nat) : Word × Word :=
  ((keyOrder (isForward i) (runKeys i s)).take j).foldl (directedRound Config.params (isForward i))
    (unpack (slice (runData i s) (8 * b) (8 * b + 8)))

theorem runBlocks_succ (i : Instr) (s : State) (n : Nat) :
    runBlocks i s (n + 1) = runBlocks i s n ++
      blockBytes Config.params (isForward i) (runKeys i s) (slice (runData i s) (8 * n) (8 * n + 8)) :=
  blocksBytes_succ _ _ _ _ _

@[simp] theorem runBlocks_length (i : Instr) (s : State) (n : Nat) : (runBlocks i s n).length = 8 * n :=
  blocksBytes_length _ _ _ _ _

theorem MicroFrame.runKeys_eq (h : MicroFrame i s t) : runKeys i t = runKeys i s := by
  obtain ⟨hkey, -, hrounds, -⟩ := h.operands
  rw [runKeys, runKeys, hkey, hrounds]
  cases hi : derivesKeys i with
  | true => rfl
  | false => exact rkOperand_congr (h.rk hi).1 (h.rk hi).2

theorem MicroFrame.runData_eq (h : MicroFrame i s t) : runData i t = runData i s := by
  obtain ⟨-, hin, -⟩ := h.operands
  rw [runData, runData, hin]

theorem MicroFrame.runBlocks_eq (h : MicroFrame i s t) (n : Nat) : runBlocks i t n = runBlocks i s n := by
  rw [runBlocks, runBlocks, h.runKeys_eq, h.runData_eq]

theorem MicroFrame.runPair_eq (h : MicroFrame i s t) (b j : Nat) : runPair i t b j = runPair i s b j := by
  rw [runPair, runPair, h.runKeys_eq, h.runData_eq]

theorem keyOrder_length (forward : Bool) (k : List Word) : (keyOrder forward k).length = k.length := by
  cases forward
  · exact List.length_reverse
  · rfl

theorem getElem?_keyOrder (forward : Bool) (k : List Word) {j : Nat} (hj : j < k.length) :
    (keyOrder forward k)[j]? = k[if forward then j else k.length - 1 - j]? := by
  cases forward
  · exact List.getElem?_reverse hj
  · rfl

theorem runPair_zero (i : Instr) (s : State) (b : Nat) :
    runPair i s b 0 = unpack (slice (runData i s) (8 * b) (8 * b + 8)) := rfl

/-- One more round takes the next key in the run's order. -/
theorem runPair_succ {b j : Nat} {k : Word} (hk : (keyOrder (isForward i) (runKeys i s))[j]? = some k) :
    runPair i s b (j + 1) = directedRound Config.params (isForward i) (runPair i s b j) k := by
  rw [runPair, List.take_add_one, hk, List.foldl_append]
  rfl

/-- After the last round the pair is the result block. -/
theorem pack_runPair (i : Instr) (s : State) (b : Nat) :
    pack (runPair i s b (runKeys i s).length) =
      blockBytes Config.params (isForward i) (runKeys i s) (slice (runData i s) (8 * b) (8 * b + 8)) := by
  rw [runPair, List.take_of_length_le (Nat.le_of_eq (keyOrder_length _ _)), blockBytes]

/-- The direction and the number of keys of R220's plan. -/
theorem roundPlan_eq {forward : Bool} {n : Nat} (h : roundPlan i s = some (forward, n)) :
    forward = isForward i ∧ n = (runKeys i s).length := by
  cases i with
  | encrypt | decrypt => cases h; exact ⟨rfl, (roundKeyWords_length _ _ _).symm⟩
  | encblk | decblk => cases h; exact ⟨rfl, (rkOperand_length s).symm⟩
  | derive | pad | unpad | mix => cases h

theorem slice_inOperand (s : State) {a n : Nat} (h : a + n ≤ s.inLen.toNat) :
    slice s.inOperand a (a + n) = s.memReadIn a n := by
  refine List.ext_getElem? fun j => ?_
  by_cases hj : j < n
  · rw [getElem?_slice _ (by omega), inOperand_getElem? s (by omega), State.memReadIn, List.getElem?_map,
      List.getElem?_range hj, Option.map_some]
  · rw [List.getElem?_eq_none (by rw [slice_length]; omega), List.getElem?_eq_none (by rw [memReadIn_length]; omega)]

/-- `Src(b)` of R220 is block `b` of the run's bytes. -/
theorem sourceBlock_eq {nb b : Nat} (hc : startCheck i s = none) (hnb : blockCount i s = some nb) (hb : b < nb) :
    sourceBlock i s b = slice (runData i s) (8 * b) (8 * b + 8) := by
  cases i with
  | encrypt => rfl
  | decrypt => cases hnb; exact (slice_inOperand s (by omega)).symm
  | encblk | decblk =>
    cases hnb
    obtain ⟨hin, -⟩ := block_operands_of_checked rfl hc
    exact (slice_inOperand s (by rw [hin]; exact (by omega : 8 * b + 8 ≤ 8))).symm
  | derive | pad | unpad | mix => cases hnb

/-- A block command's bytes are its one result block. -/
theorem commandBytes_of_block_checked (hi : readsStore i = true) (hc : startCheck i s = none) :
    commandBytes i s = .ok (runBlocks i s 1) := by
  obtain ⟨hin, hrk⟩ := block_operands_of_checked hi hc
  have hlen : s.inOperand.length = 8 := by rw [inOperand_length, hin]; rfl
  have hkeys : s.rkOperand.length = s.rounds.toNat := by rw [rkOperand_length, hrk]
  obtain rfl | rfl := readsStore_iff.1 hi
  · exact (encryptBlock_eq hlen hkeys).trans (congrArg Except.ok (blocksBytes_one _ true _ hlen).symm)
  · exact (decryptBlock_eq hlen hkeys).trans (congrArg Except.ok (blocksBytes_one _ false _ hlen).symm)

/-- The bytes of a command with a block phase, other than DECRYPT, are its result blocks. -/
theorem commandBytes_of_checked {nb : Nat} (hc : startCheck i s = none) (hnb : blockCount i s = some nb)
    (hi : i ≠ .decrypt) : commandBytes i s = .ok (runBlocks i s nb) := by
  cases i with
  | encrypt =>
    cases hnb
    obtain ⟨hkey, hr⟩ := key_and_rounds_of_checked rfl hc
    exact commandBytes_encrypt hkey hr
  | decrypt => exact absurd rfl hi
  | encblk | decblk => cases hnb; exact commandBytes_of_block_checked rfl hc
  | derive | pad | unpad | mix => cases hnb

end Sys2Proof.Machine
end

section
/-! What the canonical micro-steps have computed at each position: the round keys collected so far, the blocks stored so
far and the rounds applied to the working pair; each micro-step carries it on or completes the command (spec
44_engine.md R221 to R228; 40_key_schedule.md R126; 42_feistel_core.md R157 to R162). -/

namespace Sys2Proof.Machine

variable {s t : State} {i : Instr} {v : List Byte}

/-! ## The phases -/

/-- The words of the key's first `c` digests, in order (R122 to R124). -/
def digestPrefix (p : Params) (key : List Byte) (c : Nat) : List Word :=
  (List.range c).flatMap fun j => digestWords (p.hash (hashMessage key (BitVec.ofNat 32 j)))

theorem digestPrefix_length (p : Params) (key : List Byte) (c : Nat) : (digestPrefix p key c).length = 8 * c :=
  flatMap_blocks_length (fun _ => digestWords_length _) c

theorem digestPrefix_succ (p : Params) (key : List Byte) (c : Nat) :
    digestPrefix p key (c + 1) =
      digestPrefix p key c ++ digestWords (p.hash (hashMessage key (BitVec.ofNat 32 c))) := by
  rw [digestPrefix, List.range_succ, List.flatMap_append, List.flatMap_singleton, digestPrefix]

/-- At S_KS: the checks have passed, and RK lists the words of the digests counted by CTR, those past ROUNDS dropped
(R126). -/
structure KeyPhase (i : Instr) (s : State) : Prop where
  derives : derivesKeys i = true
  checked : startCheck i s = none
  words : ∃ c, s.seq.nw = 8 * c ∧ s.seq.ctr = BitVec.ofNat 32 c ∧
    Cells.Lists s.rk.cells ((digestPrefix Config.params s.keyOperand c).take s.rounds.toNat)

/-- In the block phase: the checks have passed, a deriving command has its round keys, and OUT lists the first BLK
result blocks (R223 to R225). -/
structure BlockPhase (i : Instr) (s : State) : Prop where
  checked : startCheck i s = none
  rkLen : derivesKeys i = true → s.rkLen = s.rounds
  rk : derivesKeys i = true → Cells.Lists s.rk.cells (roundKeyWords Config.params s.keyOperand s.rounds.toNat)
  out : Cells.Lists s.out.cells (runBlocks i s s.seq.blk)

/-- What stands in the state at each position of the canonical sequence. -/
def Progress (i : Instr) (s : State) : Prop :=
  match s.seq.sub with
  | .sCheck => True
  | .sKs => KeyPhase i s
  | .sLoad => BlockPhase i s
  | .sRound => BlockPhase i s ∧ (s.l, s.r) = runPair i s s.seq.blk s.seq.rnd
  | .sStore => BlockPhase i s ∧ (s.l, s.r) = runPair i s s.seq.blk (runKeys i s).length
  | .sUnpad => BlockPhase i s ∧ blockCount i s = some s.seq.blk
  | .sCopy => startCheck i s = none
  | .sEnd => ∃ v, commandBytes i s = .ok v ∧ s.HoldsResult i v

/-- A micro-step of `i` from `s` to `t` leaves the command running with its progress made, or completes it with what the
whole command gives. -/
def Advances (i : Instr) (s t : State) : Prop := t.phase = .run ∧ Progress i t ∨ exec i s = .next t

theorem MicroFrame.advances (hf : MicroFrame i s t) (hp : s.phase = .run) (h : Progress i t) : Advances i s t :=
  .inl ⟨hf.phase_eq.trans hp, h⟩

/-- The results in place, the run goes to S_END. -/
theorem MicroFrame.progress_sEnd (hf : MicroFrame i s t) (hsub : t.seq.sub = .sEnd) (hv : commandBytes i s = .ok v)
    (ht : t.HoldsResult i v) : Progress i t := by
  simp only [Progress, hsub]
  exact ⟨v, hf.sameOperands.commandBytes_eq.trans hv, ht⟩

/-! ## S_CHECK and S_KS -/

theorem stepCheck_advances (hd : inDomain i s = true) (hp : s.phase = .run) (he : stepCheck i s = .next t) :
    Advances i s t := by
  cases hc : startCheck i s with
  | some k =>
    simp only [stepCheck, hc] at he
    cases he
    exact .inr (exec_of_bytes_error hd (commandBytes_of_startCheck hc))
  | none =>
    have ht : t = afterCheck i s := by
      simp only [stepCheck, hc] at he
      exact (Host.Outcome.next.inj he).symm
    have hrun : t.phase = .run := by rw [ht]; cases i <;> exact hp
    have hf := stepCheck_frame he hrun
    have hct := hf.startCheck_eq.trans hc
    refine hf.advances hp ?_
    subst ht
    cases i with
    | encrypt | decrypt | derive => exact ⟨rfl, hct, 0, rfl, rfl, (Cells.lists_nil _).take _⟩
    | encblk | decblk => exact ⟨hct, nofun, nofun, Cells.lists_nil _⟩
    | pad | unpad => exact hct
    | mix => exact ⟨[], rfl, Cells.lists_nil _, rfl, nofun, nofun, fun _ => rfl⟩

/-- KS-STEP appends the next digest's words up to ROUNDS. -/
theorem KeyPhase.ksStep (h : KeyPhase i s) (hlt : s.seq.nw < s.rounds.toNat) (hf : MicroFrame i s s.ksStep) :
    KeyPhase i s.ksStep := by
  obtain ⟨c, hnw, hctr, hrk⟩ := h.words
  obtain ⟨hkey, -, hrounds, -⟩ := hf.operands
  have hlen := digestPrefix_length Config.params s.keyOperand c
  have hall : (digestPrefix Config.params s.keyOperand c).take s.rounds.toNat =
      digestPrefix Config.params s.keyOperand c := List.take_of_length_le (by omega)
  have hctr' : s.ksStep.seq.ctr = BitVec.ofNat 32 (c + 1) := by
    show add32 s.seq.ctr 1 = _
    rw [hctr, add32, BitVec.ofNat_add]
    rfl
  have hnw' : s.ksStep.seq.nw = 8 * (c + 1) := by
    show s.seq.nw + 8 = _
    omega
  refine ⟨h.derives, hf.startCheck_eq.trans h.checked, c + 1, hnw', hctr', ?_⟩
  rw [hkey, hrounds, digestPrefix_succ, List.take_append, hall, hlen, ← hnw, ← hctr]
  rw [hall] at hrk
  have happend := hrk.append
    ((digestWords (Config.params.hash (hashMessage s.keyOperand s.seq.ctr))).take (s.rounds.toNat - s.seq.nw))
  rwa [hlen, ← hnw] at happend

/-- When NW has reached ROUNDS RK lists the whole key schedule. -/
theorem KeyPhase.rk_of_done (h : KeyPhase i s) (hge : s.rounds.toNat ≤ s.seq.nw)
    (hle : s.seq.nw ≤ s.rounds.toNat + 7) :
    Cells.Lists s.rk.cells (roundKeyWords Config.params s.keyOperand s.rounds.toNat) := by
  obtain ⟨c, hnw, -, hrk⟩ := h.words
  have hc : c = (s.rounds.toNat + 7) / 8 := by omega
  rw [roundKeyWords_eq, ← hc]
  exact hrk

theorem stepKs_advances (hsub : s.seq.sub = .sKs) (h : KeyPhase i s) (hle : s.seq.nw ≤ s.rounds.toNat + 7)
    (hp : s.phase = .run) (he : stepKs i s = .next t) : Advances i s t := by
  have hf := stepKs_frame he
  refine hf.advances hp ?_
  rw [stepKs, if_pos h.derives] at he
  split_ifs at he with hlt hi <;> cases he
  · have hsub' : s.ksStep.seq.sub = .sKs := hsub
    simp only [Progress, hsub']
    exact h.ksStep hlt hf
  · have hrk := h.rk_of_done (Nat.not_lt.1 hlt) hle
    obtain ⟨hkey, hr⟩ := key_and_rounds_of_checked h.derives h.checked
    subst hi
    refine hf.progress_sEnd rfl (v := []) ?_ ⟨Cells.lists_nil _, rfl, fun _ => rfl, fun _ => hrk, nofun⟩
    rw [commandBytes, deriveRoundKeys_ok (keyOperand_ne_nil hkey) hr]
    rfl
  · have hrk := h.rk_of_done (Nat.not_lt.1 hlt) hle
    exact ⟨hf.startCheck_eq.trans h.checked, fun _ => rfl, fun _ => hrk, Cells.lists_nil _⟩

/-! ## The block phase -/

/-- The block phase looks at the operands, the round keys, OUT and BLK. -/
theorem BlockPhase.of_frame (h : BlockPhase i s) (hf : MicroFrame i s t) (hrk : t.rk = s.rk)
    (hrkLen : t.rkLen = s.rkLen) (hout : t.out = s.out) (hblk : t.seq.blk = s.seq.blk) : BlockPhase i t := by
  obtain ⟨hkey, -, hrounds, -⟩ := hf.operands
  refine ⟨hf.startCheck_eq.trans h.checked, ?_, ?_, ?_⟩
  · rw [hrkLen, hrounds]
    exact h.rkLen
  · rw [hrk, hkey, hrounds]
    exact h.rk
  · rw [hout, hf.runBlocks_eq, hblk]
    exact h.out

/-- Bytes that OUT lists are the result once OUT_LEN is their number. -/
theorem BlockPhase.holdsResult (h : BlockPhase i s) (hi : i ≠ .mix) (hv : Cells.Lists s.out.cells v) :
    ((s.setOutLen v.length).goto .sEnd).HoldsResult i v :=
  ⟨hv, rfl, h.rkLen, h.rk, fun hmix => absurd hmix hi⟩

theorem stepLoad_advances (h : BlockPhase i s) (hp : s.phase = .run) (he : stepLoad i s = .next t) :
    Advances i s t := by
  have hf := stepLoad_frame he
  refine hf.advances hp ?_
  cases hnb : blockCount i s with
  | none => simp only [stepLoad, hnb] at he; cases he
  | some nb =>
    simp only [stepLoad, hnb] at he
    split_ifs at he with hlt heq hi <;> cases he
    · refine ⟨h.of_frame hf rfl rfl rfl rfl, ?_⟩
      show unpack (sourceBlock i s s.seq.blk) = runPair i (s.loadBlock _) s.seq.blk 0
      rw [hf.runPair_eq, runPair_zero, sourceBlock_eq h.checked hnb hlt]
    · exact ⟨h.of_frame hf rfl rfl rfl rfl, (hf.blockCount_eq.trans hnb).trans (congrArg some heq.symm)⟩
    · have hout := h.out
      rw [heq] at hout
      have hmix : i ≠ .mix := by rintro rfl; cases hnb
      have hres := h.holdsResult hmix hout
      rw [runBlocks_length] at hres
      exact hf.progress_sEnd rfl (commandBytes_of_checked h.checked hnb hi) hres

/-- The round key of the next round is the next one in the run's order (R224). -/
theorem BlockPhase.getElem?_keyOrder (h : BlockPhase i s) {j : Nat} (hj : j < (runKeys i s).length) :
    (keyOrder (isForward i) (runKeys i s))[j]? =
      some (s.readRk (if isForward i then j else (runKeys i s).length - 1 - j)) := by
  have hkey {a : Nat} (ha : a < (runKeys i s).length) : (runKeys i s)[a]? = some (s.readRk a) := by
    cases hi : derivesKeys i with
    | true =>
      have hkeys : runKeys i s = roundKeyWords Config.params s.keyOperand s.rounds.toNat := if_pos hi
      rw [hkeys] at ha ⊢
      rw [State.readRk, Store.read_of_lists _ (h.rk hi) ha, List.getElem?_eq_getElem ha]
    | false =>
      have hkeys : runKeys i s = s.rkOperand := if_neg (by simp [hi])
      rw [hkeys, rkOperand_length] at ha
      rw [hkeys, State.rkOperand, List.getElem?_map, List.getElem?_range ha, Option.map_some]
  rw [Machine.getElem?_keyOrder _ _ hj, hkey]
  split <;> omega

theorem applyRound_pair (s : State) (forward : Bool) (k : Word) :
    ((s.applyRound forward k).l, (s.applyRound forward k).r) = directedRound Config.params forward (s.l, s.r) k := by
  cases forward <;> rfl

theorem stepRound_advances (hsub : s.seq.sub = .sRound) (h : BlockPhase i s)
    (hpair : (s.l, s.r) = runPair i s s.seq.blk s.seq.rnd) (hp : s.phase = .run) (he : stepRound i s = .next t) :
    Advances i s t := by
  have hf := stepRound_frame he
  refine hf.advances hp ?_
  cases hplan : roundPlan i s with
  | none => simp only [stepRound, hplan] at he; cases he
  | some plan =>
    obtain ⟨forward, n⟩ := plan
    obtain ⟨rfl, rfl⟩ := roundPlan_eq hplan
    simp only [stepRound, hplan] at he
    split at he
    · rename_i hlt
      cases he
      have hsub' (k : Word) : (s.applyRound (isForward i) k).seq.sub = .sRound := hsub
      simp only [Progress, hsub']
      refine ⟨h.of_frame hf rfl rfl rfl rfl, ?_⟩
      rw [applyRound_pair, hpair, hf.runPair_eq]
      exact (runPair_succ (h.getElem?_keyOrder hlt)).symm
    · split at he
      · rename_i heq
        cases he
        refine ⟨h.of_frame hf rfl rfl rfl rfl, ?_⟩
        rw [hf.runPair_eq, hf.runKeys_eq, ← heq]
        exact hpair
      · cases he

theorem stepStore_advances (h : BlockPhase i s) (hpair : (s.l, s.r) = runPair i s s.seq.blk (runKeys i s).length)
    (hp : s.phase = .run) (he : stepStore i s = .next t) : Advances i s t := by
  have hf := stepStore_frame he
  refine hf.advances hp ?_
  cases hnb : blockCount i s with
  | none => simp only [stepStore, hnb] at he; cases he
  | some nb =>
    simp only [stepStore, hnb] at he
    split_ifs at he
    cases he
    refine ⟨hf.startCheck_eq.trans h.checked, h.rkLen, h.rk, ?_⟩
    have happend := h.out.append (pack (s.l, s.r))
    rw [runBlocks_length, hpair, pack_runPair, ← runBlocks_succ, ← hf.runBlocks_eq, ← pack_runPair, ← hpair] at happend
    exact happend

/-! ## S_UNPAD and S_COPY -/

theorem memReadOut_of_lists (hv : Cells.Lists s.out.cells v) : s.memReadOut 0 v.length = v :=
  map_range_read _ v fun a ha => by rw [Nat.zero_add, State.readOut, Store.read_of_lists _ hv ha]

/-- `Unpad` of a whole number of blocks is its last two checks (R185). -/
theorem unpad_of_aligned {d : List Byte} (hne : d.length ≠ 0) (haligned : d.length % 8 = 0) :
    unpad d = (checkPadding d).map fun n => d.take (d.length - n) := by
  rw [unpad, if_neg (not_or_intro hne (not_not_intro haligned))]
  cases checkPadding d <;> rfl

theorem stepUnpad_advances (hd : inDomain i s = true) (h : BlockPhase i s) (hnb : blockCount i s = some s.seq.blk)
    (hp : s.phase = .run) (he : stepUnpad i s = .next t) : Advances i s t := by
  by_cases hi : i = .decrypt
  · subst hi
    obtain ⟨hkey, hr⟩ := key_and_rounds_of_checked rfl h.checked
    obtain ⟨hne, haligned⟩ := inLen_of_decrypt_checked h.checked
    have hlen := decryptedData_length haligned
    have hout : Cells.Lists s.out.cells s.decryptedData := by
      have hout := h.out
      rw [← Option.some.inj hnb] at hout
      exact hout
    have hread := memReadOut_of_lists hout
    rw [hlen] at hread
    have hbytes := commandBytes_decrypt hne haligned hkey hr
    rw [unpad_of_aligned (hlen ▸ (toNat_pos_of_ne_zero hne).ne') (hlen ▸ haligned)] at hbytes
    have he' := he
    rw [stepUnpad, if_pos rfl, hread] at he
    cases hc : checkPadding s.decryptedData with
    | error k =>
      rw [hc] at he hbytes
      cases he
      exact .inr (exec_of_bytes_error hd hbytes)
    | ok n =>
      rw [hc] at he hbytes
      cases he
      have hf := stepUnpad_frame he' hp
      have hres := h.holdsResult nofun (hout.take (s.decryptedData.length - n))
      rw [List.length_take, Nat.min_eq_left (Nat.sub_le _ _), hlen] at hres
      rw [hlen] at hbytes
      exact hf.advances hp (hf.progress_sEnd rfl hbytes hres)
  · rw [stepUnpad, if_neg hi] at he
    cases he

/-- What `Unpad` returns is what S_COPY copies (R227). -/
theorem unpad_eq_take {d m : List Byte} (h : unpad d = .ok m) : m = d.take (d.length - lastByte d) := by
  obtain ⟨-, -, -, -, -, hm⟩ := unpad_eq_ok_iff.1 h
  exact hm

theorem putResult_holdsResult (hi : derivesKeys i = false) (hi' : i ≠ .mix) (s : State) (v : List Byte) :
    ((s.putResult v).goto .sEnd).HoldsResult i v :=
  have hno : derivesKeys i ≠ true := by rw [hi]; decide
  ⟨Cells.lists_writeSeq _ v, rfl, fun h => absurd h hno, fun h => absurd h hno, fun h => absurd h hi'⟩

theorem stepCopy_advances (hc : startCheck i s = none) (hp : s.phase = .run) (he : stepCopy i s = .next t) :
    Advances i s t := by
  have hf := stepCopy_frame he
  refine hf.advances hp ?_
  cases i with
  | pad =>
    have ht := Host.Outcome.next.inj he
    rw [← ht] at hf ⊢
    exact hf.progress_sEnd rfl rfl (putResult_holdsResult (i := .pad) rfl nofun s _)
  | unpad =>
    have ht := Host.Outcome.next.inj he
    rw [← ht] at hf ⊢
    cases hm : unpad s.inOperand with
    | error e => simp only [startCheck, hm] at hc; cases hc
    | ok m =>
      refine hf.progress_sEnd rfl hm ?_
      have htake := unpad_eq_take hm
      rw [inOperand_length] at htake
      rw [← htake]
      exact putResult_holdsResult (i := .unpad) rfl nofun s m
  | encrypt | decrypt | derive | encblk | decblk | mix => cases he

/-! ## Every position -/

/-- A micro-step carries the run's progress on, or completes the command with what the whole command gives. -/
theorem microStepOf_advances (hs : s.Fits) (hp : s.phase = .run) (hat : AtPosition i s) (h : Progress i s)
    (he : microStepOf i s = .next t) : Advances i s t := by
  have hd := microStepOf_inDomain he
  rw [microStepOf, if_pos hd] at he
  unfold Progress at h
  unfold AtPosition at hat
  cases hsub : s.seq.sub <;> rw [hsub] at he h hat <;> simp only at he h hat
  case sCheck => exact stepCheck_advances hd hp he
  case sKs => exact stepKs_advances hsub h hat.right hp he
  case sLoad => exact stepLoad_advances h hp he
  case sRound => exact stepRound_advances hsub h.left h.right hp he
  case sStore => exact stepStore_advances h.left h.right hp he
  case sUnpad => exact stepUnpad_advances hd h.left h.right hp he
  case sCopy => exact stepCopy_advances h hp he
  case sEnd =>
    obtain ⟨v, hv, hres⟩ := h
    exact .inr ((exec_of_holdsResult hs hd hv hres).trans he)

end Sys2Proof.Machine
end

section
/-! The number of micro-steps: every one that leaves the command running brings it nearer to its completion, and from
the start R230's bound is enough (spec 44_engine.md R205, R220 to R230). -/

namespace Sys2Proof.Machine

variable {s t : State} {i : Instr} {nb n rounds : Nat}

/-! ## Micro-steps to go -/

/-- The most micro-steps a run of `nb` blocks, `n` keys and `rounds` rounds still takes from a sequencer's position. -/
def stepsLeftFrom (nb n rounds : Nat) (q : Sequencer) : Nat :=
  match q.sub with
  | .sCheck => 1 + ((rounds + 7) / 8 + 1) + nb * (n + 3) + 3
  | .sKs => (rounds - q.nw + 7) / 8 + 1 + nb * (n + 3) + 3
  | .sLoad => (nb - q.blk) * (n + 3) + 3
  | .sRound => (nb - q.blk - 1) * (n + 3) + (n - q.rnd) + 5
  | .sStore => (nb - q.blk - 1) * (n + 3) + 4
  | .sUnpad => 2
  | .sCopy => 2
  | .sEnd => 1

/-- The most micro-steps the running command `i` still takes. -/
def stepsLeft (i : Instr) (s : State) : Nat :=
  stepsLeftFrom ((blockCount i s).getD 0) (((roundPlan i s).map Prod.snd).getD 0) s.rounds.toNat s.seq

theorem stepsLeft_of_sCheck (hsub : s.seq.sub = .sCheck) : stepsLeft i s = stepBound i s := by
  simp only [stepsLeft, stepsLeftFrom, hsub, stepBound]

theorem stepsLeft_pos (i : Instr) (s : State) : 0 < stepsLeft i s := by
  unfold stepsLeft stepsLeftFrom
  split <;> omega

/-- One block of the `nb - b` that are left. -/
theorem blocks_left_mul {b : Nat} (h : b < nb) (c : Nat) : (nb - b) * c = (nb - b - 1) * c + c := by
  rw [← Nat.succ_mul]
  congr 1
  omega

theorem stepCheck_stepsLeft (hsub : s.seq.sub = .sCheck) (he : stepCheck i s = .next t) (ht : t.phase = .run) :
    stepsLeftFrom nb n rounds t.seq < stepsLeftFrom nb n rounds s.seq := by
  unfold stepCheck at he
  split at he <;> cases he
  · exact (failCommand_not_running ht).elim
  · simp only [stepsLeftFrom, hsub]
    cases i <;> simp only [afterCheck, State.enterKs_seq, State.enterBlocks_seq, State.goto_seq, Nat.sub_zero] <;>
      omega

theorem stepKs_stepsLeft (hsub : s.seq.sub = .sKs) (he : stepKs i s = .next t) :
    stepsLeftFrom nb n s.rounds.toNat t.seq < stepsLeftFrom nb n s.rounds.toNat s.seq := by
  unfold stepKs at he
  split_ifs at he with hd hlt hi <;> cases he
  · have hsub' : s.ksStep.seq.sub = .sKs := hsub
    have hnw : s.ksStep.seq.nw = s.seq.nw + 8 := rfl
    simp only [stepsLeftFrom, hsub, hsub', hnw]
    omega
  · simp only [stepsLeftFrom, hsub, State.goto_seq]
    omega
  · simp only [stepsLeftFrom, hsub, State.enterBlocks_seq, Nat.sub_zero]
    omega

theorem stepLoad_stepsLeft (hsub : s.seq.sub = .sLoad) (hnb : blockCount i s = some nb) (he : stepLoad i s = .next t) :
    stepsLeftFrom nb n rounds t.seq < stepsLeftFrom nb n rounds s.seq := by
  simp only [stepLoad, hnb] at he
  split_ifs at he with hlt heq hi <;> cases he
  · simp only [stepsLeftFrom, hsub, State.loadBlock_seq, blocks_left_mul hlt]
    omega
  · simp only [stepsLeftFrom, hsub, State.goto_seq]
    omega
  · simp only [stepsLeftFrom, hsub, State.goto_seq]
    omega

theorem stepRound_stepsLeft {forward : Bool} (hsub : s.seq.sub = .sRound) (hplan : roundPlan i s = some (forward, n))
    (he : stepRound i s = .next t) : stepsLeftFrom nb n rounds t.seq < stepsLeftFrom nb n rounds s.seq := by
  simp only [stepRound, hplan] at he
  split at he
  · rename_i hlt
    cases he
    have hsub' (k : Word) : (s.applyRound forward k).seq.sub = .sRound := hsub
    have hblk (k : Word) : (s.applyRound forward k).seq.blk = s.seq.blk := rfl
    have hrnd (k : Word) : (s.applyRound forward k).seq.rnd = s.seq.rnd + 1 := rfl
    simp only [stepsLeftFrom, hsub, hsub', hblk, hrnd]
    omega
  · split at he <;> cases he
    simp only [stepsLeftFrom, hsub, State.goto_seq]
    omega

theorem stepStore_stepsLeft (hsub : s.seq.sub = .sStore) (hnb : blockCount i s = some nb)
    (he : stepStore i s = .next t) : stepsLeftFrom nb n rounds t.seq < stepsLeftFrom nb n rounds s.seq := by
  simp only [stepStore, hnb] at he
  split_ifs at he
  cases he
  have hsub' : s.storeBlock.seq.sub = .sLoad := rfl
  have hblk : s.storeBlock.seq.blk = s.seq.blk + 1 := rfl
  simp only [stepsLeftFrom, hsub, hsub', hblk, Nat.sub_add_eq]
  omega

theorem stepUnpad_stepsLeft (hsub : s.seq.sub = .sUnpad) (he : stepUnpad i s = .next t) (ht : t.phase = .run) :
    stepsLeftFrom nb n rounds t.seq < stepsLeftFrom nb n rounds s.seq := by
  unfold stepUnpad at he
  split at he
  · split at he <;> cases he
    · simp only [stepsLeftFrom, hsub, State.goto_seq]
      omega
    · exact (failCommand_not_running ht).elim
  · cases he

theorem stepCopy_stepsLeft (hsub : s.seq.sub = .sCopy) (he : stepCopy i s = .next t) :
    stepsLeftFrom nb n rounds t.seq < stepsLeftFrom nb n rounds s.seq := by
  cases i with
  | pad | unpad =>
    rw [← Host.Outcome.next.inj he]
    simp only [stepsLeftFrom, hsub, State.goto_seq]
    omega
  | encrypt | decrypt | derive | encblk | decblk | mix => cases he

/-- A micro-step after which the command still runs leaves fewer to go. -/
theorem microStepOf_stepsLeft (hat : AtPosition i s) (he : microStepOf i s = .next t) (ht : t.phase = .run) :
    stepsLeft i t < stepsLeft i s := by
  have hf := microStepOf_frame he ht
  obtain ⟨-, -, hrounds, -⟩ := hf.operands
  rw [stepsLeft, stepsLeft, hf.blockCount_eq, hf.roundPlan_eq, hrounds]
  rw [microStepOf, if_pos (microStepOf_inDomain he)] at he
  unfold AtPosition at hat
  cases hsub : s.seq.sub <;> rw [hsub] at he hat <;> simp only at he hat
  case sCheck => exact stepCheck_stepsLeft hsub he ht
  case sKs => exact stepKs_stepsLeft hsub he
  case sLoad =>
    obtain ⟨nb, hnb, -⟩ := hat
    rw [hnb]
    exact stepLoad_stepsLeft hsub hnb he
  case sRound =>
    obtain ⟨nb, forward, n, -, -, hplan, -⟩ := hat
    rw [hplan]
    exact stepRound_stepsLeft hsub hplan he
  case sStore =>
    obtain ⟨nb, hnb, -⟩ := hat
    rw [hnb]
    exact stepStore_stepsLeft hsub hnb he
  case sUnpad => exact stepUnpad_stepsLeft hsub he ht
  case sCopy => exact stepCopy_stepsLeft hsub he
  case sEnd => cases he; exact (endCommand_not_running ht).elim

/-! ## The completion -/

/-- `m` micro-steps, at least one, complete the command with what the whole command gives, and no fewer do. -/
def CompletesIn (i : Instr) (m : Nat) (s : State) : Prop :=
  1 ≤ m ∧ ∃ t, exec i s = .next t ∧ microSteps m s = .next t ∧ t.phase = .idle ∧
    ∀ j u, j < m → microSteps j s = .next u → u.phase = .run

theorem completesIn_one (hp : s.phase = .run) (he : engineStep s = .next t) (hexec : exec i s = .next t) :
    CompletesIn i 1 s := by
  refine ⟨Nat.le_refl 1, t, hexec, microSteps_succ he 0, exec_completes hexec, fun j u hj hu => ?_⟩
  obtain rfl := Nat.lt_one_iff.1 hj
  cases hu
  exact hp

theorem CompletesIn.succ {m : Nat} (h : CompletesIn i m t) (hp : s.phase = .run) (he : engineStep s = .next t)
    (hexec : exec i t = exec i s) : CompletesIn i (m + 1) s := by
  obtain ⟨-, v, hv, hm, hidle, hbefore⟩ := h
  refine ⟨Nat.le_add_left 1 m, v, hexec ▸ hv, (microSteps_succ he m).trans hm, hidle, fun j u hj hu => ?_⟩
  cases j with
  | zero => cases hu; exact hp
  | succ j => exact hbefore j u (Nat.lt_of_succ_lt_succ hj) ((microSteps_succ he j).symm.trans hu)

/-- By induction on the micro-steps to go: each one completes the command, or leaves it running with fewer to go and the
same outcome. -/
theorem exists_completesIn : ∀ (bound : Nat) {s : State}, s.Inv → s.phase = .run → decode s.cmd = .ok i →
    AtPosition i s → Progress i s → stepsLeft i s ≤ bound → ∃ m, m ≤ bound ∧ CompletesIn i m s
  | 0, s, _, _, _, _, _, hle => absurd hle (Nat.not_le.2 (stepsLeft_pos i s))
  | bound + 1, s, hs, hp, hw, hat, hprog, hle => by
    have hd := hs.domain hp i hw
    obtain ⟨t, he⟩ := hat.microStepOf_next hd
    have hstep := (engineStep_of_ok hp hw).trans he
    obtain ⟨ht, hprog'⟩ | hexec := microStepOf_advances hs.fits hp hat hprog he
    · have hf := microStepOf_frame he ht
      have hinv := hs.microStepOf hp hw he
      have hlt := microStepOf_stepsLeft hat he ht
      obtain ⟨m, hm, hcompletes⟩ := exists_completesIn bound hinv ht (hf.cmd_eq ▸ hw)
        (microStepOf_atPosition hat he ht) hprog' (by omega)
      exact ⟨m + 1, Nat.succ_le_succ hm, hcompletes.succ hp hstep (hf.exec_eq hs.fits hinv.fits hd)⟩
    · exact ⟨1, Nat.le_add_left 1 bound, completesIn_one hp hstep hexec⟩

/-- Settles O58: at S_CHECK nothing is to have been computed, and R230's bound is the number of micro-steps to go. -/
theorem microStepsReachCompletion : Obligations.MicroStepsReachCompletion := by
  intro i s hs hp hsub hw
  have hat : AtPosition i s := by simp only [AtPosition, hsub]
  have hprog : Progress i s := by simp only [Progress, hsub]
  obtain ⟨m, hm, hpos, t, hexec, hsteps, hidle, hbefore⟩ :=
    exists_completesIn (stepBound i s) hs hp hw hat hprog (Nat.le_of_eq (stepsLeft_of_sCheck hsub))
  exact ⟨m, t, hpos, hm, hexec, hsteps, hidle, hbefore⟩

end Sys2Proof.Machine
end

section
/-! The completion with an error: what it returns, which check it reports, and the same command started again (spec
60_exceptions.md R250, R253, R256). -/

namespace Sys2Proof.Machine

variable {s t : State} {i : Instr} {k : ErrorKind}

/-! ## What an error returns -/

theorem exec_of_raises (hd : inDomain i s = true) (hk : Raises i k s) :
    exec i s = .next (s.failCommand (derivesKeys i) k) := exec_of_error hd (raises_iff.1 hk)

/-- A command that ends with ERR = 1 raised the kind it completed with. -/
theorem raises_of_exec_err (he : exec i s = .next t) (herr : t.err = true) :
    ∃ k, Raises i k s ∧ t = s.failCommand (derivesKeys i) k := by
  obtain ⟨-, ⟨u, -, rfl⟩ | ⟨k, hk, rfl⟩⟩ := exec_next_cases he
  · cases herr
  · exact ⟨k, raises_iff.2 hk, rfl⟩

/-- The failure of a deriving command leaves no round key (R250). -/
theorem roundKeys_failCommand (s : State) (k : ErrorKind) :
    (s.failCommand true k).rkLen = 0 ∧ ∀ n, Cells.lookup (s.failCommand true k).rk.cells n = none :=
  ⟨rfl, fun n => lookup_forgetFrom s.rk 0 s.draws n (Nat.zero_le n)⟩

/-- Settles O28: a raised kind is the failed completion and its frame, and only a raised kind gives one. -/
theorem errorReturnsNothing : Obligations.ErrorReturnsNothing := by
  intro i s
  refine ⟨fun k hd hk => ?_, fun t he herr => ?_⟩
  · have hexec := exec_of_raises hd hk
    refine ⟨_, hexec, failedWith_failCommand _ _ _, fun hi => ?_, fun hi => ?_, rfl, hostStateKept_of_exec hexec⟩
    · rw [derivesKeys_iff.2 hi]
      exact roundKeys_failCommand s k
    · exact roundKeysKept_of_exec (Bool.eq_false_iff.2 (mt derivesKeys_iff.1 hi)) hexec
  · obtain ⟨k, hk, rfl⟩ := raises_of_exec_err he herr
    exact ⟨k, hk, failedWith_failCommand s _ k⟩

/-! ## Which check is reported -/

/-- The first check that fails at S_CHECK is the kind the command completes with (R221, R253). -/
theorem exec_of_startCheck (hd : inDomain i s = true) (hc : startCheck i s = some k) :
    ∃ t, exec i s = .next t ∧ t.FailedWith k :=
  ⟨_, exec_of_bytes_error hd (commandBytes_of_startCheck hc), failedWith_failCommand _ _ _⟩

/-- Settles O29: each clause is a path through `startCheck`; the two block commands share theirs. -/
theorem firstFailingCheckReported : Obligations.FirstFailingCheckReported := by
  intro i s hd fails
  have failsAt {j : Instr} {k : ErrorKind} (hi : i = j) (hc : startCheck j s = some k) : fails k :=
    exec_of_startCheck hd (hi ▸ hc)
  have hzero : s.inLen.toNat = 0 ↔ s.inLen = 0 := BitVec.toNat_inj (y := 0#32)
  refine ⟨fun hi hr => failsAt hi (if_pos hr),
    fun hi hr hkey => failsAt hi ((if_neg hr).trans (if_pos hkey)),
    fun hi hr => failsAt hi (if_pos hr),
    fun hi hr hin => failsAt hi ((if_neg hr).trans (if_pos (hin.imp_left hzero.2))),
    fun hi hr hin hkey => failsAt hi ?_,
    fun hi hkey => failsAt hi (if_pos hkey),
    fun hi hkey hr => failsAt hi ((if_neg hkey).trans (if_pos hr)),
    fun hi hblock => ?_⟩
  · exact (if_neg hr).trans ((if_neg (mt (Or.imp_left hzero.1) hin)).trans (if_pos hkey))
  · obtain ⟨t, hexec, hfailed, -⟩ := exec_of_readsStore_of_error (readsStore_iff.2 hi) hd hblock
    exact ⟨t, hexec, hfailed⟩

/-! ## The same command again -/

/-- A command that leaves what the host owns, and the round keys if it reads them, leaves its own operands. -/
theorem HostStateKept.sameOperands (h : HostStateKept s t) (hrk : readsStore i = true → RoundKeysKept s t) :
    SameOperands i s t where
  keyLen _ := h.keyLen
  key _ := h.keyOperand_eq
  rounds _ := h.rounds
  inLen _ := h.inLen
  inp _ := h.inOperand_eq
  rkLen hi := (hrk hi).rkLen
  rk hi := (hrk hi).rkOperand_eq
  mixA _ := h.mixA
  mixK _ := h.mixK

theorem derivesKeys_of_readsStore (hi : readsStore i = true) : derivesKeys i = false := by
  obtain rfl | rfl := readsStore_iff.1 hi <;> rfl

/-- No command changes its own operands (R72). -/
theorem sameOperands_of_exec (he : exec i s = .next t) : SameOperands i s t :=
  (hostStateKept_of_exec he).sameOperands fun hi => roundKeysKept_of_exec (derivesKeys_of_readsStore hi) he

/-- Neither does a start (R201). -/
theorem SameOperands.start (h : SameOperands i s t) (w : Word) : SameOperands i s (t.start w) :=
  ⟨h.keyLen, h.key, h.rounds, h.inLen, h.inp, h.rkLen, h.rk, h.mixA, h.mixK⟩

/-- Settles O30: the operands are those of the first run, and they alone decide the error; an idle engine stays as it
is. -/
theorem retryGivesSameError : Obligations.RetryGivesSameError := by
  intro i s t he herr
  refine ⟨?_, (idleEngineChangesNothing t (exec_completes he)).left⟩
  obtain ⟨u, hu, huErr, huCode, -⟩ :=
    operandsAloneDecideOutcome i s _ t ((sameOperands_of_exec he).start (encode i)) he
  exact ⟨u, hu, huErr.trans herr, huCode⟩

end Sys2Proof.Machine
end

section
/-! The interrupt output and the acknowledgement of a completion (spec 60_exceptions.md R255, R260; 10_state.md R34 to
R37). -/

namespace Sys2Proof.Machine

variable {s t : State} {i : Instr}

/-! ## irq at a start and at a completion -/

@[simp] theorem State.start_irq (s : State) (w : Word) : (s.start w).irq = false := Bool.and_false _

@[simp] theorem State.failCommand_irq (s : State) (d : Bool) (k : ErrorKind) : (s.failCommand d k).irq = s.ie :=
  Bool.and_true _

@[simp] theorem State.endCommand_irq (s : State) (d k : Bool) : (s.endCommand d k).irq = s.ie := Bool.and_true _

@[simp] theorem State.acknowledge_irq (s : State) : s.acknowledge.irq = false := Bool.and_false _

theorem irq_of_exec (he : exec i s = .next t) : t.irq = s.ie := by
  obtain ⟨-, ⟨u, hu, rfl⟩ | ⟨k, -, rfl⟩⟩ := exec_next_cases he
  · obtain ⟨hframe, -⟩ := commandResult_frame hu
    rw [State.endCommand_irq, hframe]
  · exact State.failCommand_irq s _ k

theorem irq_of_engineRun (hp : s.phase = .run) (he : engineRun s = .next t) : t.irq = s.ie := by
  obtain ⟨hidle, -⟩ | ⟨i, -, hexec⟩ | rfl := engineRun_next_cases he
  · cases hp.symm.trans hidle
  · exact irq_of_exec hexec
  · exact State.failCommand_irq s _ _

/-- The last micro-step is one of the two completions (R221, R226, R228). -/
theorem irq_of_engineStep (hp : s.phase = .run) (he : engineStep s = .next t) (ht : t.phase = .idle) :
    t.irq = s.ie := by
  obtain ⟨hidle, -⟩ | ⟨-, i, -, hmicro⟩ | rfl := engineStep_next_cases he
  · cases hp.symm.trans hidle
  · obtain hrun | ⟨k, rfl⟩ | rfl := microStepOf_next_cases hp hmicro
    · cases ht.symm.trans hrun
    · exact State.failCommand_irq s _ k
    · exact State.endCommand_irq s _ _
  · exact State.failCommand_irq s _ _

/-- Settles O22: every completion sets DONE and keeps IE, a start clears DONE, and the two writes change IE or DONE
alone. -/
theorem interruptFollowsCompletion : Obligations.InterruptFollowsCompletion := by
  intro s
  refine ⟨Bool.and_eq_true_iff, fun i t => irq_of_exec, fun hp => ⟨fun t => irq_of_engineRun hp,
    fun t => irq_of_engineStep hp⟩, s.start_irq, fun hp v rest => ⟨?_, ?_⟩⟩
  · exact ⟨_, step_writeReg_of_idle (r := .ctrl) hp rfl v rest, rfl⟩
  · exact ⟨_, (step_writeReg_of_idle (r := .status) hp rfl v rest).trans (writeRegIdle_status v _),
      (Bool.and_assoc _ _ _).symm⟩

/-! ## The acknowledgement -/

/-- CLR, the write of 2 to STATUS, is the acknowledgement (R34, R104). -/
theorem step_clr (hp : s.phase = .idle) (rest : List Event) :
    step { s with inputs := clr ++ rest } = .next ({ s with inputs := rest } : State).acknowledge :=
  step_writeReg_of_idle (r := .status) hp rfl 2 rest

/-- Settles O21: CLR clears DONE alone, and the START after it clears ERR and ERR_CODE. -/
theorem acknowledgeLeavesError : Obligations.AcknowledgeLeavesError := by
  intro s i rest hp herr hd
  exact ⟨_, _, step_clr hp (startOf i ++ rest), rfl, State.acknowledge_irq _, herr, rfl,
    step_startOf (s := s.acknowledge) hp hd rest, rfl, rfl, rfl⟩

end Sys2Proof.Machine
end

section
/-! The step in which reset arrives, and each command as the first one after reset (spec 70_reset_and_hazards.md R280,
R281, R286). -/

namespace Sys2Proof.Machine

variable {i : Instr} {v : List Byte} {k : ErrorKind}

/-! ## A reset during a command -/

/-- The phase and the running command play no part in it (R280, R281). -/
theorem step_reset (s : State) (rest : List Event) :
    step { s with inputs := .reset :: rest } = .next ({ s with inputs := rest } : State).applyReset :=
  step_event s .reset rest

theorem State.applyReset_irq (s : State) : s.applyReset.irq = false := Bool.and_false _

theorem State.applyReset_specifies_no_content (s : State) (a : Nat) :
    Cells.lookup s.applyReset.key.cells a = none ∧ Cells.lookup s.applyReset.inp.cells a = none ∧
      Cells.lookup s.applyReset.out.cells a = none ∧ Cells.lookup s.applyReset.rk.cells a = none :=
  ⟨rfl, rfl, rfl, rfl⟩

/-- Settles O2: the step is `applyReset`, which takes from the state before it only the number of draws and the events
still to come. -/
theorem resetAbandonsRunningCommand : Obligations.ResetAbandonsRunningCommand := by
  intro s rest
  have hcontent := ({ s with inputs := rest } : State).applyReset_specifies_no_content
  exact ⟨_, step_reset s rest, rfl, rfl, rfl, rfl, rfl, rfl, State.applyReset_irq _, rfl, rfl, rfl, rfl, rfl, rfl, rfl,
    rfl, rfl, rfl, hcontent⟩

/-! ## The first command after reset -/

/-- Every length is 0 and ROUNDS is 8, which every CAP_RK holds (R10, R50, R67). -/
theorem inDomain_start_reset (i : Instr) (w : Word) : inDomain i (State.reset.start w) = true :=
  (inDomain_iff i _).2
    ⟨fun _ => ⟨Nat.zero_le _, Config.eight_le_capRk⟩, fun _ => Nat.zero_le _, fun _ => Nat.zero_le _⟩

/-- A first command that fails a check at S_CHECK completes with the first kind that fails (R221, R253). -/
theorem step_first_of_startCheck (hc : startCheck i (State.reset.start (encode i)) = some k) :
    ∃ t, step (State.reset.withFetchWord 32 (encode i).toNat) = .next t ∧ t.FailedWith k := by
  rw [stepRunsDecodedCommand.right]
  exact exec_of_startCheck (inDomain_start_reset i _) hc

/-- A first command whose function returns bytes completes with success and these bytes in OUT. -/
theorem step_first_of_bytes (hv : commandBytes i (State.reset.start (encode i)) = .ok v) :
    ∃ t, step (State.reset.withFetchWord 32 (encode i).toNat) = .next t ∧ t.Succeeded ∧ t.outOperand = v := by
  rw [stepRunsDecodedCommand.right]
  obtain ⟨t, hexec, hdone, -, -, hout, -⟩ := exec_of_bytes (inDomain_start_reset i _) hv
  exact ⟨t, hexec, hdone, hout⟩

/-- A first MIX combines the two zero operands (R50, R145). -/
theorem step_first_mix : ∃ t, step (State.reset.withFetchWord 32 (encode .mix).toNat) = .next t ∧ t.Succeeded ∧
    t.mixY = mix Config.params 0 0 := by
  rw [stepRunsDecodedCommand.right]
  exact ⟨_, exec_mix _, succeeded_endCommand _ _ _, rfl⟩

/-- The empty input gives one whole block of padding (R182). -/
theorem pad_nil : pad [] = List.replicate 8 8 := pad_of_aligned rfl

/-- Settles O3: the first check that fails is a closed fact of the registers of R50. ROUNDS = 8 passes its check, so the
empty key is reported, by DECRYPT the empty ciphertext before it; the block commands and UNPAD report IN_LEN = 0. PAD and
MIX check nothing. -/
theorem eachCommandStraightAfterReset : Obligations.EachCommandStraightAfterReset :=
  ⟨step_first_of_startCheck (i := .encrypt) rfl,
    step_first_of_startCheck (i := .decrypt) rfl,
    step_first_of_startCheck (i := .derive) rfl,
    step_first_of_startCheck (i := .encblk) rfl,
    step_first_of_startCheck (i := .decblk) rfl,
    step_first_of_bytes (i := .pad) (congrArg Except.ok pad_nil),
    step_first_of_startCheck (i := .unpad) rfl,
    step_first_mix⟩

end Sys2Proof.Machine
end
